-- ==== Sys2Proof/Word.lean ====
section
/-! DEFINITION. The words of the block: register bytes, 16-bit register values and command words, and bus handles. -/

namespace Sys2Proof

/-- One 8-bit device register, and an 8-bit register address or bus address (spec R8, R38, R75). -/
abbrev Byte := BitVec 8

/-- A command word `CMD`, and the value of a one- or two-byte register zero-extended to 16 bits (spec R71, R76, R90). -/
abbrev Word := BitVec 16

/-- An opaque bus handle, passed to `Open` unchanged and compared by nothing (spec R76).
Its form is the transport's: the model names handles by naturals (log entry 9). -/
abbrev Handle := Nat

end Sys2Proof
end

