-- ==== Sys2Proof/Config.lean ====
section
/-! DEFINITION. What is fixed when the model is configured (the descriptor ROM and the constants of spec R8, R24, R25, R32),
what the environment may draw (spec R6, R8: the two oracles), the free values, and the spec's test fixture FX. -/

namespace Sys2Proof

/-- `QUANT_ARITH` (spec R8, R112): exact rationals, or every operation rounded into an IEEE 754 format. -/
inductive Arith where
  | exact
  | binary64
  | binary32
  deriving DecidableEq, Repr

/-- A field byte width (spec R8: the set {1, 2}). -/
inductive ByteWidth where
  | one
  | two
  deriving DecidableEq, Repr

/-- The number of register bytes a field occupies. -/
def ByteWidth.bytes : ByteWidth → Nat
  | .one => 1
  | .two => 2

/-- The LINEAR members of a descriptor (spec R25). -/
structure LinearParams where
  step    : Rat
  base    : Rat
  minPhys : Rat
  maxPhys : Rat
  deriving DecidableEq, Repr

/-- The encoding shape of a field with the members only that shape has (spec R25). -/
inductive Shape where
  | linear (p : LinearParams)
  | enum (maxOrd : Nat)
  | bool (inverted : Bool)
  deriving DecidableEq, Repr

/-- A field descriptor (spec R25).
`addr` is the register holding the field and, for a two-byte field, the address of its more significant byte;
`off` is the index of the slice's lowest bit, LSB-0 (spec R9). -/
structure Descriptor where
  name  : String
  addr  : Byte
  bw    : ByteWidth
  off   : Nat
  w     : Nat
  shape : Shape
  deriving DecidableEq, Repr

/-- The parameters of one implementation (spec R8, R24, R32).
`por` is `DEVICE_POR`: an address with no entry has an unspecified power-on value. -/
structure Config where
  regAddrLimit   : Byte
  fields         : List Descriptor
  partIdAddr     : Byte
  partIdOffset   : Nat
  partIdWidth    : Nat
  partIdExpected : Nat
  resetAddr      : Byte
  resetBit       : Nat
  defaultBusAddr : Byte
  por            : List (Nat × Byte)
  arith          : Arith
  deriving DecidableEq, Repr

/-! ## What the environment draws -/

/-- Something the device does on its own (spec R40, R144, R164, R172).
`change` is the device change oracle's draw for one register; `resetEnds` is the end of the device's internal reset
sequence, with no effect where none is running; `powerLoss` is a loss of the device's power. -/
inductive DeviceEvent where
  | change (a : Byte) (b : Byte)
  | resetEnds
  | powerLoss
  deriving DecidableEq, Repr

/-- The oracles' draws for one bus phase: an `Open`, a read, or a write (spec R6, R8).
`before`: what the device did since the previous phase (spec R40, R55);
`ok`: whether the phase completes (spec R151);
`residue`: what a failed write leaves in the bytes it addressed (spec R53);
`after`: what the phase itself makes the device do at once (spec R62, and R144 for a reset that ends at the write).
The device acts before and after a phase, never inside one (spec R61; log entry 15). -/
structure Draw where
  before  : List DeviceEvent
  ok      : Bool
  residue : Word
  after   : List DeviceEvent
  deriving DecidableEq, Repr, Inhabited

/-- The draw of the quiescent reference device (spec 10_state.md section 5): it changes nothing on its own, the operation
succeeds, and a reset that was written ends at once. -/
def Draw.quiet : Draw := { before := [], ok := true, residue := 0, after := [.resetEnds] }

/-- Where draws come from when no premise has fixed them: unconstrained, or the quiescent reference device. -/
inductive Environment where
  | free (n : Nat)
  | quiescent
  deriving DecidableEq, Repr

/-! ## Free values: no body, so no proof can know one -/

/-- The oracles' `n`-th unconstrained draw (spec R8, U12 to U16, U30; log entry 3). -/
opaque Config.freeDraw (n : Nat) : Draw

/-- The byte an address with no `DEVICE_POR` entry holds after the device has returned to its power-on state for the
`epoch`-th time (spec R144, R171, U17; log entry 2). -/
opaque Config.freePor (epoch a : Nat) : Byte

/-- The quotient `(V - B) / S` of a BINARY mode where IEEE arithmetic gives no number (spec R112 states none; log entry 6). -/
opaque Config.freeQuotient (m : Arith) (p : LinearParams) (v : Rat) : Rat

/-- The decoded value of a BINARY mode where IEEE arithmetic gives no finite number (spec R76 has no such value; log entry 6). -/
opaque Config.freePhysical (m : Arith) (p : LinearParams) (raw : Nat) : Rat

/-! ## The field entries the document gives (spec R33 to R36) -/

/-- A partial LINEAR entry: what the document says about one field; `none` is a member it does not give. -/
structure GivenEntry where
  bw      : Option ByteWidth
  w       : Option Nat
  step    : Option Rat
  base    : Option Rat
  minPhys : Option Rat
  maxPhys : Option Rat
  deriving DecidableEq, Repr

/-- `d` has every member the entry gives. -/
def GivenEntry.admits (g : GivenEntry) (d : Descriptor) : Bool :=
  match d.shape with
  | .linear p =>
    g.bw.all (· == d.bw) && g.w.all (· == d.w) && g.step.all (· == p.step) && g.base.all (· == p.base) &&
      g.minPhys.all (· == p.minPhys) && g.maxPhys.all (· == p.maxPhys)
  | .enum _ => false
  | .bool _ => false

/-- Minimum-system-voltage field (spec R33; `maxPhys` and `bw` by decision D13). -/
def Config.minSystemVoltage : GivenEntry :=
  { bw := some .one, w := some 6, step := some (mkRat 1 4), base := some (mkRat 5 2),
    minPhys := some (mkRat 5 2), maxPhys := some 16 }

/-- Charge-voltage-limit field (spec R34). -/
def Config.chargeVoltageLimit : GivenEntry :=
  { bw := none, w := none, step := none, base := none, minPhys := some 3, maxPhys := some (mkRat 94 5) }

/-- The unnamed voltage field of spec R35. -/
def Config.unnamedVoltage : GivenEntry :=
  { bw := none, w := none, step := some (mkRat 1 100), base := some (mkRat 14 5), minPhys := none, maxPhys := none }

/-- The unnamed 11-bit field of spec R36. -/
def Config.unnamedElevenBit : GivenEntry :=
  { bw := none, w := some 11, step := none, base := none, minPhys := none, maxPhys := none }

/-- The configuration has a field for each entry the document gives: the premise of a claim about the real part
(spec R33 to R36; the entries of R34, R35 and R36 may be one field or several; log entry 19). -/
def Config.holdsGivenEntries (cfg : Config) : Bool :=
  [Config.minSystemVoltage, Config.chargeVoltageLimit, Config.unnamedVoltage, Config.unnamedElevenBit].all
    fun g => cfg.fields.any g.admits

/-! ## The test fixture FX (spec 10_state.md section 5): test data, no fact about the device -/

/-- The seven descriptors of FX. -/
def Config.fixtureFields : List Descriptor :=
  [ { name := "VSYSMIN", addr := 0x00, bw := .one, off := 0, w := 6,
      shape := .linear { step := mkRat 1 4, base := mkRat 5 2, minPhys := mkRat 5 2, maxPhys := 16 } },
    { name := "VREG", addr := 0x01, bw := .two, off := 0, w := 11,
      shape := .linear { step := mkRat 1 100, base := 0, minPhys := 3, maxPhys := mkRat 94 5 } },
    { name := "V_B28", addr := 0x05, bw := .two, off := 0, w := 11,
      shape := .linear { step := mkRat 1 100, base := mkRat 14 5, minPhys := mkRat 14 5, maxPhys := mkRat 94 5 } },
    { name := "MODE_E", addr := 0x10, bw := .one, off := 4, w := 2, shape := .enum 2 },
    { name := "EN_INV", addr := 0x0F, bw := .one, off := 7, w := 1, shape := .bool true },
    { name := "EN_NRM", addr := 0x0F, bw := .one, off := 0, w := 1, shape := .bool false },
    { name := "CLAMP_T", addr := 0x20, bw := .one, off := 2, w := 3,
      shape := .linear { step := 1, base := 0, minPhys := 0, maxPhys := 10 } } ]

/-- The fixture configuration FX (log entry 1: the instance `State.reset` starts from; DESIGN CHOICE). -/
def Config.fixture : Config :=
  { regAddrLimit := 0x2E, fields := Config.fixtureFields,
    partIdAddr := 0x2D, partIdOffset := 3, partIdWidth := 3, partIdExpected := 3,
    resetAddr := 0x09, resetBit := 6, defaultBusAddr := 0x6B,
    por := (List.range 0x2F).map fun a => (a, if a = 0x2D then 0x19 else 0x00),
    arith := .exact }

end Sys2Proof
end

