-- ==== Sys2Proof/Syntax.lean ====
section
/-! DEFINITION. Operand and result values, requests, the reasons a request is refused at decode, and the instructions: one
constructor per row of spec/opcode_table.json. -/

namespace Sys2Proof

/-- A typed operand or result value (spec R76, R77; DESIGN CHOICE: no bits, log entry 17). -/
inductive Value where
  | phys (q : Rat)
  | ord (n : Nat)
  | flag (b : Bool)
  | word (x : Word)
  | handle (h : Handle)
  | none
  deriving DecidableEq, Repr

/-- What stands on the request port: the command word and the two operand slots (spec R70). -/
structure Request where
  cmd : Word
  a   : Value
  b   : Value
  deriving DecidableEq, Repr

/-- Why a request is refused at decode (spec R82). -/
inductive DecodeError where
  /-- `RSV` is not `0000`, or a RESET has a non-zero `ARG` (spec R81). -/
  | reservedBits
  /-- The opcode is reserved (spec R80). -/
  | reservedOpcode
  /-- `FIDX ≥ N_FIELDS` (spec R73). -/
  | badFieldIndex
  /-- The field's shape is not the one the command needs (spec R79). -/
  | shapeMismatch
  /-- A used operand has the wrong kind, or a DEQUANT raw value does not fit the field (spec R76, R82). -/
  | operandKind
  /-- `OFF + W > 16` (spec R74). -/
  | sliceOutOfRange
  deriving DecidableEq, Repr

/-- The instructions: the twelve variants of spec R72 and R79 with their operands.
`f` is a field index, `off` and `w` a slice. -/
inductive Instr where
  | getLin (f : Byte)
  | getEnum (f : Byte)
  | getBool (f : Byte)
  | setLin (f : Byte) (v : Rat)
  | setEnum (f : Byte) (n : Nat)
  | setBool (f : Byte) (b : Bool)
  | bringup (busAddr : Byte) (h : Handle)
  | reset
  | extract (off w : Nat) (x : Word)
  | insert (off w : Nat) (x r : Word)
  | dequant (f : Byte) (raw : Word)
  | quant (f : Byte) (v : Rat)
  deriving DecidableEq, Repr

end Sys2Proof
end

