-- ==== Sys2Proof/WellFormed.lean ====
section
/-! DEFINITION. The well-formedness checks: of descriptors and configurations (spec R27 to R31), and of an instruction
against a configuration (spec R73, R74, R76, R79). -/

namespace Sys2Proof

/-- Spec R27: the slice has a bit, lies inside the register value, and the register's bytes exist. -/
def Descriptor.placed (limit : Byte) (d : Descriptor) : Bool :=
  decide (1 ≤ d.w) && decide (d.off + d.w ≤ 8 * d.bw.bytes) && decide (d.addr.toNat + d.bw.bytes - 1 ≤ limit.toNat)

/-- Spec R28, R29, R30: what each shape asks of its descriptor. -/
def Descriptor.shapeOk (d : Descriptor) : Bool :=
  match d.shape with
  | .linear p => decide (0 < p.step) && decide (p.minPhys ≤ p.maxPhys)
  | .enum maxOrd => decide (maxOrd ≤ 2 ^ d.w - 1)
  | .bool _ => decide (d.w = 1)

/-- A well-formed descriptor (spec R27 to R30). -/
def Descriptor.wf (limit : Byte) (d : Descriptor) : Bool := d.placed limit && d.shapeOk

/-- The part-identification constants are well formed (spec R31). -/
def Config.partIdOk (cfg : Config) : Bool :=
  decide (cfg.partIdAddr.toNat ≤ cfg.regAddrLimit.toNat) && decide (cfg.partIdOffset + cfg.partIdWidth ≤ 8) &&
    decide (cfg.partIdExpected < 2 ^ cfg.partIdWidth)

/-- The reset constants are well formed (spec R31). -/
def Config.resetOk (cfg : Config) : Bool :=
  decide (cfg.resetAddr.toNat ≤ cfg.regAddrLimit.toNat) && decide (cfg.resetBit ≤ 7)

/-- A well-formed configuration (spec R31), with as many fields as spec R8 lets `N_FIELDS` be (log entry 8). -/
def Config.wf (cfg : Config) : Bool :=
  decide (1 ≤ cfg.fields.length) && decide (cfg.fields.length ≤ 256) && cfg.fields.all (Descriptor.wf cfg.regAddrLimit) &&
    cfg.partIdOk && cfg.resetOk

/-- Field `f` exists and its descriptor passes `p`. -/
def Config.fieldIs (cfg : Config) (f : Byte) (p : Descriptor → Bool) : Bool :=
  (cfg.fields[f.toNat]?).any p

/-- The descriptor is LINEAR. -/
def Descriptor.isLinear (d : Descriptor) : Bool :=
  match d.shape with
  | .linear _ => true
  | .enum _ => false
  | .bool _ => false

/-- The descriptor is ENUM. -/
def Descriptor.isEnum (d : Descriptor) : Bool :=
  match d.shape with
  | .linear _ => false
  | .enum _ => true
  | .bool _ => false

/-- The descriptor is BOOL. -/
def Descriptor.isBool (d : Descriptor) : Bool :=
  match d.shape with
  | .linear _ => false
  | .enum _ => false
  | .bool _ => true

/-- An instruction the command word and operands can express on this configuration (spec R73, R74, R76, R79). -/
def Instr.wf (cfg : Config) : Instr → Bool
  | .getLin f => cfg.fieldIs f Descriptor.isLinear
  | .getEnum f => cfg.fieldIs f Descriptor.isEnum
  | .getBool f => cfg.fieldIs f Descriptor.isBool
  | .setLin f _ => cfg.fieldIs f Descriptor.isLinear
  | .setEnum f _ => cfg.fieldIs f Descriptor.isEnum
  | .setBool f _ => cfg.fieldIs f Descriptor.isBool
  | .bringup _ _ => true
  | .reset => true
  | .extract off w _ => decide (1 ≤ w) && decide (off + w ≤ 16)
  | .insert off w _ _ => decide (1 ≤ w) && decide (off + w ≤ 16)
  | .dequant f raw => cfg.fieldIs f fun d => d.isLinear && decide (raw.toNat < 2 ^ d.w)
  | .quant f _ => cfg.fieldIs f Descriptor.isLinear

end Sys2Proof
end

