-- ==== Sys2Proof/Decode.lean ====
section
/-! DEFINITION. The decoder of spec R82, total on every request; then the encoder of the same table (spec R71 to R75), the
assembler forms of spec R85, and the decoder's reading of a word of the opcode table. -/

namespace Sys2Proof

/-! ## The command word (spec R71) -/

/-- `OP = CMD[15:12]`. -/
def Request.op (r : Request) : BitVec 4 := r.cmd.extractLsb' 12 4

/-- `RSV = CMD[11:8]`. -/
def Request.rsv (r : Request) : BitVec 4 := r.cmd.extractLsb' 8 4

/-- `ARG = CMD[7:0]`. -/
def Request.arg (r : Request) : Byte := r.cmd.extractLsb' 0 8

/-- `OFF = CMD[7:4]` (spec R74). -/
def Request.sliceOff (r : Request) : Nat := (r.cmd.extractLsb' 4 4).toNat

/-- `W = CMD[3:0] + 1` (spec R74). -/
def Request.sliceWidth (r : Request) : Nat := (r.cmd.extractLsb' 0 4).toNat + 1

/-! ## The decoder (spec R82) -/

/-- `Desc[FIDX]`, refused where there is none (spec R73). -/
def fieldAt (cfg : Config) (f : Byte) : Except DecodeError Descriptor :=
  match cfg.fields[f.toNat]? with
  | some d => .ok d
  | none => .error .badFieldIndex

/-- Opcode 0x1: the descriptor's shape selects the variant; operands are not examined (spec R79, R82). -/
def decodeGet (cfg : Config) (r : Request) : Except DecodeError Instr :=
  match fieldAt cfg r.arg with
  | .error e => .error e
  | .ok d =>
    match d.shape with
    | .linear _ => .ok (.getLin r.arg)
    | .enum _ => .ok (.getEnum r.arg)
    | .bool _ => .ok (.getBool r.arg)

/-- Opcode 0x2: the shape selects the variant, and the kind of `A` must match it (spec R76, R79, R82). -/
def decodeSet (cfg : Config) (r : Request) : Except DecodeError Instr :=
  match fieldAt cfg r.arg with
  | .error e => .error e
  | .ok d =>
    match d.shape, r.a with
    | .linear _, .phys v => .ok (.setLin r.arg v)
    | .enum _, .ord n => .ok (.setEnum r.arg n)
    | .bool _, .flag b => .ok (.setBool r.arg b)
    | _, _ => .error .operandKind

/-- Opcode 0x3: `A` must be a handle (spec R75, R82). -/
def decodeBringup (r : Request) : Except DecodeError Instr :=
  match r.a with
  | .handle h => .ok (.bringup r.arg h)
  | _ => .error .operandKind

/-- Opcode 0x4: `ARG` must be zero (spec R81, R82). -/
def decodeReset (r : Request) : Except DecodeError Instr :=
  if r.arg = 0 then .ok .reset else .error .reservedBits

/-- Opcode 0x8: the slice is checked before the operand's kind (spec R74, R82). -/
def decodeExtract (r : Request) : Except DecodeError Instr :=
  if 16 < r.sliceOff + r.sliceWidth then .error .sliceOutOfRange
  else
    match r.a with
    | .word x => .ok (.extract r.sliceOff r.sliceWidth x)
    | _ => .error .operandKind

/-- Opcode 0x9: as 0x8, and `B` must be a word too (spec R74, R82). -/
def decodeInsert (r : Request) : Except DecodeError Instr :=
  if 16 < r.sliceOff + r.sliceWidth then .error .sliceOutOfRange
  else
    match r.a, r.b with
    | .word x, .word v => .ok (.insert r.sliceOff r.sliceWidth x v)
    | _, _ => .error .operandKind

/-- Opcode 0xA: a LINEAR field, and a raw word that fits it (spec R82, R110). -/
def decodeDequant (cfg : Config) (r : Request) : Except DecodeError Instr :=
  match fieldAt cfg r.arg with
  | .error e => .error e
  | .ok d =>
    match d.shape, r.a with
    | .linear _, .word raw => if raw.toNat < 2 ^ d.w then .ok (.dequant r.arg raw) else .error .operandKind
    | .linear _, _ => .error .operandKind
    | _, _ => .error .shapeMismatch

/-- Opcode 0xB: a LINEAR field and a physical operand (spec R82, R111). -/
def decodeQuant (cfg : Config) (r : Request) : Except DecodeError Instr :=
  match fieldAt cfg r.arg with
  | .error e => .error e
  | .ok d =>
    match d.shape, r.a with
    | .linear _, .phys v => .ok (.quant r.arg v)
    | .linear _, _ => .error .operandKind
    | _, _ => .error .shapeMismatch

/-- The decoder, in the order of checks spec R82 gives: total on every command word and every operand pair. -/
def decode (cfg : Config) (r : Request) : Except DecodeError Instr :=
  if r.rsv ≠ 0 then .error .reservedBits
  else
    match r.op.toNat with
    | 0x1 => decodeGet cfg r
    | 0x2 => decodeSet cfg r
    | 0x3 => decodeBringup r
    | 0x4 => decodeReset r
    | 0x8 => decodeExtract r
    | 0x9 => decodeInsert r
    | 0xA => decodeDequant cfg r
    | 0xB => decodeQuant cfg r
    | _ => .error .reservedOpcode

/-! ## The encoder (spec R71 to R75) -/

/-- The command word of an opcode and an argument: `OP`, then `RSV = 0000`, then `ARG`. -/
def commandWord (op : BitVec 4) (arg : Byte) : Word := op ++ 0#4 ++ arg

/-- `ARG` of a slice command: `OFF` above `W - 1`. -/
def sliceArg (off w : Nat) : Byte := BitVec.ofNat 4 off ++ BitVec.ofNat 4 (w - 1)

/-- The request that says an instruction; slots a command ignores hold `none` (spec R72). -/
def encode : Instr → Request
  | .getLin f => { cmd := commandWord 0x1 f, a := .none, b := .none }
  | .getEnum f => { cmd := commandWord 0x1 f, a := .none, b := .none }
  | .getBool f => { cmd := commandWord 0x1 f, a := .none, b := .none }
  | .setLin f v => { cmd := commandWord 0x2 f, a := .phys v, b := .none }
  | .setEnum f n => { cmd := commandWord 0x2 f, a := .ord n, b := .none }
  | .setBool f b => { cmd := commandWord 0x2 f, a := .flag b, b := .none }
  | .bringup busAddr h => { cmd := commandWord 0x3 busAddr, a := .handle h, b := .none }
  | .reset => { cmd := commandWord 0x4 0, a := .none, b := .none }
  | .extract off w x => { cmd := commandWord 0x8 (sliceArg off w), a := .word x, b := .none }
  | .insert off w x r => { cmd := commandWord 0x9 (sliceArg off w), a := .word x, b := .word r }
  | .dequant f raw => { cmd := commandWord 0xA f, a := .word raw, b := .none }
  | .quant f v => { cmd := commandWord 0xB f, a := .phys v, b := .none }

/-! ## The assembler (spec R85, R86) -/

/-- A field is written by its index or by its descriptor's name. -/
inductive FieldRef where
  | index (f : Byte)
  | name (n : String)
  deriving DecidableEq, Repr

/-- The assembler forms of spec R85, each a line with its operands read; `bringup` without a bus address is the short form. -/
inductive AsmLine where
  | get (f : FieldRef)
  | set (f : FieldRef) (v : Value)
  | bringup (busAddr : Option Byte) (h : Handle)
  | reset
  | extract (off w : Nat) (x : Word)
  | insert (off w : Nat) (x r : Word)
  | dequant (f : FieldRef) (raw : Word)
  | quant (f : FieldRef) (v : Rat)
  deriving DecidableEq, Repr

/-- The index a field reference stands for; a name that no descriptor has stands for none. -/
def fieldIndex (cfg : Config) : FieldRef → Option Byte
  | .index f => some f
  | .name n => (cfg.fields.findIdx? fun d => d.name == n).map (BitVec.ofNat 8)

/-- The request an assembler line encodes (spec R85; log entry 18).
A slice that `ARG` cannot carry, and a name no descriptor has, encode nothing. -/
def assemble (cfg : Config) : AsmLine → Option Request
  | .get f => (fieldIndex cfg f).map fun i => { cmd := 0x1000 + i.setWidth 16, a := .none, b := .none }
  | .set f v => (fieldIndex cfg f).map fun i => { cmd := 0x2000 + i.setWidth 16, a := v, b := .none }
  | .bringup busAddr h => some { cmd := 0x3000 + (busAddr.getD cfg.defaultBusAddr).setWidth 16, a := .handle h, b := .none }
  | .reset => some { cmd := 0x4000, a := .none, b := .none }
  | .extract off w x =>
    if off < 16 ∧ 1 ≤ w ∧ w ≤ 16 then some { cmd := BitVec.ofNat 16 (0x8000 + 16 * off + (w - 1)), a := .word x, b := .none }
    else none
  | .insert off w x r =>
    if off < 16 ∧ 1 ≤ w ∧ w ≤ 16 then some { cmd := BitVec.ofNat 16 (0x9000 + 16 * off + (w - 1)), a := .word x, b := .word r }
    else none
  | .dequant f raw => (fieldIndex cfg f).map fun i => { cmd := 0xA000 + i.setWidth 16, a := .word raw, b := .none }
  | .quant f v => (fieldIndex cfg f).map fun i => { cmd := 0xB000 + i.setWidth 16, a := .phys v, b := .none }

/-! ## A word of the opcode table -/

/-- The zero of the operand kind a SET of this field takes. -/
def zeroValueFor (cfg : Config) (f : Byte) : Value :=
  match fieldAt cfg f with
  | .error _ => .none
  | .ok d =>
    match d.shape with
    | .linear _ => .phys 0
    | .enum _ => .ord 0
    | .bool _ => .flag false

/-- The operands of a bare command word: each used slot holds the zero of the kind the command takes, since the opcode
table gives operands no bits and spec R76 leaves `OPERAND_FORMAT` open (log entry 10). -/
def withZeroOperands (cfg : Config) (cmd : Word) : Request :=
  let bare : Request := { cmd := cmd, a := .none, b := .none }
  match bare.op.toNat with
  | 0x2 => { bare with a := zeroValueFor cfg bare.arg }
  | 0x3 => { bare with a := .handle 0 }
  | 0x8 => { bare with a := .word 0 }
  | 0x9 => { bare with a := .word 0, b := .word 0 }
  | 0xA => { bare with a := .word 0 }
  | 0xB => { bare with a := .phys 0 }
  | _ => bare

/-- The instruction the decoder reads from the `nbits` bits `w`, on the fixture configuration and with zero operands.
A command is one 16-bit word (spec R84), so any other length is no command. -/
def decodeTableWord (nbits w : Nat) : Option Instr :=
  if nbits = 16 ∧ w < 2 ^ 16 then (decode Config.fixture (withZeroOperands Config.fixture (BitVec.ofNat 16 w))).toOption
  else none

end Sys2Proof
end

