-- ==== Sys2Proof/Machine/State.lean ====
section
/-! DEFINITION. The machine's state as plain data, its reasons to stop, and the state after reset. -/

namespace Sys2Proof.Machine

/-- The reasons a step stops with a fault: none.
Every failure the spec describes is a status in a response (spec R150 to R153), and the stuck outcome "does not arise
inside the codec" (spec R12). -/
inductive Fault where
  deriving DecidableEq, Repr

/-- The reasons a request gets no meaning (spec R12). All are safe: the model claims nothing of such a run. -/
inductive Refusal where
  /-- Raised by an arm of `exec` whose instruction has no meaning yet; no arm does. Safe. -/
  | notModelled (mnemonic : String)
  /-- Raised by the decoder, and by a meaning called on an instruction the decoder never gives (spec R82). Safe. -/
  | decode (e : DecodeError)
  /-- Raised by GET, RESET and a valid SET while `LINK_OPEN` is false (spec R120, R142). Safe. -/
  | linkClosed
  /-- Raised by SET.LIN and QUANT where the operand rounds to an infinity in a BINARY mode (spec R112). Safe. -/
  | nonFiniteOperand
  /-- Raised by `step` before any command of an ill-formed configuration (spec R31). Safe. -/
  | illFormedConfig
  deriving DecidableEq, Repr

/-- The response statuses (spec R150). -/
inductive Status where
  | ok
  | transportFailure
  | validationFailure
  | identificationMismatch
  deriving DecidableEq, Repr

/-- One response: `STATUS` and `RESULT` (spec R70). -/
structure Response where
  status : Status
  result : Value
  deriving DecidableEq, Repr

/-- One transport operation of a command with the answer it got (spec R6, R57: the codec issues only these three).
The answer of a read is the raw slice, or none where it failed. -/
inductive TraceEntry where
  | opened (busAddr : Byte) (h : Handle) (ok : Bool)
  | readBits (a : Byte) (n : ByteWidth) (w off : Nat) (answer : Option Word)
  | writeBits (a : Byte) (n : ByteWidth) (w off : Nat) (raw : Word) (ok : Bool)
  deriving DecidableEq, Repr

/-- The device register file: address and byte pairs, addresses strictly rising, no pair whose byte is what an unlisted
address reads as. -/
abbrev Memory := List Host.Cell

/-- The state: what the spec's 10_state.md gives the machine, and the model's own `script`, `env` and `epoch`. -/
structure State where
  /-- The descriptor ROM and the configuration constants (spec R24, R32); no command writes it. -/
  cfg : Config
  /-- `REGS` (spec R38); an unlisted register holds its power-on value. -/
  regs : Memory
  /-- `LINK_OPEN` (spec R39). -/
  linkOpen : Bool
  /-- The device is running its internal reset sequence (spec R40, R144). -/
  resetting : Bool
  /-- The command index (spec R21). -/
  index : Nat
  /-- The caller's commands not yet issued, the next one first (spec R21, R70). -/
  stream : List Request
  /-- The response port: the current command's response, none before it (spec R22, R70). -/
  response : Option Response
  /-- The current command's transport operations, oldest first (spec R6). -/
  trace : List TraceEntry
  /-- Draws that a premise about the environment has fixed, next first (spec R6; log entry 3). -/
  script : List Draw
  /-- Where the draws beyond `script` come from (log entry 3). -/
  env : Environment
  /-- How often the device has returned to its power-on state (spec R144, R164; log entry 2). -/
  epoch : Nat
  deriving DecidableEq, Repr

/-- The state in which the model of a configuration starts (spec R170, R171): link closed, no reset running, command
index 0, no command issued, every register at its power-on value, and the oracles unconstrained.
DEDUCED: no reset runs and there is no response yet (log entry 13). -/
def State.powerOn (cfg : Config) : State :=
  { cfg := cfg, regs := [], linkOpen := false, resetting := false, index := 0, stream := [], response := none, trace := [],
    script := [], env := .free 0, epoch := 0 }

/-- The state after reset, on the fixture configuration (DESIGN CHOICE, log entry 1: the spec leaves the configuration OPEN). -/
def State.reset : State := State.powerOn Config.fixture

end Sys2Proof.Machine
end

