-- ==== Sys2Proof/Machine/Bits.lean ====
section
/-! DEFINITION. The bit-slice mask-and-shift unit (spec R90, R91, R93). -/

namespace Sys2Proof.Machine

/-- `mask(w) = 2^w - 1` at 16 bits (spec R10). -/
def mask (w : Nat) : Word := BitVec.ofNat 16 (2 ^ w - 1)

/-- `EXTRACT(x, OFF, W)` (spec R90). -/
def extractBits (x : Word) (off w : Nat) : Word := (x >>> off) &&& mask w

/-- `INSERT(x, OFF, W, r)` (spec R91): the raw value is cut to `w` bits before the shift. -/
def insertBits (x : Word) (off w : Nat) (r : Word) : Word :=
  (x &&& ~~~(mask w <<< off)) ||| ((r &&& mask w) <<< off)

/-- The field mask of a descriptor (spec R93). -/
def fmask (d : Descriptor) : Word := mask d.w <<< d.off

end Sys2Proof.Machine
end

