-- ==== Sys2Proof/Machine/Ops.lean ====
section
/-! DEFINITION. The operations over the device register file, the device's own events, the draws of the oracles, and the
transport operations of spec R52 to R58; then how the next request is accepted and decoded. -/

namespace Sys2Proof.Machine

/-! ## The register file as a list of cells -/

/-- The byte at `a`: the listed one, or what an unlisted address reads as. -/
def Memory.read (m : Memory) (unlisted : Nat → Byte) (a : Nat) : Byte :=
  match m with
  | [] => unlisted a
  | (k, b) :: rest => if a = k then b else Memory.read rest unlisted a

/-- Puts `b` at `a`, in its place in the rising order; a byte that equals the unlisted one leaves no pair. -/
def Memory.write (m : Memory) (unlisted : Nat → Byte) (a : Nat) (b : Byte) : Memory :=
  match m with
  | [] => if b = unlisted a then [] else [(a, b)]
  | (k, c) :: rest =>
    if a < k then (if b = unlisted a then (k, c) :: rest else (a, b) :: (k, c) :: rest)
    else if a = k then (if b = unlisted a then rest else (a, b) :: rest)
    else (k, c) :: Memory.write rest unlisted a b

/-- The canonical form: addresses strictly rising and none above `limit`, no pair that an unlisted address would read as. -/
def Memory.wf (m : Memory) (unlisted : Nat → Byte) (limit : Nat) : Bool :=
  match m with
  | [] => true
  | (k, b) :: rest =>
    decide (k ≤ limit) && b != unlisted k && rest.all (fun c => decide (k < c.1)) && Memory.wf rest unlisted limit

/-! ## Registers (spec R38) -/

/-- The byte with bit `i` cleared. -/
def clearBit (b : Byte) (i : Nat) : Byte := b &&& ~~~(1#8 <<< i)

/-- What a register holds when the device is at its power-on state (spec R144, R171): its `DEVICE_POR` byte, or an
unknown one where none is specified; the reset bit is 0. -/
def powerOnByte (cfg : Config) (epoch a : Nat) : Byte :=
  let b := (cfg.por.lookup a).getD (Config.freePor epoch a)
  if a = cfg.resetAddr.toNat then clearBit b cfg.resetBit else b

/-- What an unlisted register of this state holds. -/
def State.unlisted (s : State) (a : Nat) : Byte := powerOnByte s.cfg s.epoch a

/-- The register exists (spec R38). -/
def State.hasReg (s : State) (a : Nat) : Bool := decide (a ≤ s.cfg.regAddrLimit.toNat)

/-- The byte of register `a`. -/
def State.peek (s : State) (a : Nat) : Byte := s.regs.read s.unlisted a

/-- The state with register `a` holding `b`; an address above `REG_ADDR_LIMIT` holds no register. -/
def State.poke (s : State) (a : Nat) (b : Byte) : State :=
  if s.hasReg a then { s with regs := s.regs.write s.unlisted a b } else s

/-! ## The device's own events -/

/-- The device at its power-on state: every register at its power-on value, no reset running (spec R144, R172). -/
def State.toDefaults (s : State) : State := { s with regs := [], resetting := false, epoch := s.epoch + 1 }

/-- One device event (spec R40, R144, R164). DEDUCED: a power loss leaves the link flag (log entry 11). DESIGN CHOICE: the
end of a reset ends every reset that was written before it, and a further end has no effect (log entry 22). -/
def State.applyEvent (s : State) : DeviceEvent → State
  | .change a b => s.poke a.toNat b
  | .resetEnds => if s.resetting then s.toDefaults else s
  | .powerLoss => s.toDefaults

/-- The device events of one draw, in order. -/
def State.device (s : State) (es : List DeviceEvent) : State := es.foldl State.applyEvent s

/-! ## Draws -/

/-- The draw the next bus phase gets. -/
def State.nextDraw (s : State) : Draw :=
  match s.script with
  | d :: _ => d
  | [] =>
    match s.env with
    | .free n => Config.freeDraw n
    | .quiescent => Draw.quiet

/-- The state with that draw used up. -/
def State.afterDraw (s : State) : State :=
  match s.script with
  | _ :: ds => { s with script := ds }
  | [] =>
    match s.env with
    | .free n => { s with env := .free (n + 1) }
    | .quiescent => s

/-- The state a bus phase finds: its draw taken, and what the device did since the previous phase done. -/
def State.atPhase (s : State) : State := s.afterDraw.device s.nextDraw.before

/-! ## Register access of one or two bytes, big-endian (spec R52, R53, R59) -/

/-- Every byte of the access exists (spec R58). -/
def State.holds (s : State) (a : Byte) (n : ByteWidth) : Bool := s.hasReg (a.toNat + n.bytes - 1)

/-- The value of the registers at `a`: the byte at the lower address is the more significant. -/
def State.load (s : State) (a : Byte) (n : ByteWidth) : Word :=
  match n with
  | .one => (s.peek a.toNat).setWidth 16
  | .two => s.peek a.toNat ++ s.peek (a.toNat + 1)

/-- The registers at `a` set to `v`, which is cut to their width. -/
def State.store (s : State) (a : Byte) (n : ByteWidth) (v : Word) : State :=
  match n with
  | .one => s.poke a.toNat (v.extractLsb' 0 8)
  | .two => (s.poke a.toNat (v.extractLsb' 8 8)).poke (a.toNat + 1) (v.extractLsb' 0 8)

/-- `MemRead(a, n)` (spec R52, R58): the value, or none where the read fails. -/
def State.memRead (s : State) (a : Byte) (n : ByteWidth) : Option Word × State :=
  let s1 := s.atPhase
  (if s1.holds a n && s.nextDraw.ok then some (s1.load a n) else none, s1.device s.nextDraw.after)

/-- The write of `v` at `a` puts a 1 into the reset bit: bit `RESET_BIT` of the byte that the register `RESET_ADDR` gets
(spec R40, R142, D17). Whichever command issues the write, and whether the bit is new or written back as read, the device
sees only this byte (DEDUCED: log entry 4). -/
def writesReset (cfg : Config) (a : Byte) (n : ByteWidth) (v : Word) : Bool :=
  match n with
  | .one => decide (cfg.resetAddr = a) && v.getLsbD cfg.resetBit
  | .two =>
    (decide (cfg.resetAddr = a) && v.getLsbD (8 + cfg.resetBit)) ||
      (decide (cfg.resetAddr.toNat = a.toNat + 1) && v.getLsbD cfg.resetBit)

/-- The device has taken a reset write, if the write is one (spec R40, R144). DESIGN CHOICE: the spec does not say what a
reset write does to a reset that is already running; one flag holds both, so they end together (log entry 22). -/
def State.startReset (s : State) (isReset : Bool) : State := if isReset then { s with resetting := true } else s

/-- `MemWrite(a, n, v)` (spec R53, R58): whether it completed. A write that fails leaves the residue of its draw in the
bytes it addressed; a write to an address that does not exist changes nothing (DEDUCED: log entry 21).
The device reacts to a write that completes and puts a 1 into the reset bit (spec R40, R144; log entry 4). -/
def State.memWrite (s : State) (a : Byte) (n : ByteWidth) (v : Word) : Bool × State :=
  let s1 := s.atPhase
  if s1.holds a n then
    if s.nextDraw.ok then (true, ((s1.store a n v).startReset (writesReset s.cfg a n v)).device s.nextDraw.after)
    else (false, (s1.store a n s.nextDraw.residue).device s.nextDraw.after)
  else (false, s1.device s.nextDraw.after)

/-! ## Transport operations: one trace entry each (spec R54 to R57) -/

/-- The state with one more trace entry. -/
def State.record (s : State) (e : TraceEntry) : State := { s with trace := s.trace ++ [e] }

/-- `ReadBits(a, n, w, off)` (spec R54). -/
def State.readBits (s : State) (a : Byte) (n : ByteWidth) (w off : Nat) : Option Word × State :=
  let answer := (s.memRead a n).1.map fun v => extractBits v off w
  (answer, (s.memRead a n).2.record (.readBits a n w off answer))

/-- `WriteBits(a, n, w, off, raw)` (spec R55): a read, then a write of the value read with the slice replaced. -/
def State.writeBits (s : State) (a : Byte) (n : ByteWidth) (w off : Nat) (raw : Word) : Bool × State :=
  match s.memRead a n with
  | (none, s1) => (false, s1.record (.writeBits a n w off raw false))
  | (some v, s1) =>
    let r := s1.memWrite a n (insertBits v off w raw)
    (r.1, r.2.record (.writeBits a n w off raw r.1))

/-- The link open or closed (spec R39). -/
def State.setLink (s : State) (isOpen : Bool) : State := { s with linkOpen := isOpen }

/-- `Open(busAddr, h)` (spec R56): a failed open leaves the link closed (D15). -/
def State.openLink (s : State) (busAddr : Byte) (h : Handle) : Bool × State :=
  let ok := s.nextDraw.ok
  let s1 := (s.atPhase.setLink ok).device s.nextDraw.after
  (ok, s1.record (.opened busAddr h ok))

/-! ## The request port (spec R70) -/

/-- What the request port gives: no request waits, the request is refused, or an instruction runs from a state. -/
inductive Fetched where
  | idle
  | refused (r : Refusal)
  | run (i : Instr) (s : State)

/-- The state in which an accepted request runs: it has left the stream, and its response and trace are still to come
(DESIGN CHOICE: log entry 16). -/
def State.accept (s : State) : State := { s with stream := s.stream.tail, response := none, trace := [] }

/-- The next request, decoded; an ill-formed configuration is refused as a whole (spec R31, R82). -/
def State.fetch (s : State) : Fetched :=
  if s.cfg.wf then
    match s.stream with
    | [] => .idle
    | r :: _ =>
      match Sys2Proof.decode s.cfg r with
      | .error e => .refused (.decode e)
      | .ok i => .run i s.accept
  else .refused .illFormedConfig

/-- The state with `r` as the next request. -/
def State.withNext (s : State) (r : Request) : State := { s with stream := r :: s.stream.tail }

end Sys2Proof.Machine
end

