-- ==== Sys2Proof/Machine/Operands.lean ====
section
/-! DEFINITION. The operand forms: the descriptor a field index selects, by the shape a command needs (spec R73, R79), and
the slice of EXTRACT and INSERT (spec R74). The decoder has made the same checks; a meaning called on an instruction the
decoder never gives is refused for the decoder's reason (DEDUCED: log entry 20). -/

namespace Sys2Proof.Machine

/-- The LINEAR descriptor at `f` with its constants. -/
def State.linearField (s : State) (f : Byte) : Except DecodeError (Descriptor × LinearParams) :=
  match fieldAt s.cfg f with
  | .error e => .error e
  | .ok d =>
    match d.shape with
    | .linear p => .ok (d, p)
    | .enum _ => .error .shapeMismatch
    | .bool _ => .error .shapeMismatch

/-- The ENUM descriptor at `f` with its largest ordinal. -/
def State.enumField (s : State) (f : Byte) : Except DecodeError (Descriptor × Nat) :=
  match fieldAt s.cfg f with
  | .error e => .error e
  | .ok d =>
    match d.shape with
    | .linear _ => .error .shapeMismatch
    | .enum maxOrd => .ok (d, maxOrd)
    | .bool _ => .error .shapeMismatch

/-- The BOOL descriptor at `f` with its polarity. -/
def State.boolField (s : State) (f : Byte) : Except DecodeError (Descriptor × Bool) :=
  match fieldAt s.cfg f with
  | .error e => .error e
  | .ok d =>
    match d.shape with
    | .linear _ => .error .shapeMismatch
    | .enum _ => .error .shapeMismatch
    | .bool inverted => .ok (d, inverted)

/-- The slice lies inside a 16-bit value and has a bit (spec R74). -/
def sliceFits (off w : Nat) : Bool := decide (1 ≤ w) && decide (off + w ≤ 16)

end Sys2Proof.Machine
end

