-- ==== Sys2Proof/Machine/Flags.lean ====
section
/-! DEFINITION. The block has no flags (spec R22): each response carries a status instead. Status codes, responding, and the
one way a command fails: spec R156 gives a failure no saved state, no mode and no transfer of control, and spec R157 no
return from it. -/

namespace Sys2Proof.Machine

/-- The status codes (spec R150). -/
def Status.code : Status → BitVec 2
  | .ok => 0b00
  | .transportFailure => 0b01
  | .validationFailure => 0b10
  | .identificationMismatch => 0b11

/-- The command ends with this response, and the command index advances (spec R21). -/
def State.answer (s : State) (r : Response) : State := { s with response := some r, index := s.index + 1 }

/-- `respond(v)`: the command ends with `OK` and result `v` (spec R11). -/
def State.respond (s : State) (v : Value) : State := s.answer { status := .ok, result := v }

/-- `raise E`: the command ends with status `E` and no result (spec R11, R156). -/
def State.raise (s : State) (e : Status) : State := s.answer { status := e, result := .none }

/-- The command issues transport operations only while the link is open (spec R57, R120, R142). -/
def State.ifLinkOpen (s : State) (t : State) : Host.Outcome State Fault Refusal :=
  if s.linkOpen then .next t else .refused .linkClosed

end Sys2Proof.Machine
end

