-- ==== Sys2Proof/Machine/BitSlice.lean ====
section
/-! DEFINITION. EXTRACT and INSERT (spec 40_bitslice.md). -/

namespace Sys2Proof.Machine

/-- EXTRACT (spec R90). -/
def execExtract (off w : Nat) (x : Word) (s : State) : Host.Outcome State Fault Refusal :=
  if sliceFits off w then .next (s.respond (.word (extractBits x off w))) else .refused (.decode .sliceOutOfRange)

/-- INSERT (spec R91). -/
def execInsert (off w : Nat) (x r : Word) (s : State) : Host.Outcome State Fault Refusal :=
  if sliceFits off w then .next (s.respond (.word (insertBits x off w r))) else .refused (.decode .sliceOutOfRange)

end Sys2Proof.Machine
end

