-- ==== Sys2Proof/Machine/DeviceControl.lean ====
section
/-! DEFINITION. BRINGUP and RESET (spec 43_device_control.md). -/

namespace Sys2Proof.Machine

/-- The reset write: one masked write of 1 to the reset bit (spec R142, D17). -/
def State.resetWrite (s : State) : Bool × State := s.writeBits s.cfg.resetAddr .one 1 s.cfg.resetBit 1

/-- The reset write answered: no poll for completion (spec R142, R143). -/
def State.triggerReset (s : State) : State :=
  match s.resetWrite with
  | (false, t) => t.raise .transportFailure
  | (true, t) => t.respond .none

/-- Steps 2 to 4 of bring-up, once the link is open (spec R140). -/
def State.identify (s : State) : State :=
  match s.readBits s.cfg.partIdAddr .one s.cfg.partIdWidth s.cfg.partIdOffset with
  | (none, t) => t.raise .transportFailure
  | (some p, t) => if p.toNat = s.cfg.partIdExpected then t.triggerReset else t.raise .identificationMismatch

/-- Bring-up from its first step (spec R140, R145). -/
def State.bringUp (s : State) (busAddr : Byte) (h : Handle) : State :=
  match s.openLink busAddr h with
  | (false, t) => t.raise .transportFailure
  | (true, t) => t.identify

/-- BRINGUP (spec R140): the link need not be open. -/
def execBringup (busAddr : Byte) (h : Handle) (s : State) : Host.Outcome State Fault Refusal :=
  .next (s.bringUp busAddr h)

/-- RESET (spec R142). -/
def execReset (s : State) : Host.Outcome State Fault Refusal := s.ifLinkOpen s.triggerReset

end Sys2Proof.Machine
end

