-- ==== Sys2Proof/Machine/Quantize.lean ====
section
/-! DEFINITION. The quantizer and dequantizer and the shape codecs (spec R100 to R109), in the three arithmetic modes of
spec R112. -/

namespace Sys2Proof.Machine

/-! ## Truncation and clamp -/

/-- Rounds a rational toward zero (spec R102). -/
def trunc (x : Rat) : Int := if 0 ≤ x then x.floor else x.ceil

/-- `clamp(q, lo, hi)` (spec R10). -/
def clamp (q lo hi : Int) : Int := min (max q lo) hi

/-- The largest raw value of a `w`-bit field. -/
def rawMax (w : Nat) : Nat := 2 ^ w - 1

/-- The last step of every encode function (spec R103): the clamp to `[0, 2^w - 1]`. -/
def clampRaw (w : Nat) (q : Int) : Nat := (clamp q 0 (rawMax w)).toNat

/-! ## EXACT mode -/

/-- `deq(d, raw)` over the rationals (spec R100). -/
def deqExact (p : LinearParams) (raw : Nat) : Rat := (raw : Rat) * p.step + p.base

/-- `qnt(d, v)` over the rationals (spec R101): truncation, not rounding to nearest (conflict C1). -/
def qntExact (p : LinearParams) (w : Nat) (v : Rat) : Nat := clampRaw w (trunc ((v - p.base) / p.step))

/-- `validLin(d, v)` over the rationals (spec R104): a closed interval. -/
def validExact (p : LinearParams) (v : Rat) : Bool := decide (p.minPhys ≤ v) && decide (v ≤ p.maxPhys)

/-! ## IEEE 754 arithmetic, round to nearest even (spec R112, K1; PRESUMED, log entry 5) -/

/-- A binary format: its precision, the exponent of the unit in the last place of its smallest numbers, and the
exponent of the unit in the last place of its largest. -/
structure FloatFormat where
  prec   : Nat
  minExp : Int
  maxExp : Int
  deriving DecidableEq, Repr

/-- IEEE 754 binary64. -/
def binary64 : FloatFormat := { prec := 53, minExp := -1074, maxExp := 971 }

/-- IEEE 754 binary32. -/
def binary32 : FloatFormat := { prec := 24, minExp := -149, maxExp := 104 }

/-- A result of IEEE arithmetic. No sum, difference, product or quotient spec R112 forms divides by a negative zero, so
zero has no sign here. -/
inductive Fp where
  | fin (q : Rat)
  | inf (neg : Bool)
  | nan
  deriving DecidableEq, Repr

/-- Two to an integer power. -/
def pow2 : Int → Rat
  | .ofNat n => ((2 ^ n : Nat) : Rat)
  | .negSucc n => mkRat 1 (2 ^ (n + 1))

/-- The integer part of the binary logarithm of a positive rational. -/
def ilog2 (a : Rat) : Int :=
  let k : Int := (Nat.log2 a.num.natAbs : Int) - (Nat.log2 a.den : Int)
  if pow2 k ≤ a then k else k - 1

/-- The nearest integer, ties to even. -/
def roundEven (x : Rat) : Int :=
  let f := x.floor
  let r := x - f
  if r < mkRat 1 2 then f else if mkRat 1 2 < r then f + 1 else if f % 2 = 0 then f else f + 1

/-- The largest finite number of a format. -/
def FloatFormat.largest (F : FloatFormat) : Rat := ((2 ^ F.prec - 1 : Nat) : Rat) * pow2 F.maxExp

/-- `fl(x)`: the rounding of a rational into the format, an infinity where it overflows. -/
def fl (F : FloatFormat) (x : Rat) : Fp :=
  if x = 0 then .fin 0
  else
    let e := max (ilog2 (if x < 0 then -x else x) - ((F.prec : Int) - 1)) F.minExp
    let y := (roundEven (x / pow2 e) : Rat) * pow2 e
    if F.largest < (if y < 0 then -y else y) then .inf (decide (y < 0)) else .fin y

/-- `fl(a + b)`. -/
def Fp.add (F : FloatFormat) : Fp → Fp → Fp
  | .fin a, .fin b => fl F (a + b)
  | .nan, _ => .nan
  | _, .nan => .nan
  | .inf s, .inf t => if s = t then .inf s else .nan
  | .inf s, .fin _ => .inf s
  | .fin _, .inf t => .inf t

/-- `-a`. -/
def Fp.neg : Fp → Fp
  | .fin a => .fin (-a)
  | .inf s => .inf (!s)
  | .nan => .nan

/-- `fl(a - b)`. -/
def Fp.sub (F : FloatFormat) (a b : Fp) : Fp := Fp.add F a b.neg

/-- `fl(n * b)` for a raw value `n` and a step rounded into the format, which is no negative number. -/
def Fp.mulNat (F : FloatFormat) (n : Nat) : Fp → Fp
  | .fin b => fl F ((n : Rat) * b)
  | .inf s => if n = 0 then .nan else .inf s
  | .nan => .nan

/-- `fl(a / b)` for a step `b` rounded into the format, which is no negative number. -/
def Fp.div (F : FloatFormat) : Fp → Fp → Fp
  | .fin a, .fin b => if b = 0 then (if a = 0 then .nan else .inf (decide (a < 0))) else fl F (a / b)
  | .nan, _ => .nan
  | _, .nan => .nan
  | .inf _, .inf _ => .nan
  | .inf s, .fin _ => .inf s
  | .fin _, .inf _ => .fin 0

/-- `a ≤ b` on IEEE numbers; false where either is no number. -/
def Fp.le : Fp → Fp → Bool
  | .fin a, .fin b => decide (a ≤ b)
  | .nan, _ => false
  | _, .nan => false
  | .inf s, .inf t => s || !t
  | .inf s, .fin _ => s
  | .fin _, .inf t => !t

/-- `clamp(trunc(x), 0, 2^w - 1)` of an IEEE number: an infinity clamps to its end of the range, and where there is no
number the quotient is free (log entry 6). -/
def Fp.toRaw (w : Nat) (unstated : Rat) : Fp → Nat
  | .fin q => clampRaw w (trunc q)
  | .inf true => 0
  | .inf false => rawMax w
  | .nan => clampRaw w (trunc unstated)

/-- The physical value of an IEEE number; where it is no finite number the value is free (log entry 6). -/
def Fp.toPhysical (unstated : Rat) : Fp → Rat
  | .fin q => q
  | .inf _ => unstated
  | .nan => unstated

/-- `qnt_F(d, v)` (spec R112). -/
def qntFloat (F : FloatFormat) (m : Arith) (p : LinearParams) (w : Nat) (v : Rat) : Nat :=
  (Fp.div F (Fp.sub F (fl F v) (fl F p.base)) (fl F p.step)).toRaw w (Config.freeQuotient m p v)

/-- `deq_F(d, raw)` (spec R112). -/
def deqFloat (F : FloatFormat) (m : Arith) (p : LinearParams) (raw : Nat) : Rat :=
  (Fp.add F (Fp.mulNat F raw (fl F p.step)) (fl F p.base)).toPhysical (Config.freePhysical m p raw)

/-- `validLin_F(d, v)` (spec R112). -/
def validFloat (F : FloatFormat) (p : LinearParams) (v : Rat) : Bool :=
  (fl F p.minPhys).le (fl F v) && (fl F v).le (fl F p.maxPhys)

/-- The operand has a finite value `V = fl(v)` (spec R112: otherwise SET and QUANT are refused). -/
def finiteFloat (F : FloatFormat) (v : Rat) : Bool :=
  match fl F v with
  | .fin _ => true
  | .inf _ => false
  | .nan => false

/-! ## The linear codec in the configured mode -/

/-- `qnt(d, v)` (spec R101, R112). -/
def qnt (m : Arith) (p : LinearParams) (w : Nat) (v : Rat) : Nat :=
  match m with
  | .exact => qntExact p w v
  | .binary64 => qntFloat Sys2Proof.Machine.binary64 m p w v
  | .binary32 => qntFloat Sys2Proof.Machine.binary32 m p w v

/-- `deq(d, raw)` (spec R100, R112). -/
def deq (m : Arith) (p : LinearParams) (raw : Nat) : Rat :=
  match m with
  | .exact => deqExact p raw
  | .binary64 => deqFloat Sys2Proof.Machine.binary64 m p raw
  | .binary32 => deqFloat Sys2Proof.Machine.binary32 m p raw

/-- `validLin(d, v)` (spec R104, R112). -/
def validLin (m : Arith) (p : LinearParams) (v : Rat) : Bool :=
  match m with
  | .exact => validExact p v
  | .binary64 => validFloat Sys2Proof.Machine.binary64 p v
  | .binary32 => validFloat Sys2Proof.Machine.binary32 p v

/-- The mode gives the operand a meaning: always in EXACT mode (spec R112). -/
def operandFinite (m : Arith) (v : Rat) : Bool :=
  match m with
  | .exact => true
  | .binary64 => finiteFloat Sys2Proof.Machine.binary64 v
  | .binary32 => finiteFloat Sys2Proof.Machine.binary32 v

/-! ## The enumerated and boolean codecs -/

/-- `validEnum(d, n)` (spec R105). -/
def validEnum (maxOrd n : Nat) : Bool := decide (n ≤ maxOrd)

/-- `encEnum(d, n)` (spec R106). -/
def encEnum (w n : Nat) : Nat := clampRaw w n

/-- `decEnum(d, raw)` (spec R107): the raw number, above `maxOrd` too (D14). -/
def decEnum (raw : Nat) : Nat := raw

/-- `encBool(d, b)` (spec R108), with the clamp of spec R103 to its one bit. -/
def encBool (inverted b : Bool) : Nat := clampRaw 1 (if Bool.xor b inverted then 1 else 0)

/-- `decBool(d, raw)` (spec R109). -/
def decBool (inverted : Bool) (raw : Nat) : Bool := Bool.xor (decide (raw = 1)) inverted

end Sys2Proof.Machine
end

