-- ==== Sys2Proof/Machine/FieldAccess.lean ====
section
/-! DEFINITION. GET and SET (spec 42_field_access.md). -/

namespace Sys2Proof.Machine

/-- One `ReadBits` of a `w`-bit slice of the field's registers, answered by the decoded raw value (spec R121 to R123). -/
def State.getField (s : State) (d : Descriptor) (w : Nat) (decoded : Nat → Value) : State :=
  match s.readBits d.addr d.bw w d.off with
  | (none, t) => t.raise .transportFailure
  | (some r, t) => t.respond (decoded r.toNat)

/-- One `WriteBits` of the raw value, answered with no result (spec R124 to R126). Where the field lies over the reset bit,
as D29 lets a table have it, this is the reset write of spec R142 too. -/
def State.setField (s : State) (d : Descriptor) (w raw : Nat) : State :=
  match s.writeBits d.addr d.bw w d.off (BitVec.ofNat 16 raw) with
  | (false, t) => t.raise .transportFailure
  | (true, t) => t.respond .none

/-- GET.LIN (spec R121). -/
def execGetLin (f : Byte) (s : State) : Host.Outcome State Fault Refusal :=
  match s.linearField f with
  | .error e => .refused (.decode e)
  | .ok (d, p) => s.ifLinkOpen (s.getField d d.w fun raw => .phys (deq s.cfg.arith p raw))

/-- GET.ENUM (spec R122). -/
def execGetEnum (f : Byte) (s : State) : Host.Outcome State Fault Refusal :=
  match s.enumField f with
  | .error e => .refused (.decode e)
  | .ok (d, _) => s.ifLinkOpen (s.getField d d.w fun raw => .ord (decEnum raw))

/-- GET.BOOL (spec R123). -/
def execGetBool (f : Byte) (s : State) : Host.Outcome State Fault Refusal :=
  match s.boolField f with
  | .error e => .refused (.decode e)
  | .ok (d, inverted) => s.ifLinkOpen (s.getField d 1 fun raw => .flag (decBool inverted raw))

/-- SET.LIN (spec R124): validation comes before the link check (spec R120, R155).
DEDUCED: an operand with no finite value is refused before both (log entry 14). -/
def execSetLin (f : Byte) (v : Rat) (s : State) : Host.Outcome State Fault Refusal :=
  match s.linearField f with
  | .error e => .refused (.decode e)
  | .ok (d, p) =>
    if operandFinite s.cfg.arith v then
      if validLin s.cfg.arith p v then s.ifLinkOpen (s.setField d d.w (qnt s.cfg.arith p d.w v))
      else .next (s.raise .validationFailure)
    else .refused .nonFiniteOperand

/-- SET.ENUM (spec R125). -/
def execSetEnum (f : Byte) (n : Nat) (s : State) : Host.Outcome State Fault Refusal :=
  match s.enumField f with
  | .error e => .refused (.decode e)
  | .ok (d, maxOrd) =>
    if validEnum maxOrd n then s.ifLinkOpen (s.setField d d.w (encEnum d.w n)) else .next (s.raise .validationFailure)

/-- SET.BOOL (spec R126): every boolean is valid. -/
def execSetBool (f : Byte) (b : Bool) (s : State) : Host.Outcome State Fault Refusal :=
  match s.boolField f with
  | .error e => .refused (.decode e)
  | .ok (d, inverted) => s.ifLinkOpen (s.setField d 1 (encBool inverted b))

end Sys2Proof.Machine
end

