-- ==== Sys2Proof/Machine/Quantizer.lean ====
section
/-! DEFINITION. DEQUANT and QUANT (spec 41_quantizer.md section 4). -/

namespace Sys2Proof.Machine

/-- DEQUANT (spec R110). -/
def execDequant (f : Byte) (raw : Word) (s : State) : Host.Outcome State Fault Refusal :=
  match s.linearField f with
  | .error e => .refused (.decode e)
  | .ok (d, p) =>
    if raw.toNat < 2 ^ d.w then .next (s.respond (.phys (deq s.cfg.arith p raw.toNat)))
    else .refused (.decode .operandKind)

/-- QUANT (spec R111): no validation against the field's range. -/
def execQuant (f : Byte) (v : Rat) (s : State) : Host.Outcome State Fault Refusal :=
  match s.linearField f with
  | .error e => .refused (.decode e)
  | .ok (d, p) =>
    if operandFinite s.cfg.arith v then .next (s.respond (.word (BitVec.ofNat 16 (qnt s.cfg.arith p d.w v))))
    else .refused .nonFiniteOperand

end Sys2Proof.Machine
end

