-- ==== Sys2Proof/Machine/Dispatch.lean ====
section
/-! DEFINITION. The meaning of every instruction, one arm per constructor. -/

namespace Sys2Proof.Machine

def exec (i : Instr) (s : State) : Host.Outcome State Fault Refusal :=
  match i with
  | .getLin f => Sys2Proof.Machine.execGetLin f s
  | .getEnum f => Sys2Proof.Machine.execGetEnum f s
  | .getBool f => Sys2Proof.Machine.execGetBool f s
  | .setLin f v => Sys2Proof.Machine.execSetLin f v s
  | .setEnum f n => Sys2Proof.Machine.execSetEnum f n s
  | .setBool f b => Sys2Proof.Machine.execSetBool f b s
  | .bringup busAddr h => Sys2Proof.Machine.execBringup busAddr h s
  | .reset => Sys2Proof.Machine.execReset s
  | .extract off w x => Sys2Proof.Machine.execExtract off w x s
  | .insert off w x r => Sys2Proof.Machine.execInsert off w x r s
  | .dequant f raw => Sys2Proof.Machine.execDequant f raw s
  | .quant f v => Sys2Proof.Machine.execQuant f v s

end Sys2Proof.Machine
end

