-- ==== Sys2Proof/Machine/Step.lean ====
section
/-! DEFINITION. One step is one command (spec R7); and the state with a given command word as its next request. -/

namespace Sys2Proof.Machine

/-- One step: the next request runs, or is refused; with no request waiting the block waits (spec R7, R12, R170;
log entry 7). -/
def step (s : State) : Host.Outcome State Fault Refusal :=
  match s.fetch with
  | .idle => .next s
  | .refused r => .refused r
  | .run i t => exec i t

/-- The state whose next request has the bits `w`, with zero operands of the kinds the command takes (log entry 10).
A command is one 16-bit word, so `nbits` is 16 and bits above it are none. -/
def State.withFetchWord (s : State) (_nbits w : Nat) : State :=
  s.withNext (withZeroOperands s.cfg (BitVec.ofNat 16 w))

end Sys2Proof.Machine
end

