-- ==== Sys2Proof/Safety.lean ====
section
/-! DEFINITION. The terms claims are stated in: the invariant of the machine, the premises about the environment, the value
of a register and of a field read as numbers, and what a command leaves unchanged. -/

namespace Sys2Proof.Machine

/-! ## The invariant -/

/-- The register file is in its canonical form and lists no address above `REG_ADDR_LIMIT` (spec R38). -/
def State.regsOk (s : State) : Bool := s.regs.wf s.unlisted s.cfg.regAddrLimit.toNat

/-- A response with a failure status carries no result (spec R77). -/
def Response.honest (r : Response) : Bool := decide (r.status = .ok) || decide (r.result = .none)

/-- What every step keeps: a well-formed configuration (spec R31), a canonical register file (spec R38), a response whose
failure has no result (spec R77), and a trace of at most three operations (spec R140). -/
structure State.Inv (s : State) : Prop where
  config   : s.cfg.wf = true
  regs     : s.regsOk = true
  response : ∀ r, s.response = some r → r.honest = true
  trace    : s.trace.length ≤ 3

/-! ## Premises about the environment -/

/-- From here on the device is the quiescent reference device (spec 10_state.md section 5), and no reset is running. -/
structure State.Quiescent (s : State) : Prop where
  script    : s.script = []
  env       : s.env = .quiescent
  resetting : s.resetting = false

/-- The draw that the bus phase after the next `k` ones gets: neither the device nor the codec changes it. -/
def State.drawAt (s : State) : Nat → Draw
  | 0 => s.nextDraw
  | k + 1 => s.afterDraw.drawAt k

/-- Events that change nothing while the device runs no reset: at most the end of a reset. -/
def IdleEvents (es : List DeviceEvent) : Prop := ∀ e ∈ es, e = .resetEnds

/-- The device does nothing on its own in this draw, before the phase or after it. -/
def Idle (d : Draw) : Prop := IdleEvents d.before ∧ IdleEvents d.after

/-- The sub-field of the part-identification register is the expected part number (spec R140, R171; log entry 12). -/
def State.rightPart (s : State) : Bool :=
  decide ((s.peek s.cfg.partIdAddr.toNat).toNat / 2 ^ s.cfg.partIdOffset % 2 ^ s.cfg.partIdWidth = s.cfg.partIdExpected)

/-! ## Registers and fields as numbers -/

/-- The bytes an access of width `n` at `a` addresses. -/
def addressed (a : Byte) (n : ByteWidth) (k : Nat) : Prop := a.toNat ≤ k ∧ k < a.toNat + n.bytes

/-- The big-endian value of the registers at `a` (spec R52, R59). -/
def State.regValue (s : State) (a : Byte) (n : ByteWidth) : Nat :=
  match n with
  | .one => (s.peek a.toNat).toNat
  | .two => 256 * (s.peek a.toNat).toNat + (s.peek (a.toNat + 1)).toNat

/-- Bits `[off, off + w)` of a number (spec R90). -/
def sliceOf (v off w : Nat) : Nat := v / 2 ^ off % 2 ^ w

/-- The raw value in a field's bits. -/
def State.fieldRaw (s : State) (d : Descriptor) : Nat := sliceOf (s.regValue d.addr d.bw) d.off d.w

/-- Where the reset bit lies in the value of the registers at `a`, one of which is `RESET_ADDR` (spec R59). -/
def resetBitOf (cfg : Config) (a : Byte) (n : ByteWidth) : Nat :=
  cfg.resetBit + 8 * (a.toNat + n.bytes - 1 - cfg.resetAddr.toNat)

/-- A SET that writes `raw` into the field `d` leaves a 1 in the reset bit: the field's registers hold that bit, and it gets a
1 from the raw value or, where it lies beside the field, is 1 and is written back. D29 lets a table have such a field; the
device then takes the SET's write as a reset write (DEDUCED: log entry 4). -/
def State.SetsResetBit (s : State) (d : Descriptor) (raw : Nat) : Prop :=
  addressed d.addr d.bw s.cfg.resetAddr.toNat ∧
    (if d.off ≤ resetBitOf s.cfg d.addr d.bw ∧ resetBitOf s.cfg d.addr d.bw < d.off + d.w then
      raw.testBit (resetBitOf s.cfg d.addr d.bw - d.off)
    else (s.regValue d.addr d.bw).testBit (resetBitOf s.cfg d.addr d.bw)) = true

/-- The device at its power-on state (spec R144, R171, R172): every register with a specified power-on value holds it, the
reset register in every bit but the reset bit, which is 0; and no reset runs. -/
structure State.AtDefaults (s : State) : Prop where
  specified     : ∀ a b, s.cfg.por.lookup a = some b → a ≠ s.cfg.resetAddr.toNat → s.peek a = b
  resetRegister : ∀ b, s.cfg.por.lookup s.cfg.resetAddr.toNat = some b → ∀ k, k < 8 → k ≠ s.cfg.resetBit →
    (s.peek s.cfg.resetAddr.toNat).getLsbD k = b.getLsbD k
  resetBit      : (s.peek s.cfg.resetAddr.toNat).getLsbD s.cfg.resetBit = false
  ended         : s.resetting = false

/-- A BINARY mode and its format (spec R112). -/
def BinaryMode (m : Arith) (F : FloatFormat) : Prop := (m = .binary64 ∧ F = binary64) ∨ (m = .binary32 ∧ F = binary32)

/-- Field `f` is LINEAR, with descriptor `d` and constants `p`. -/
def LinearAt (cfg : Config) (f : Byte) (d : Descriptor) (p : LinearParams) : Prop :=
  cfg.fields[f.toNat]? = some d ∧ d.shape = .linear p

/-- Field `f` is ENUM, with descriptor `d` and largest ordinal `maxOrd`. -/
def EnumAt (cfg : Config) (f : Byte) (d : Descriptor) (maxOrd : Nat) : Prop :=
  cfg.fields[f.toNat]? = some d ∧ d.shape = .enum maxOrd

/-- Field `f` is BOOL, with descriptor `d` and polarity `inverted`. -/
def BoolAt (cfg : Config) (f : Byte) (d : Descriptor) (inverted : Bool) : Prop :=
  cfg.fields[f.toNat]? = some d ∧ d.shape = .bool inverted

/-- `k` is the raw value that EXACT mode quantizes `v` to (spec R101, R102): 0 below the first step, the largest raw value
from the last step on, and between them the step `v` lies in. -/
structure Quantized (p : LinearParams) (w : Nat) (v : Rat) (k : Nat) : Prop where
  fits   : k ≤ 2 ^ w - 1
  below  : v < p.base + p.step → k = 0
  above  : p.base + ((2 ^ w - 1 : Nat) : Rat) * p.step ≤ v → k = 2 ^ w - 1
  within : p.base ≤ v → v < p.base + ((2 ^ w : Nat) : Rat) * p.step →
    p.base + (k : Rat) * p.step ≤ v ∧ v < p.base + ((k : Rat) + 1) * p.step

/-- `i` is a GET of the field `d`, and `decoded` its decode rule (spec R121 to R123). -/
def Gets (cfg : Config) (i : Instr) (d : Descriptor) (decoded : Nat → Value) : Prop :=
  match i with
  | .getLin f => ∃ p, LinearAt cfg f d p ∧ decoded = fun raw => .phys (deq cfg.arith p raw)
  | .getEnum f => ∃ maxOrd, EnumAt cfg f d maxOrd ∧ decoded = fun raw => .ord raw
  | .getBool f => ∃ inverted, BoolAt cfg f d inverted ∧ decoded = fun raw => .flag (decide (raw = 1) != inverted)
  | .setLin _ _ | .setEnum _ _ | .setBool _ _ | .bringup _ _ | .reset | .extract _ _ _ | .insert _ _ _ _ | .dequant _ _
  | .quant _ _ => False

/-- `i` is a SET of the field `d` with a valid value, and `raw` is what it writes (spec R124 to R126). -/
def Sets (cfg : Config) (i : Instr) (d : Descriptor) (raw : Nat) : Prop :=
  match i with
  | .setLin f v =>
    ∃ p, LinearAt cfg f d p ∧ operandFinite cfg.arith v = true ∧ validLin cfg.arith p v = true ∧
      raw = qnt cfg.arith p d.w v
  | .setEnum f n => ∃ maxOrd, EnumAt cfg f d maxOrd ∧ n ≤ maxOrd ∧ raw = n
  | .setBool f b => ∃ inverted, BoolAt cfg f d inverted ∧ raw = if b = inverted then 0 else 1
  | .getLin _ | .getEnum _ | .getBool _ | .bringup _ _ | .reset | .extract _ _ _ | .insert _ _ _ _ | .dequant _ _
  | .quant _ _ => False

/-! ## Frames -/

/-- What no command changes (spec R20, R24): the configuration and the requests still to come; and the index it advances. -/
structure State.CommandFrame (s t : State) : Prop where
  cfg    : t.cfg = s.cfg
  stream : t.stream = s.stream
  index  : t.index = s.index + 1

/-- Every register outside `[a, a + n)` reads as before. -/
def State.SameOutside (s t : State) (a : Byte) (n : ByteWidth) : Prop :=
  ∀ k, ¬ addressed a n k → t.peek k = s.peek k

/-- Every register reads as before. -/
def State.SameRegs (s t : State) : Prop := ∀ k, t.peek k = s.peek k

/-- The field holds `raw`, and no other bit of its registers and no other register has changed (spec R129). -/
structure State.Wrote (s t : State) (d : Descriptor) (raw : Nat) : Prop where
  field  : t.fieldRaw d = raw
  beside : ∀ k, k < 8 * d.bw.bytes → (k < d.off ∨ d.off + d.w ≤ k) →
    (t.regValue d.addr d.bw).testBit k = (s.regValue d.addr d.bw).testBit k
  others : s.SameOutside t d.addr d.bw

/-- A transport entry that reports failure. -/
def TraceEntry.failed : TraceEntry → Bool
  | .opened _ _ ok => !ok
  | .readBits _ _ _ _ answer => answer.isNone
  | .writeBits _ _ _ _ _ ok => !ok

end Sys2Proof.Machine
end

