-- ==== Sys2Proof/Certificates/Slice0/Obligations.lean ====
section
/-! DEFINITION. The statements for the provers, from the spec's numbered rules. A `next` conclusion gives the response, the
trace, the registers and the frame; draws are the oracles' (log entry 3). -/

open Sys2Proof Sys2Proof.Machine

/-! ## Encoding and decoding -/

/-- Every well-formed instruction decodes from its own encoding (spec R71 to R79). -/
def Obligations.DecodeOfEncodeIsTheInstruction : Prop :=
  ∀ (cfg : Config) (i : Instr), i.wf cfg = true → decode cfg (encode i) = .ok i

/-- What the decoder gives is well formed, and its encoding has the command word it was decoded from (spec R82). -/
def Obligations.DecodedInstructionIsWellFormed : Prop :=
  ∀ (cfg : Config) (r : Request) (i : Instr), decode cfg r = .ok i → i.wf cfg = true ∧ (encode i).cmd = r.cmd

/-- Words written out from the encodings of spec R90, R91, R110, R111, R121 to R126, R140 and R142, on the fixture (log entry 1). -/
def Obligations.SpecWordsDecodeOnFixture : Prop :=
  decode .fixture ⟨0x1000, .none, .none⟩ = .ok (.getLin 0) ∧
  decode .fixture ⟨0x1003, .none, .none⟩ = .ok (.getEnum 3) ∧
  decode .fixture ⟨0x1004, .none, .none⟩ = .ok (.getBool 4) ∧
  decode .fixture ⟨0x2000, .phys 5, .none⟩ = .ok (.setLin 0 5) ∧
  decode .fixture ⟨0x2003, .ord 2, .none⟩ = .ok (.setEnum 3 2) ∧
  decode .fixture ⟨0x2004, .flag true, .none⟩ = .ok (.setBool 4 true) ∧
  decode .fixture ⟨0x306B, .handle 1, .none⟩ = .ok (.bringup 0x6B 1) ∧
  decode .fixture ⟨0x4000, .none, .none⟩ = .ok .reset ∧
  decode .fixture ⟨0x804B, .word 0xABCD, .none⟩ = .ok (.extract 4 12 0xABCD) ∧
  decode .fixture ⟨0x9022, .word 0x00FF, .word 0⟩ = .ok (.insert 2 3 0x00FF 0) ∧
  decode .fixture ⟨0xA000, .word 10, .none⟩ = .ok (.dequant 0 10) ∧
  decode .fixture ⟨0xB001, .phys 3, .none⟩ = .ok (.quant 1 3)

/-- A request with a reserved opcode is refused, and so is not answered (spec R80). -/
def Obligations.ReservedOpcodeIsRefused : Prop :=
  ∀ (s : State) (r : Request) (rest : List Request), s.cfg.wf = true → s.stream = r :: rest →
    r.cmd.toNat / 4096 ∈ [0x0, 0x5, 0x6, 0x7, 0xC, 0xD, 0xE, 0xF] →
    ∃ e, step s = .refused (.decode e) ∧ (r.cmd.toNat / 256 % 16 = 0 → e = .reservedOpcode)

/-- A request with `RSV` not zero, and a RESET with `ARG` not zero, are refused (spec R81). -/
def Obligations.ReservedBitsAreRefused : Prop :=
  ∀ (s : State) (r : Request) (rest : List Request), s.cfg.wf = true → s.stream = r :: rest →
    (r.cmd.toNat / 256 % 16 ≠ 0 → step s = .refused (.decode .reservedBits)) ∧
    (r.cmd.toNat / 256 = 0x40 → r.cmd.toNat % 256 ≠ 0 → step s = .refused (.decode .reservedBits))

/-- GET, SET, DEQUANT and QUANT are refused for their index exactly where it is no index of the table (spec R73). -/
def Obligations.FieldIndexIsChecked : Prop :=
  ∀ (cfg : Config) (r : Request), r.cmd.toNat / 256 ∈ [0x10, 0x20, 0xA0, 0xB0] →
    (decode cfg r = .error .badFieldIndex ↔ cfg.fields.length ≤ r.cmd.toNat % 256)

/-- The shape of the addressed descriptor selects the variant; DEQUANT and QUANT need LINEAR (spec R79). -/
def Obligations.ShapeSelectsTheVariant : Prop :=
  ∀ (cfg : Config) (r : Request) (d : Descriptor), cfg.fields[r.cmd.toNat % 256]? = some d →
    (r.cmd.toNat / 256 = 0x10 →
      (d.isLinear = true → decode cfg r = .ok (.getLin (BitVec.ofNat 8 (r.cmd.toNat % 256)))) ∧
      (d.isEnum = true → decode cfg r = .ok (.getEnum (BitVec.ofNat 8 (r.cmd.toNat % 256)))) ∧
      (d.isBool = true → decode cfg r = .ok (.getBool (BitVec.ofNat 8 (r.cmd.toNat % 256))))) ∧
    (r.cmd.toNat / 256 = 0x20 →
      (∀ v, d.isLinear = true → r.a = .phys v → decode cfg r = .ok (.setLin (BitVec.ofNat 8 (r.cmd.toNat % 256)) v)) ∧
      (∀ n, d.isEnum = true → r.a = .ord n → decode cfg r = .ok (.setEnum (BitVec.ofNat 8 (r.cmd.toNat % 256)) n)) ∧
      (∀ b, d.isBool = true → r.a = .flag b → decode cfg r = .ok (.setBool (BitVec.ofNat 8 (r.cmd.toNat % 256)) b))) ∧
    (r.cmd.toNat / 256 = 0xA0 ∨ r.cmd.toNat / 256 = 0xB0 → d.isLinear = false →
      decode cfg r = .error .shapeMismatch)

/-- A used operand of the wrong kind is refused, and only that (spec R76); a DEQUANT raw value must fit its field (D23). -/
def Obligations.OperandKindIsChecked : Prop :=
  ∀ (cfg : Config) (r : Request),
    (∀ d, cfg.fields[r.cmd.toNat % 256]? = some d →
      (r.cmd.toNat / 256 = 0x20 → (decode cfg r = .error .operandKind ↔
        ¬ ((d.isLinear = true ∧ ∃ v, r.a = .phys v) ∨ (d.isEnum = true ∧ ∃ n, r.a = .ord n) ∨
          (d.isBool = true ∧ ∃ b, r.a = .flag b)))) ∧
      (r.cmd.toNat / 256 = 0xA0 → d.isLinear = true →
        (decode cfg r = .error .operandKind ↔ ¬ ∃ x, r.a = .word x ∧ x.toNat < 2 ^ d.w)) ∧
      (r.cmd.toNat / 256 = 0xB0 → d.isLinear = true → (decode cfg r = .error .operandKind ↔ ¬ ∃ v, r.a = .phys v))) ∧
    (r.cmd.toNat / 256 = 0x30 → (decode cfg r = .error .operandKind ↔ ¬ ∃ h, r.a = .handle h)) ∧
    (r.cmd.toNat / 16 % 16 + (r.cmd.toNat % 16 + 1) ≤ 16 →
      (r.cmd.toNat / 256 = 0x80 → (decode cfg r = .error .operandKind ↔ ¬ ∃ x, r.a = .word x)) ∧
      (r.cmd.toNat / 256 = 0x90 →
        (decode cfg r = .error .operandKind ↔ ¬ ((∃ x, r.a = .word x) ∧ ∃ v, r.b = .word v))))

/-- EXTRACT and INSERT take `OFF = CMD[7:4]` and `W = CMD[3:0] + 1`, and are refused where `OFF + W > 16`, whatever their
operands (spec R74). -/
def Obligations.SliceOperandsAreDecoded : Prop :=
  ∀ (cfg : Config) (r : Request),
    (r.cmd.toNat / 256 = 0x80 ∨ r.cmd.toNat / 256 = 0x90 → 16 < r.cmd.toNat / 16 % 16 + (r.cmd.toNat % 16 + 1) →
      decode cfg r = .error .sliceOutOfRange) ∧
    (r.cmd.toNat / 16 % 16 + (r.cmd.toNat % 16 + 1) ≤ 16 → ∀ x v : Word, r.a = .word x →
      (r.cmd.toNat / 256 = 0x80 → decode cfg r = .ok (.extract (r.cmd.toNat / 16 % 16) (r.cmd.toNat % 16 + 1) x)) ∧
      (r.cmd.toNat / 256 = 0x90 → r.b = .word v →
        decode cfg r = .ok (.insert (r.cmd.toNat / 16 % 16) (r.cmd.toNat % 16 + 1) x v)))

/-- The assembler forms of spec R85 encode what the encoder does, for every operand that `ARG` can carry, a slice the decoder
refuses among them (vector BS6); and a field may be written by its name, which stands for the first descriptor that has it
(DESIGN CHOICE: log entry 18). -/
def Obligations.AssemblerFormsMatchTheEncoder : Prop :=
  ∀ cfg : Config,
    (∀ (f : Byte) (v : Rat) (n : Nat) (b : Bool) (busAddr : Byte) (h : Handle) (off w : Nat) (x r : Word),
      assemble cfg (.get (.index f)) = some (encode (.getLin f)) ∧
      assemble cfg (.set (.index f) (.phys v)) = some (encode (.setLin f v)) ∧
      assemble cfg (.set (.index f) (.ord n)) = some (encode (.setEnum f n)) ∧
      assemble cfg (.set (.index f) (.flag b)) = some (encode (.setBool f b)) ∧
      assemble cfg (.bringup (some busAddr) h) = some (encode (.bringup busAddr h)) ∧
      assemble cfg (.bringup none h) = some (encode (.bringup cfg.defaultBusAddr h)) ∧
      assemble cfg .reset = some (encode .reset) ∧
      (off < 16 → 1 ≤ w → w ≤ 16 → assemble cfg (.extract off w x) = some (encode (.extract off w x))) ∧
      (off < 16 → 1 ≤ w → w ≤ 16 → assemble cfg (.insert off w x r) = some (encode (.insert off w x r))) ∧
      assemble cfg (.dequant (.index f) x) = some (encode (.dequant f x)) ∧
      assemble cfg (.quant (.index f) v) = some (encode (.quant f v))) ∧
    ∀ (k : Nat) (d : Descriptor), cfg.fields[k]? = some d →
      (∀ j e, j < k → cfg.fields[j]? = some e → e.name ≠ d.name) →
      assemble cfg (.get (.name d.name)) = assemble cfg (.get (.index (BitVec.ofNat 8 k))) ∧
      (∀ v, assemble cfg (.set (.name d.name) v) = assemble cfg (.set (.index (BitVec.ofNat 8 k)) v)) ∧
      (∀ x, assemble cfg (.dequant (.name d.name) x) = assemble cfg (.dequant (.index (BitVec.ofNat 8 k)) x)) ∧
      ∀ v, assemble cfg (.quant (.name d.name) v) = assemble cfg (.quant (.index (BitVec.ofNat 8 k)) v)

/-! ## The step -/

/-- A step runs the decoded instruction, on the state with the request taken and the response and trace cleared. That
accepting a request clears them is the model's choice (DESIGN CHOICE: log entry 16). -/
def Obligations.StepRunsTheDecodedInstruction : Prop :=
  ∀ (s : State) (r : Request) (rest : List Request) (i : Instr), s.cfg.wf = true → s.stream = r :: rest →
    decode s.cfg r = .ok i → step s = exec i { s with stream := rest, response := none, trace := [] }

/-- The checks of spec R27 to R31, and R8's bounds on the number of fields (log entry 8): a configuration that fails one is
refused before any command runs, and one that passes all is not. -/
def Obligations.IllFormedConfigurationIsRefused : Prop :=
  ∀ s : State, step s = .refused .illFormedConfig ↔
    ¬ (1 ≤ s.cfg.fields.length ∧ s.cfg.fields.length ≤ 256 ∧
      (∀ d ∈ s.cfg.fields, 1 ≤ d.w ∧ d.off + d.w ≤ 8 * d.bw.bytes ∧
        d.addr.toNat + d.bw.bytes - 1 ≤ s.cfg.regAddrLimit.toNat ∧
        (∀ inverted, d.shape = .bool inverted → d.w = 1) ∧
        (∀ maxOrd, d.shape = .enum maxOrd → maxOrd ≤ 2 ^ d.w - 1) ∧
        (∀ p, d.shape = .linear p → 0 < p.step ∧ p.minPhys ≤ p.maxPhys)) ∧
      s.cfg.partIdAddr.toNat ≤ s.cfg.regAddrLimit.toNat ∧ s.cfg.partIdOffset + s.cfg.partIdWidth ≤ 8 ∧
      s.cfg.partIdExpected < 2 ^ s.cfg.partIdWidth ∧
      s.cfg.resetAddr.toNat ≤ s.cfg.regAddrLimit.toNat ∧ s.cfg.resetBit ≤ 7)

/-! ## The bit-slice unit -/

/-- EXTRACT answers bits `[off, off + w)` of its word and changes nothing else (spec R90). -/
def Obligations.ExtractCompletes : Prop :=
  ∀ (s : State) (off w : Nat) (x : Word), 1 ≤ w → off + w ≤ 16 →
    ∃ y : Word, y.toNat = x.toNat / 2 ^ off % 2 ^ w ∧
      exec (.extract off w x) s = .next { s with response := some ⟨.ok, .word y⟩, index := s.index + 1 }

/-- INSERT answers its word with bits `[off, off + w)` replaced by the raw value's low bits, and changes nothing else (spec
R91). -/
def Obligations.InsertCompletes : Prop :=
  ∀ (s : State) (off w : Nat) (x r : Word), 1 ≤ w → off + w ≤ 16 →
    ∃ y : Word, (∀ k, k < 16 → y.getLsbD k = if off ≤ k ∧ k < off + w then r.getLsbD (k - off) else x.getLsbD k) ∧
      exec (.insert off w x r) s = .next { s with response := some ⟨.ok, .word y⟩, index := s.index + 1 }

/-- The laws of the bit-slice unit (spec R92): (a) read back, (b) isolation, (c) rewriting, (d) width. -/
def Obligations.BitSliceUnitLaws : Prop :=
  ∀ (x r : Word) (off w : Nat), off + w ≤ 16 →
    (extractBits (insertBits x off w r) off w).toNat = r.toNat % 2 ^ w ∧
    (∀ k, k < 16 → (k < off ∨ off + w ≤ k) → (insertBits x off w r).getLsbD k = x.getLsbD k) ∧
    insertBits x off w (extractBits x off w) = x ∧
    (∀ n, x.toNat < 2 ^ (8 * n) → off + w ≤ 8 * n → (insertBits x off w r).toNat < 2 ^ (8 * n))

/-- The field mask has exactly the bits of the slice, so two fields of one register have no bit in common exactly where the
AND of their masks is zero (spec R93). -/
def Obligations.FieldMaskIsTheSlice : Prop :=
  ∀ d e : Descriptor, d.off + d.w ≤ 16 → e.off + e.w ≤ 16 →
    (∀ k, k < 16 → ((fmask d).getLsbD k = true ↔ d.off ≤ k ∧ k < d.off + d.w)) ∧
    (fmask d &&& fmask e = 0 ↔ ¬ ∃ k, (d.off ≤ k ∧ k < d.off + d.w) ∧ (e.off ≤ k ∧ k < e.off + e.w))

/-! ## The quantizer -/

/-- DEQUANT answers `raw * step + base` in EXACT mode and `deq` of the configured mode in all, and changes nothing else
(spec R100, R110). -/
def Obligations.DequantCompletes : Prop :=
  ∀ (s : State) (f : Byte) (raw : Word) (d : Descriptor) (p : LinearParams),
    LinearAt s.cfg f d p → raw.toNat < 2 ^ d.w →
    ∃ q : Rat, q = deq s.cfg.arith p raw.toNat ∧ (s.cfg.arith = .exact → q = (raw.toNat : Rat) * p.step + p.base) ∧
      exec (.dequant f raw) s = .next { s with response := some ⟨.ok, .phys q⟩, index := s.index + 1 }

/-- QUANT answers the quantized operand whether or not it lies in the field's range, and changes nothing else (spec R101,
R111); in every mode its raw value fits the field (spec R103). -/
def Obligations.QuantCompletes : Prop :=
  ∀ (s : State) (f : Byte) (v : Rat) (d : Descriptor) (p : LinearParams),
    s.cfg.wf = true → LinearAt s.cfg f d p → operandFinite s.cfg.arith v = true →
    ∃ y : Word, y.toNat = qnt s.cfg.arith p d.w v ∧ y.toNat < 2 ^ d.w ∧
      (s.cfg.arith = .exact → Quantized p d.w v y.toNat) ∧
      exec (.quant f v) s = .next { s with response := some ⟨.ok, .word y⟩, index := s.index + 1 }

/-- Truncation is toward zero, and an operand below the first step quantizes to 0 (spec R102). -/
def Obligations.TruncationIsTowardZero : Prop :=
  (∀ x : Rat, (0 ≤ x → trunc x = ⌊x⌋) ∧ (x < 0 → trunc x = ⌈x⌉)) ∧
  ∀ (p : LinearParams) (w : Nat) (v : Rat), 0 < p.step → v < p.base + p.step → qnt .exact p w v = 0

/-- Every encode function of every shape and mode ends in the clamp to the field's width (spec R103). -/
def Obligations.EncodersClampToTheWidth : Prop :=
  (∀ (m : Arith) (p : LinearParams) (w : Nat) (v : Rat), qnt m p w v ≤ 2 ^ w - 1) ∧
  (∀ w n : Nat, encEnum w n = min n (2 ^ w - 1)) ∧
  ∀ inverted b : Bool, encBool inverted b ≤ 1

/-- Saturation (spec R114). -/
def Obligations.QuantizerSaturates : Prop :=
  ∀ (p : LinearParams) (w : Nat) (v : Rat), 0 < p.step → 1 ≤ w →
    (qnt .exact p w v = 2 ^ w - 1 ↔ p.base + ((2 ^ w - 1 : Nat) : Rat) * p.step ≤ v) ∧
    (qnt .exact p w v = 0 ↔ v < p.base + p.step)

/-- The round-trip bound (spec R113). -/
def Obligations.RoundTripIsWithinOneStep : Prop :=
  ∀ (p : LinearParams) (w : Nat) (v : Rat), 0 < p.step → p.base ≤ v → v < p.base + ((2 ^ w : Nat) : Rat) * p.step →
    deq .exact p (qnt .exact p w v) ≤ v ∧ v < deq .exact p (qnt .exact p w v) + p.step

/-- The quantizer is monotone, and exact on the grid (spec R115). -/
def Obligations.QuantizerIsMonotoneAndExactOnTheGrid : Prop :=
  ∀ (p : LinearParams) (w : Nat), 0 < p.step →
    (∀ v v' : Rat, v ≤ v' → qnt .exact p w v ≤ qnt .exact p w v') ∧
    (∀ raw : Nat, raw < 2 ^ w → qnt .exact p w (deq .exact p raw) = raw)

/-- Where every intermediate result is a finite number, the BINARY64 and BINARY32 modes are the formulas of spec R112 on rounded
constants and results (`fl` is the model's reading of IEEE 754: log entry 5). -/
def Obligations.BinaryModeFollowsItsFormulas : Prop :=
  ∀ (m : Arith) (F : FloatFormat) (p : LinearParams) (w raw : Nat) (v V B S D Q P R : Rat), BinaryMode m F →
    fl F v = .fin V → fl F p.base = .fin B → fl F p.step = .fin S → S ≠ 0 →
    fl F (V - B) = .fin D → fl F (D / S) = .fin Q →
    fl F ((raw : Rat) * S) = .fin P → fl F (P + B) = .fin R →
    qnt m p w v = (clamp (trunc Q) 0 (2 ^ w - 1)).toNat ∧ deq m p raw = R

/-- In the BINARY64 and BINARY32 modes SET.LIN validates the rounded operand against the rounded bounds: outside them it
answers ValidationFailure and changes nothing, and inside them it goes on to the link check (spec R112, R124; log entry 5). -/
def Obligations.BinaryModeValidatesRoundedNumbers : Prop :=
  ∀ (s : State) (F : FloatFormat) (f : Byte) (v V LO HI : Rat) (d : Descriptor) (p : LinearParams), LinearAt s.cfg f d p →
    BinaryMode s.cfg.arith F → fl F v = .fin V → fl F p.minPhys = .fin LO → fl F p.maxPhys = .fin HI →
    (V < LO ∨ HI < V → exec (.setLin f v) s =
      .next { s with response := some ⟨.validationFailure, .none⟩, index := s.index + 1 }) ∧
    (LO ≤ V → V ≤ HI → s.linkOpen = false → exec (.setLin f v) s = .refused .linkClosed)

/-- Rounding into a format gives a nearest number of the format, and where another number is as near, one with an even
significand (spec R112: round to nearest even, K1; log entry 5). -/
def Obligations.RoundingIsToANearestNumber : Prop :=
  ∀ (F : FloatFormat) (x y : Rat), 1 ≤ F.prec → F.minExp ≤ F.maxExp → fl F x = .fin y →
    (∃ (m e : Int), -2 ^ F.prec < m ∧ m < 2 ^ F.prec ∧ F.minExp ≤ e ∧ e ≤ F.maxExp ∧ y = (m : Rat) * (2 : Rat) ^ e) ∧
    ∀ (m e : Int), -2 ^ F.prec < m → m < 2 ^ F.prec → F.minExp ≤ e → e ≤ F.maxExp →
      |x - y| ≤ |x - (m : Rat) * (2 : Rat) ^ e| ∧
      (2 ≤ F.prec → y ≠ (m : Rat) * (2 : Rat) ^ e → |x - y| = |x - (m : Rat) * (2 : Rat) ^ e| →
        ∃ (m' e' : Int), m' % 2 = 0 ∧ -2 ^ F.prec < m' ∧ m' < 2 ^ F.prec ∧ F.minExp ≤ e' ∧ e' ≤ F.maxExp ∧
          y = (m' : Rat) * (2 : Rat) ^ e')

/-- In the BINARY64 and BINARY32 modes QUANT and SET.LIN are refused for their operand exactly where it rounds to an infinity:
where its magnitude is at least halfway from the largest number of the format to the next power of two (spec R112; log
entries 5, 14). -/
def Obligations.NonFiniteOperandIsRefused : Prop :=
  ∀ (s : State) (f : Byte) (v T : Rat) (d : Descriptor) (p : LinearParams), LinearAt s.cfg f d p →
    (s.cfg.arith = .binary64 ∧ T = 2 ^ (1024 : Nat) - 2 ^ (970 : Nat)) ∨
      (s.cfg.arith = .binary32 ∧ T = 2 ^ (128 : Nat) - 2 ^ (103 : Nat)) →
    (exec (.quant f v) s = .refused .nonFiniteOperand ↔ v ≤ -T ∨ T ≤ v) ∧
    (exec (.setLin f v) s = .refused .nonFiniteOperand ↔ v ≤ -T ∨ T ≤ v)

/-! ## The transport -/

/-- A read answers the slice of the big-endian register value its phase finds, where the phase completes and the bytes
exist, and fails otherwise; the codec's side changes no register (spec R52, R54, R58, R59). -/
def Obligations.ReadBitsAnswersTheSlice : Prop :=
  ∀ (s : State) (a : Byte) (n : ByteWidth) (w off : Nat), off + w ≤ 8 * n.bytes →
    (a.toNat + n.bytes - 1 ≤ s.cfg.regAddrLimit.toNat → s.nextDraw.ok = true →
      ∃ r : Word, (s.readBits a n w off).1 = some r ∧ r.toNat = s.atPhase.regValue a n / 2 ^ off % 2 ^ w) ∧
    (s.cfg.regAddrLimit.toNat < a.toNat + n.bytes - 1 ∨ s.nextDraw.ok = false → (s.readBits a n w off).1 = none) ∧
    ∀ k, (s.readBits a n w off).2.peek k = (s.atPhase.device s.nextDraw.after).peek k

/-- A write that completes stores its bytes big-endian and nothing else, and starts a device reset exactly where it leaves a 1
in the reset bit; one that fails changes at most the bytes it addressed and starts none; one to an address that does not
exist changes nothing (spec R40, R53, R58, R59; that the device takes every such write as a reset write is the model's
reading: log entry 4; the draws' form is the model's: log entries 3, 21). -/
def Obligations.MemWriteStoresBigEndian : Prop :=
  ∀ (s : State) (a : Byte) (n : ByteWidth) (v : Word), s.regsOk = true → s.nextDraw.after = [] →
    (a.toNat + n.bytes - 1 ≤ s.cfg.regAddrLimit.toNat → s.nextDraw.ok = true →
      (s.memWrite a n v).1 = true ∧
      (n = .one → ((s.memWrite a n v).2.peek a.toNat).toNat = v.toNat % 256) ∧
      (n = .two → ((s.memWrite a n v).2.peek a.toNat).toNat = v.toNat / 256 ∧
        ((s.memWrite a n v).2.peek (a.toNat + 1)).toNat = v.toNat % 256) ∧
      (s.cfg.resetBit ≤ 7 → ((s.memWrite a n v).2.resetting = true ↔ s.atPhase.resetting = true ∨
        (addressed a n s.cfg.resetAddr.toNat ∧
          ((s.memWrite a n v).2.peek s.cfg.resetAddr.toNat).getLsbD s.cfg.resetBit = true)))) ∧
    (s.cfg.regAddrLimit.toNat < a.toNat + n.bytes - 1 ∨ s.nextDraw.ok = false →
      (s.memWrite a n v).1 = false ∧ (s.memWrite a n v).2.resetting = s.atPhase.resetting) ∧
    s.atPhase.SameOutside (s.memWrite a n v).2 a n ∧
    (s.cfg.regAddrLimit.toNat < a.toNat + n.bytes - 1 → s.atPhase.SameRegs (s.memWrite a n v).2)

/-- A masked write is a read and then a write, and what the device changes between them outside the slice is overwritten by
the value the read found (spec R55, R177; the draws' form is the model's: log entry 3). -/
def Obligations.MaskedWriteLosesUpdatesBetweenItsPhases : Prop :=
  ∀ (s : State) (a : Byte) (n : ByteWidth) (w off : Nat) (raw : Word), s.regsOk = true → off + w ≤ 8 * n.bytes →
    a.toNat + n.bytes - 1 ≤ s.cfg.regAddrLimit.toNat →
    ((s.drawAt 0).ok = false → (s.writeBits a n w off raw).1 = false ∧
      ∀ k, (s.writeBits a n w off raw).2.peek k = (s.atPhase.device s.nextDraw.after).peek k) ∧
    ((s.drawAt 0).ok = true → (s.drawAt 1).ok = true → (s.drawAt 1).after = [] →
      (s.writeBits a n w off raw).1 = true ∧
      ∀ k, k < 8 * n.bytes → ((s.writeBits a n w off raw).2.regValue a n).testBit k =
        if off ≤ k ∧ k < off + w then raw.toNat.testBit (k - off) else (s.atPhase.regValue a n).testBit k)

/-- `Open` sets the link flag to its outcome, whatever it was, and adds its entry (spec R56). -/
def Obligations.OpenSetsTheLinkFlag : Prop :=
  ∀ (s : State) (busAddr : Byte) (h : Handle),
    (s.openLink busAddr h).1 = s.nextDraw.ok ∧ (s.openLink busAddr h).2.linkOpen = s.nextDraw.ok ∧
    (s.openLink busAddr h).2.trace = s.trace ++ [.opened busAddr h s.nextDraw.ok] ∧
    ∀ k, (s.openLink busAddr h).2.peek k = (s.atPhase.device s.nextDraw.after).peek k

/-! ## GET -/

/-- GET.LIN on an open link, its read completing: one `ReadBits`, the physical value of the field's bits, and nothing else
changed by the codec (spec R121, R100). -/
def Obligations.GetLinCompletes : Prop :=
  ∀ (s : State) (f : Byte) (d : Descriptor) (p : LinearParams), s.cfg.wf = true → LinearAt s.cfg f d p →
    s.linkOpen = true → s.nextDraw.ok = true →
    ∃ (t : State) (q : Rat), exec (.getLin f) s = .next t ∧ t.response = some ⟨.ok, .phys q⟩ ∧
      q = deq s.cfg.arith p (s.atPhase.fieldRaw d) ∧
      (s.cfg.arith = .exact → q = (s.atPhase.fieldRaw d : Rat) * p.step + p.base) ∧
      t.trace = s.trace ++ [.readBits d.addr d.bw d.w d.off (some (BitVec.ofNat 16 (s.atPhase.fieldRaw d)))] ∧
      s.CommandFrame t ∧ t.linkOpen = true ∧ (∀ k, t.peek k = (s.atPhase.device s.nextDraw.after).peek k) ∧
      (s.resetting = false → Idle s.nextDraw → s.SameRegs t ∧ t.resetting = false)

/-- GET.ENUM on an open link, its read completing: the raw number as the ordinal, above the largest defined one too (spec
R122, R107). -/
def Obligations.GetEnumCompletes : Prop :=
  ∀ (s : State) (f : Byte) (d : Descriptor) (maxOrd : Nat), s.cfg.wf = true → EnumAt s.cfg f d maxOrd →
    s.linkOpen = true → s.nextDraw.ok = true →
    ∃ t : State, exec (.getEnum f) s = .next t ∧ t.response = some ⟨.ok, .ord (s.atPhase.fieldRaw d)⟩ ∧
      t.trace = s.trace ++ [.readBits d.addr d.bw d.w d.off (some (BitVec.ofNat 16 (s.atPhase.fieldRaw d)))] ∧
      s.CommandFrame t ∧ t.linkOpen = true ∧ (∀ k, t.peek k = (s.atPhase.device s.nextDraw.after).peek k) ∧
      (s.resetting = false → Idle s.nextDraw → s.SameRegs t ∧ t.resetting = false)

/-- GET.BOOL on an open link, its read completing: whether the field's bit is 1, inverted for an inverted field (spec R123,
R109). -/
def Obligations.GetBoolCompletes : Prop :=
  ∀ (s : State) (f : Byte) (d : Descriptor) (inverted : Bool), s.cfg.wf = true → BoolAt s.cfg f d inverted →
    s.linkOpen = true → s.nextDraw.ok = true →
    ∃ t : State, exec (.getBool f) s = .next t ∧
      t.response = some ⟨.ok, .flag (decide (s.atPhase.fieldRaw d = 1) != inverted)⟩ ∧
      t.trace = s.trace ++ [.readBits d.addr d.bw 1 d.off (some (BitVec.ofNat 16 (s.atPhase.fieldRaw d)))] ∧
      s.CommandFrame t ∧ t.linkOpen = true ∧ (∀ k, t.peek k = (s.atPhase.device s.nextDraw.after).peek k) ∧
      (s.resetting = false → Idle s.nextDraw → s.SameRegs t ∧ t.resetting = false)

/-- A GET whose read fails answers TransportFailure and no result (spec R121 to R123, R151). -/
def Obligations.GetReportsTransportFailure : Prop :=
  ∀ (s : State) (i : Instr) (d : Descriptor) (decoded : Nat → Value), Gets s.cfg i d decoded →
    s.linkOpen = true → s.nextDraw.ok = false →
    ∃ t : State, exec i s = .next t ∧ t.response = some ⟨.transportFailure, .none⟩ ∧
      (∃ w, t.trace = s.trace ++ [.readBits d.addr d.bw w d.off none]) ∧ s.CommandFrame t ∧ t.linkOpen = true ∧
      ∀ k, t.peek k = (s.atPhase.device s.nextDraw.after).peek k

/-! ## SET -/

/-- SET.LIN of a valid value on an open link, both phases completing: one `WriteBits` of the quantized value; and where the
device is idle, the field holds that value and no other bit or register changes (spec R124, R101, R129). A SET of a field
that D29 allows can leave a 1 in the reset bit: that it, and no other SET, is a reset write is the model's choice (DEDUCED:
log entry 4, beside R32). While the device has not ended that reset, all this holds and the reset runs; on the quiescent
device the registers are at their power-on values at once. -/
def Obligations.SetLinCompletes : Prop :=
  ∀ (s : State) (f : Byte) (v : Rat) (d : Descriptor) (p : LinearParams), s.cfg.wf = true → s.regsOk = true →
    LinearAt s.cfg f d p → operandFinite s.cfg.arith v = true → validLin s.cfg.arith p v = true → s.linkOpen = true →
    (s.drawAt 0).ok = true → (s.drawAt 1).ok = true →
    ∃ (t : State) (raw : Nat), exec (.setLin f v) s = .next t ∧ t.response = some ⟨.ok, .none⟩ ∧
      raw = qnt s.cfg.arith p d.w v ∧ (s.cfg.arith = .exact → Quantized p d.w v raw) ∧
      t.trace = s.trace ++ [.writeBits d.addr d.bw d.w d.off (BitVec.ofNat 16 raw) true] ∧
      s.CommandFrame t ∧ t.linkOpen = true ∧
      (s.resetting = false → Idle (s.drawAt 0) → Idle (s.drawAt 1) →
        ¬ s.SetsResetBit d raw ∨ (s.drawAt 1).after = [] →
        s.Wrote t d raw ∧ (t.resetting = true ↔ s.SetsResetBit d raw)) ∧
      (s.Quiescent → s.SetsResetBit d raw → t.AtDefaults)

/-- SET.ENUM of a defined ordinal, as SET.LIN: it writes the ordinal (spec R125, R106; of the reset bit: log entry 4). -/
def Obligations.SetEnumCompletes : Prop :=
  ∀ (s : State) (f : Byte) (n : Nat) (d : Descriptor) (maxOrd : Nat), s.cfg.wf = true → s.regsOk = true →
    EnumAt s.cfg f d maxOrd → n ≤ maxOrd → s.linkOpen = true → (s.drawAt 0).ok = true → (s.drawAt 1).ok = true →
    ∃ t : State, exec (.setEnum f n) s = .next t ∧ t.response = some ⟨.ok, .none⟩ ∧
      t.trace = s.trace ++ [.writeBits d.addr d.bw d.w d.off (BitVec.ofNat 16 n) true] ∧
      s.CommandFrame t ∧ t.linkOpen = true ∧
      (s.resetting = false → Idle (s.drawAt 0) → Idle (s.drawAt 1) →
        ¬ s.SetsResetBit d n ∨ (s.drawAt 1).after = [] →
        s.Wrote t d n ∧ (t.resetting = true ↔ s.SetsResetBit d n)) ∧
      (s.Quiescent → s.SetsResetBit d n → t.AtDefaults)

/-- SET.BOOL, as SET.LIN: it writes 1 for `true`, and 0 where the field is inverted (spec R126, R108). A SET of 1 to a
BOOL field that lies on the reset bit is R142's own write (D29; DEDUCED: log entry 4). -/
def Obligations.SetBoolCompletes : Prop :=
  ∀ (s : State) (f : Byte) (b : Bool) (d : Descriptor) (inverted : Bool), s.cfg.wf = true → s.regsOk = true →
    BoolAt s.cfg f d inverted → s.linkOpen = true → (s.drawAt 0).ok = true → (s.drawAt 1).ok = true →
    ∃ (t : State) (raw : Nat), exec (.setBool f b) s = .next t ∧ t.response = some ⟨.ok, .none⟩ ∧
      raw = (if b = inverted then 0 else 1) ∧
      t.trace = s.trace ++ [.writeBits d.addr d.bw 1 d.off (BitVec.ofNat 16 raw) true] ∧
      s.CommandFrame t ∧ t.linkOpen = true ∧
      (s.resetting = false → Idle (s.drawAt 0) → Idle (s.drawAt 1) →
        ¬ s.SetsResetBit d raw ∨ (s.drawAt 1).after = [] →
        s.Wrote t d raw ∧ (t.resetting = true ↔ s.SetsResetBit d raw)) ∧
      (s.Quiescent → s.SetsResetBit d raw → t.AtDefaults)

/-- A SET whose value is outside the field's domain answers ValidationFailure, whatever the link: no transport operation and
no register changed (spec R127). -/
def Obligations.InvalidSetChangesNothing : Prop :=
  ∀ (s : State) (f : Byte) (d : Descriptor),
    (∀ (p : LinearParams) (v : Rat), LinearAt s.cfg f d p → operandFinite s.cfg.arith v = true →
      (s.cfg.arith = .exact → (validLin s.cfg.arith p v = false ↔ v < p.minPhys ∨ p.maxPhys < v)) ∧
      (validLin s.cfg.arith p v = false → exec (.setLin f v) s =
        .next { s with response := some ⟨.validationFailure, .none⟩, index := s.index + 1 })) ∧
    (∀ maxOrd n : Nat, EnumAt s.cfg f d maxOrd → maxOrd < n →
      exec (.setEnum f n) s =
        .next { s with response := some ⟨.validationFailure, .none⟩, index := s.index + 1 })

/-- With the link closed a GET, a SET of a valid value and a RESET are refused, and a SET of an invalid value still answers
ValidationFailure (spec R120, R142). -/
def Obligations.ClosedLinkIsRefused : Prop :=
  ∀ (s : State) (i : Instr) (f : Byte) (d : Descriptor), s.linkOpen = false →
    ((∃ decoded, Gets s.cfg i d decoded) ∨ (∃ raw, Sets s.cfg i d raw) ∨ i = .reset → exec i s = .refused .linkClosed) ∧
    (∀ (p : LinearParams) (v : Rat), LinearAt s.cfg f d p → operandFinite s.cfg.arith v = true →
      validLin s.cfg.arith p v = false →
      ∃ t, exec (.setLin f v) s = .next t ∧ t.response = some ⟨.validationFailure, .none⟩) ∧
    (∀ maxOrd n : Nat, EnumAt s.cfg f d maxOrd → maxOrd < n →
      ∃ t, exec (.setEnum f n) s = .next t ∧ t.response = some ⟨.validationFailure, .none⟩)

/-- A SET that succeeds leaves every bit outside the field as its read phase found it, if the device changes nothing between
the phases, and no other register changed (spec R129). Where the SET leaves a 1 in the reset bit, this is so while the device
has not ended the reset (that it starts one is the model's reading: log entry 4). -/
def Obligations.SetIsolatesItsBits : Prop :=
  ∀ (s t : State) (i : Instr) (d : Descriptor) (raw : Nat), s.cfg.wf = true → s.regsOk = true → s.resetting = false →
    Sets s.cfg i d raw → IdleEvents (s.drawAt 0).after → Idle (s.drawAt 1) →
    ¬ s.atPhase.SetsResetBit d raw ∨ (s.drawAt 1).after = [] →
    exec i s = .next t → t.response = some ⟨.ok, .none⟩ →
    (∀ k, k < 8 * d.bw.bytes → (fmask d).getLsbD k = false →
      (t.regValue d.addr d.bw).testBit k = (s.atPhase.regValue d.addr d.bw).testBit k) ∧
    s.atPhase.SameOutside t d.addr d.bw

/-- On the quiescent device a GET after a SET of the same field gives the value set, quantized where it is LINEAR (spec
R131); after a SET of `true` the raw bit of an inverted field is 0 (spec R130). A SET that leaves a 1 in the reset bit (D29) is
set apart: the device is then at its power-on values (log entry 4), and the GET answers what the field holds there. -/
def Obligations.GetAfterSetGivesTheValueSet : Prop :=
  ∀ (s : State) (f : Byte) (d : Descriptor), s.cfg.wf = true → s.regsOk = true → s.linkOpen = true → s.Quiescent →
    (∀ (p : LinearParams) (v : Rat), LinearAt s.cfg f d p → operandFinite s.cfg.arith v = true →
      validLin s.cfg.arith p v = true →
      ∃ t u, exec (.setLin f v) s = .next t ∧ exec (.getLin f) t = .next u ∧
        u.response = some ⟨.ok, .phys (deq s.cfg.arith p (t.fieldRaw d))⟩ ∧
        (¬ s.SetsResetBit d (qnt s.cfg.arith p d.w v) → t.fieldRaw d = qnt s.cfg.arith p d.w v) ∧
        (s.SetsResetBit d (qnt s.cfg.arith p d.w v) → t.AtDefaults)) ∧
    (∀ maxOrd n : Nat, EnumAt s.cfg f d maxOrd → n ≤ maxOrd →
      ∃ t u, exec (.setEnum f n) s = .next t ∧ exec (.getEnum f) t = .next u ∧
        u.response = some ⟨.ok, .ord (t.fieldRaw d)⟩ ∧
        (¬ s.SetsResetBit d n → t.fieldRaw d = n) ∧ (s.SetsResetBit d n → t.AtDefaults)) ∧
    (∀ inverted b : Bool, BoolAt s.cfg f d inverted →
      ∃ t u, exec (.setBool f b) s = .next t ∧ exec (.getBool f) t = .next u ∧
        u.response = some ⟨.ok, .flag (decide (t.fieldRaw d = 1) != inverted)⟩ ∧
        (¬ s.SetsResetBit d (if b = inverted then 0 else 1) →
          u.response = some ⟨.ok, .flag b⟩ ∧ (inverted = true → b = true → t.fieldRaw d = 0)) ∧
        (s.SetsResetBit d (if b = inverted then 0 else 1) → t.AtDefaults))

/-- A valid SET whose read fails writes nothing; one whose write fails leaves at most the bytes it addressed changed; both
answer TransportFailure (spec R132, R53; the draws' form is the model's: log entries 3, 21). -/
def Obligations.FailedSetTouchesOnlyItsBytes : Prop :=
  ∀ (s : State) (i : Instr) (d : Descriptor) (raw : Nat), s.cfg.wf = true → s.regsOk = true → s.resetting = false →
    s.linkOpen = true → Sets s.cfg i d raw → Idle (s.drawAt 0) →
    ((s.drawAt 0).ok = false → ∃ t, exec i s = .next t ∧ t.response = some ⟨.transportFailure, .none⟩ ∧ s.SameRegs t ∧
      s.CommandFrame t ∧ t.linkOpen = true) ∧
    ((s.drawAt 0).ok = true → (s.drawAt 1).ok = false → Idle (s.drawAt 1) →
      ∃ t, exec i s = .next t ∧ t.response = some ⟨.transportFailure, .none⟩ ∧ s.SameOutside t d.addr d.bw ∧
        s.CommandFrame t ∧ t.linkOpen = true)

/-- A GET issues exactly one `ReadBits`, and a SET of a valid value exactly one `WriteBits`, whatever they answer (spec
R128). -/
def Obligations.AccessorsIssueOneOperation : Prop :=
  ∀ (s t : State) (i : Instr) (d : Descriptor), s.cfg.wf = true → exec i s = .next t →
    ((∃ decoded, Gets s.cfg i d decoded) → ∃ w answer, t.trace = s.trace ++ [.readBits d.addr d.bw w d.off answer]) ∧
    (∀ raw, Sets s.cfg i d raw →
      ∃ w ok, t.trace = s.trace ++ [.writeBits d.addr d.bw w d.off (BitVec.ofNat 16 raw) ok])

/-! ## Device control -/

/-- Bring-up always answers, with one of five traces: no step follows a failure, and the reset is written only after the
part number matched (spec R140, R141). -/
def Obligations.BringupTakesOneOfFivePaths : Prop :=
  ∀ (s : State) (busAddr : Byte) (h : Handle), ∃ (t : State) (ops : List TraceEntry),
    exec (.bringup busAddr h) s = .next t ∧ t.trace = s.trace ++ ops ∧ s.CommandFrame t ∧
    ((ops = [.opened busAddr h false] ∧ t.response = some ⟨.transportFailure, .none⟩ ∧ t.linkOpen = false) ∨
      (t.linkOpen = true ∧ ∃ part : Option Word,
        let first : List TraceEntry :=
          [.opened busAddr h true, .readBits s.cfg.partIdAddr .one s.cfg.partIdWidth s.cfg.partIdOffset part]
        (part = none ∧ ops = first ∧ t.response = some ⟨.transportFailure, .none⟩) ∨
        ∃ p : Word, part = some p ∧
          ((p.toNat ≠ s.cfg.partIdExpected ∧ ops = first ∧ t.response = some ⟨.identificationMismatch, .none⟩) ∨
            (p.toNat = s.cfg.partIdExpected ∧ ∃ ok : Bool,
              ops = first ++ [.writeBits s.cfg.resetAddr .one 1 s.cfg.resetBit 1 ok] ∧
              t.response = if ok then some ⟨.ok, .none⟩ else some ⟨.transportFailure, .none⟩))))

/-- On the quiescent device with the right part, bring-up answers OK, opens the link, and leaves every register with a
specified power-on value at that value, the reset register but for the reset bit, which is 0 (spec R140, R144; the quiescent
draws' form is the model's: log entry 3). -/
def Obligations.BringupCompletesOnTheRightPart : Prop :=
  ∀ (s : State) (busAddr : Byte) (h : Handle), s.cfg.wf = true → s.Quiescent → s.rightPart = true →
    ∃ t : State, exec (.bringup busAddr h) s = .next t ∧ t.response = some ⟨.ok, .none⟩ ∧ t.linkOpen = true ∧
      t.trace = s.trace ++ [.opened busAddr h true,
        .readBits s.cfg.partIdAddr .one s.cfg.partIdWidth s.cfg.partIdOffset (some (BitVec.ofNat 16 s.cfg.partIdExpected)),
        .writeBits s.cfg.resetAddr .one 1 s.cfg.resetBit 1 true] ∧
      s.CommandFrame t ∧ t.AtDefaults

/-- On the quiescent device with the wrong part, bring-up answers IdentificationMismatch, writes nothing, and leaves the
link open; the part number in its trace is the sub-field of the part-identification register (spec R140, R141; the quiescent
draws' form is the model's: log entry 3). -/
def Obligations.BringupRejectsTheWrongPart : Prop :=
  ∀ (s : State) (busAddr : Byte) (h : Handle), s.cfg.wf = true → s.Quiescent → s.rightPart = false →
    ∃ (t : State) (p : Word), exec (.bringup busAddr h) s = .next t ∧
      t.response = some ⟨.identificationMismatch, .none⟩ ∧ t.linkOpen = true ∧
      p.toNat = sliceOf (s.peek s.cfg.partIdAddr.toNat).toNat s.cfg.partIdOffset s.cfg.partIdWidth ∧
      t.trace = s.trace ++ [.opened busAddr h true,
        .readBits s.cfg.partIdAddr .one s.cfg.partIdWidth s.cfg.partIdOffset (some p)] ∧
      s.SameRegs t ∧ s.CommandFrame t ∧ t.resetting = false

/-- RESET on an open link: one masked write of 1 to the reset bit, and no poll; where the device has not yet reacted, the
reset is running, the reset bit is 1, and no other register has changed since the read phase; and on the quiescent device
the registers are at their power-on values at once (spec R142 to R144; the draws' form is the model's: log entries 3, 4). -/
def Obligations.ResetCompletes : Prop :=
  ∀ s : State, s.cfg.wf = true → s.regsOk = true → s.linkOpen = true → (s.drawAt 0).ok = true → (s.drawAt 1).ok = true →
    ∃ t : State, exec .reset s = .next t ∧ t.response = some ⟨.ok, .none⟩ ∧
      t.trace = s.trace ++ [.writeBits s.cfg.resetAddr .one 1 s.cfg.resetBit 1 true] ∧
      s.CommandFrame t ∧ t.linkOpen = true ∧
      ((s.drawAt 0).after = [] → (s.drawAt 1).before = [] → (s.drawAt 1).after = [] →
        t.resetting = true ∧ (t.peek s.cfg.resetAddr.toNat).getLsbD s.cfg.resetBit = true ∧
        (∀ k, k < 8 → k ≠ s.cfg.resetBit →
          (t.peek s.cfg.resetAddr.toNat).getLsbD k = (s.atPhase.peek s.cfg.resetAddr.toNat).getLsbD k) ∧
        ∀ a, a ≠ s.cfg.resetAddr.toNat → t.peek a = s.atPhase.peek a) ∧
      (s.Quiescent → t.AtDefaults)

/-- A RESET whose write fails answers TransportFailure and starts no reset: where its read phase fails the registers are what
the device makes of them, and where its write phase fails no byte but the reset register's changes. The same for step 4
of BRINGUP on the right part (spec R140, R142, R53, R55; vector DC6; that a failed write starts no reset: log entry 4; the draws'
form is the model's: log entries 3, 21). -/
def Obligations.ResetReportsTransportFailure : Prop :=
  (∀ s : State, s.regsOk = true → s.linkOpen = true → ((s.drawAt 0).ok = false ∨ (s.drawAt 1).ok = false) →
    ∃ t : State, exec .reset s = .next t ∧ t.response = some ⟨.transportFailure, .none⟩ ∧
      t.trace = s.trace ++ [.writeBits s.cfg.resetAddr .one 1 s.cfg.resetBit 1 false] ∧ s.CommandFrame t ∧
      t.linkOpen = true ∧ (s.resetting = false → t.resetting = false) ∧
      ((s.drawAt 0).ok = false → ∀ k, t.peek k = (s.atPhase.device s.nextDraw.after).peek k) ∧
      (s.resetting = false → Idle (s.drawAt 0) → Idle (s.drawAt 1) → s.SameOutside t s.cfg.resetAddr .one)) ∧
  ∀ (s : State) (busAddr : Byte) (h : Handle), s.cfg.wf = true → s.regsOk = true → s.resetting = false →
    s.rightPart = true → (∀ k, k < 4 → Idle (s.drawAt k)) → (s.drawAt 0).ok = true → (s.drawAt 1).ok = true →
    ((s.drawAt 2).ok = false ∨ (s.drawAt 3).ok = false) →
    ∃ t : State, exec (.bringup busAddr h) s = .next t ∧ t.response = some ⟨.transportFailure, .none⟩ ∧
      t.trace = s.trace ++ [.opened busAddr h true,
        .readBits s.cfg.partIdAddr .one s.cfg.partIdWidth s.cfg.partIdOffset (some (BitVec.ofNat 16 s.cfg.partIdExpected)),
        .writeBits s.cfg.resetAddr .one 1 s.cfg.resetBit 1 false] ∧
      s.CommandFrame t ∧ t.linkOpen = true ∧ t.resetting = false ∧
      ((s.drawAt 2).ok = false → s.SameRegs t) ∧ s.SameOutside t s.cfg.resetAddr .one

/-- When the device's reset sequence ends, and after a loss of its power, every register with a specified power-on value
holds it, the reset register but for the reset bit, which is 0; where no reset runs its end changes nothing (spec R144, R172;
that the events are such, and that a power loss leaves the link flag, is the model's reading: log entries 3, 11; that one
end ends every reset written before it is the model's choice: log entry 22). -/
def Obligations.DeviceResetRestoresDefaults : Prop :=
  ∀ (s : State) (e : DeviceEvent), s.cfg.resetBit ≤ 7 →
    ((e = .resetEnds ∧ s.resetting = true) ∨ e = .powerLoss →
      (s.applyEvent e).AtDefaults ∧ (s.applyEvent e).cfg = s.cfg ∧ (s.applyEvent e).linkOpen = s.linkOpen) ∧
    (e = .resetEnds → s.resetting = false → s.applyEvent e = s)

/-! ## Reset and the whole machine -/

/-- The start of the model on any configuration: the link closed, index 0, no command issued, and every register with a
specified power-on value at that value, the reset register but for the reset bit, which is 0 (spec R170, R171). That no reset
runs and there is no response yet is the model's reading (DEDUCED: log entry 13). -/
def Obligations.PowerOnStateIsAsStated : Prop :=
  ∀ cfg : Config, cfg.resetBit ≤ 7 →
    (State.powerOn cfg).cfg = cfg ∧ (State.powerOn cfg).linkOpen = false ∧ (State.powerOn cfg).index = 0 ∧
    (State.powerOn cfg).stream = [] ∧ (State.powerOn cfg).response = none ∧ (State.powerOn cfg).AtDefaults

/-- Every step keeps the invariant. -/
def Obligations.StepKeepsInvariant : Prop :=
  ∀ s t : State, s.Inv → step s = .next t → t.Inv

/-- The invariant holds at reset (on the fixture: log entry 1). -/
def Obligations.ResetHasInvariant : Prop := State.reset.Inv

/-- No step changes the descriptor ROM or the configuration constants (spec R24, R66). -/
def Obligations.NoStepChangesTheConfiguration : Prop :=
  ∀ s t : State, step s = .next t → t.cfg = s.cfg

/-- A step that goes on either waits, no request being there, or answers exactly one request with exactly one response and
advances the command index by one (spec R21, R70; that a step waits is log entry 7). -/
def Obligations.OneRequestOneResponse : Prop :=
  ∀ s t : State, step s = .next t →
    (s.stream = [] ∧ t = s) ∨
    ∃ r rest resp, s.stream = r :: rest ∧ t.stream = rest ∧ t.response = some resp ∧ t.index = s.index + 1

/-- The status of a response is a function of the command and the trace (spec R154). -/
def Obligations.StatusIsAFunctionOfTheTrace : Prop :=
  ∀ (s t : State) (r : Request) (rest : List Request), step s = .next t → s.stream = r :: rest →
    ∃ resp, t.response = some resp ∧
      (resp.status = .validationFailure ↔ r.cmd.toNat / 4096 = 2 ∧ resp.status ≠ .ok ∧ t.trace = []) ∧
      (resp.status = .identificationMismatch ↔ r.cmd.toNat / 4096 = 3 ∧ resp.status ≠ .ok ∧
        ∃ a n w off p, t.trace.getLast? = some (.readBits a n w off (some p))) ∧
      (resp.status = .transportFailure ↔ ∃ e, t.trace.getLast? = some e ∧ e.failed = true)

/-- Which commands raise which status, and the codes (spec R150). -/
def Obligations.StatusesAreRaisedAsTabled : Prop :=
  (Status.code .ok = 0#2 ∧ Status.code .transportFailure = 1#2 ∧ Status.code .validationFailure = 2#2 ∧
    Status.code .identificationMismatch = 3#2) ∧
  ∀ (s t : State) (i : Instr), exec i s = .next t →
    ∃ resp, t.response = some resp ∧
      (resp.status = .transportFailure → ∀ off w x r f raw v, i ≠ .extract off w x ∧ i ≠ .insert off w x r ∧
        i ≠ .dequant f raw ∧ i ≠ .quant f v) ∧
      (resp.status = .validationFailure → (∃ f v, i = .setLin f v) ∨ ∃ f n, i = .setEnum f n) ∧
      (resp.status = .identificationMismatch → ∃ busAddr h, i = .bringup busAddr h)

/-- The kind of every result (spec R77). -/
def Obligations.ResultKindsAreAsTabled : Prop :=
  ∀ (s t : State) (i : Instr), exec i s = .next t →
    ∃ resp, t.response = some resp ∧
      (resp.status ≠ .ok → resp.result = .none) ∧
      (resp.status = .ok →
        match i with
        | .getLin _ | .dequant _ _ => ∃ q, resp.result = .phys q
        | .getEnum _ => ∃ n, resp.result = .ord n
        | .getBool _ => ∃ b, resp.result = .flag b
        | .extract _ _ _ | .insert _ _ _ _ | .quant _ _ => ∃ x, resp.result = .word x
        | .setLin _ _ | .setEnum _ _ | .setBool _ _ | .bringup _ _ | .reset => resp.result = .none)

/-- Only BRINGUP changes the link flag (spec R39, R56, R57). -/
def Obligations.OnlyBringupChangesTheLink : Prop :=
  ∀ (s t : State) (r : Request) (rest : List Request), step s = .next t → s.stream = r :: rest →
    r.cmd.toNat / 4096 ≠ 3 → t.linkOpen = s.linkOpen

/-- The codec has no memory: what a command answers, and what it leaves in the device, does not depend on the responses,
the index or the requests of other commands (spec R20, R22). -/
def Obligations.EarlierCommandsDoNotMatter : Prop :=
  ∀ (s t : State) (i : Instr) (j : Nat) (q : List Request) (r : Option Response), exec i s = .next t →
    ∃ u, exec i { s with index := j, stream := q, response := r } = .next u ∧
      u = { t with index := j + 1, stream := q }
end

