-- ==== Sys2Proof/Laws/Bits.lean ====
section
/-! SUPPORT. The bit-slice unit, bit by bit and as arithmetic (spec R90, R91, R93). -/

namespace Sys2Proof.Machine

/-- `mask(w)` has exactly its low `w` bits. -/
@[simp] theorem mask_getLsbD (w k : Nat) : (mask w).getLsbD k = (decide (k < w) && decide (k < 16)) := by
  simp [mask, BitVec.getLsbD_ofNat, Nat.testBit_two_pow_sub_one, Bool.and_comm]

@[simp] theorem mask_getElem (w k : Nat) (hk : k < 16) : (mask w)[k] = decide (k < w) := by
  rw [← BitVec.getLsbD_eq_getElem, mask_getLsbD]
  simp [hk]

/-- Bit `k` of EXTRACT is bit `off + k` of the value, below the slice's width. -/
theorem extractBits_getLsbD (x : Word) (off w k : Nat) :
    (extractBits x off w).getLsbD k = (x.getLsbD (off + k) && (decide (k < w) && decide (k < 16))) := by
  simp [extractBits]

/-- Bit `k` of INSERT is the raw value's inside the slice and the register value's outside it. -/
theorem insertBits_getLsbD (x r : Word) (off w : Nat) {k : Nat} (hk : k < 16) :
    (insertBits x off w r).getLsbD k = if off ≤ k ∧ k < off + w then r.getLsbD (k - off) else x.getLsbD k := by
  have h16 : k - off < 16 := by omega
  by_cases h1 : off ≤ k
  · by_cases h2 : k < off + w
    · have h3 : k - off < w := by omega
      have h4 : ¬ k < off := by omega
      simp [insertBits, hk, h1, h2, h16, h3, h4]
    · have h3 : ¬ k - off < w := by omega
      simp [insertBits, hk, h2, h3]
  · have : k < off := by omega
    simp [insertBits, hk, h1, this]

/-- EXTRACT as arithmetic. -/
theorem extractBits_toNat (x : Word) (off : Nat) {w : Nat} (hw : w ≤ 16) :
    (extractBits x off w).toNat = sliceOf x.toNat off w := by
  have hm : (mask w).toNat = 2 ^ w - 1 := by
    have : 2 ^ w ≤ 2 ^ 16 := Nat.pow_le_pow_right (by omega) hw
    have := Nat.two_pow_pos w
    simp only [mask, BitVec.toNat_ofNat]
    omega
  simp [extractBits, sliceOf, hm, Nat.and_two_pow_sub_one_eq_mod, Nat.shiftRight_eq_div_pow]

/-- The field mask of a descriptor has exactly the bits of its slice. -/
theorem fmask_getLsbD (d : Descriptor) {k : Nat} (hk : k < 16) :
    (fmask d).getLsbD k = decide (d.off ≤ k ∧ k < d.off + d.w) := by
  have h16 : k - d.off < 16 := by omega
  by_cases h1 : d.off ≤ k
  · by_cases h2 : k < d.off + d.w
    · have h3 : k - d.off < d.w := by omega
      simp [fmask, hk, h1, h2, h3]
    · have h3 : ¬ k - d.off < d.w := by omega
      simp [fmask, hk, h2, h3]
  · have : k < d.off := by omega
    simp [fmask, h1, this]

/-- Only the bits of the slice and the low bits of the value matter to a value of fewer bits. -/
theorem insertBits_lt {x : Word} {off w n : Nat} (r : Word) (hx : x.toNat < 2 ^ n) (hn : off + w ≤ n) :
    (insertBits x off w r).toNat < 2 ^ n := by
  by_cases h16 : 16 ≤ n
  · exact lt_of_lt_of_le (insertBits x off w r).isLt (Nat.pow_le_pow_right (by omega) h16)
  · refine Nat.lt_pow_two_of_testBit _ fun i hi => ?_
    rw [← BitVec.getLsbD]
    by_cases hi16 : i < 16
    · rw [insertBits_getLsbD _ _ _ _ hi16, if_neg (by omega), BitVec.getLsbD]
      exact Nat.testBit_lt_two_pow (lt_of_lt_of_le hx (Nat.pow_le_pow_right (by omega) hi))
    · exact BitVec.getLsbD_of_ge _ _ (by omega)

/-- The slice of a value into which a raw value was inserted is that raw value, cut to the slice. -/
theorem extract_insertBits (x r : Word) {off w : Nat} (h : off + w ≤ 16) :
    extractBits (insertBits x off w r) off w = r &&& mask w := by
  refine BitVec.eq_of_getLsbD_eq fun k hk => ?_
  rw [extractBits_getLsbD]
  by_cases hw : k < w
  · rw [insertBits_getLsbD _ _ _ _ (by omega), if_pos (by omega)]
    simp [hw, hk]
  · simp [hw]

end Sys2Proof.Machine
end

