-- ==== Sys2Proof/Laws/Quantize.lean ====
section
/-! SUPPORT. The quantizer in EXACT mode as arithmetic, and the clamps (spec R101 to R109). -/

namespace Sys2Proof.Machine

/-- Truncation of a rational that is not negative. -/
theorem trunc_of_nonneg {x : Rat} (h : 0 ≤ x) : trunc x = ⌊x⌋ := by
  rw [trunc, if_pos h]
  rfl

/-- Truncation of a negative rational is its ceiling. -/
theorem trunc_of_neg {x : Rat} (h : x < 0) : trunc x = ⌈x⌉ := by
  have hf : (-x).floor = ⌊-x⌋ := rfl
  rw [trunc, if_neg (not_le.mpr h), Rat.ceil_eq_neg_floor_neg, hf, Int.floor_neg, neg_neg]

/-- The clamp to a field's width is below it. -/
theorem clampRaw_le (w : Nat) (q : Int) : clampRaw w q ≤ rawMax w := by
  simp only [clampRaw, clamp]
  omega

/-- The clamp of a natural. -/
theorem clampRaw_natCast (w n : Nat) : clampRaw w (n : Int) = min n (rawMax w) := by
  simp only [clampRaw, clamp]
  omega

/-- The clamp of a number that is not positive. -/
theorem clampRaw_of_nonpos (w : Nat) {q : Int} (h : q ≤ 0) : clampRaw w q = 0 := by
  simp only [clampRaw, clamp]
  omega

/-- The EXACT quantizer: 0 below the base, and from it on the whole steps, cut to the field's width. -/
theorem qntExact_eq (p : LinearParams) (w : Nat) (v : Rat) (hs : 0 < p.step) :
    qntExact p w v = if v < p.base then 0 else min ⌊(v - p.base) / p.step⌋.toNat (rawMax w) := by
  unfold qntExact
  split
  · rename_i h
    have hx : (v - p.base) / p.step < 0 := div_neg_of_neg_of_pos (by linarith) hs
    rw [trunc_of_neg hx]
    refine clampRaw_of_nonpos w ?_
    exact Int.ceil_le.mpr (by simpa using hx.le)
  · rename_i h
    have hx : 0 ≤ (v - p.base) / p.step := div_nonneg (by linarith [not_lt.mp h]) hs.le
    rw [trunc_of_nonneg hx]
    conv_lhs => rw [← Int.toNat_of_nonneg (Int.floor_nonneg.mpr hx)]
    exact clampRaw_natCast w _

/-- Every mode's raw value fits the field. -/
theorem qnt_le (m : Arith) (p : LinearParams) (w : Nat) (v : Rat) : qnt m p w v ≤ rawMax w := by
  have hf : ∀ (u : Rat) (x : Fp), x.toRaw w u ≤ rawMax w := fun u x => by
    cases x with
    | fin q => exact clampRaw_le w _
    | inf neg => cases neg <;> simp [Fp.toRaw]
    | nan => exact clampRaw_le w _
  cases m
  · exact clampRaw_le w _
  · exact hf _ _
  · exact hf _ _

/-- An ordinal that fits the field encodes to itself. -/
theorem encEnum_of_le {w n : Nat} (h : n ≤ rawMax w) : encEnum w n = n := by
  rw [encEnum, clampRaw_natCast, min_eq_left h]

/-- A boolean encodes to 0 where it equals the polarity, and to 1 where it does not. -/
theorem encBool_eq (inverted b : Bool) : encBool inverted b = if b = inverted then 0 else 1 := by
  cases inverted <;> cases b <;> rfl

theorem decBool_eq (inverted : Bool) (raw : Nat) : decBool inverted raw = (decide (raw = 1) != inverted) := by
  simp [decBool]

/-! ## IEEE 754 rounding (log entry 5) -/

/-- `pow2` is the integer power. -/
theorem pow2_eq (k : Int) : pow2 k = (2:Rat) ^ k := by
  cases k with
  | ofNat n => simp [pow2]
  | negSucc n => rw [pow2, zpow_negSucc, Rat.mkRat_eq_div]; simp

/-- The binary logarithm of a quotient lies within one of the difference of the logarithms. -/
theorem log2_div {N D : Nat} (hN : N ≠ 0) (hD : D ≠ 0) :
    (2:Rat) ^ ((N.log2 : Int) - D.log2 - 1) ≤ (N : Rat) / D ∧ (N : Rat) / D < (2:Rat) ^ ((N.log2 : Int) - D.log2 + 1) := by
  have n1 : 2 ^ N.log2 ≤ N := Nat.log2_self_le hN
  have n2 : N < 2 ^ (N.log2 + 1) := Nat.lt_log2_self
  have d1 : 2 ^ D.log2 ≤ D := Nat.log2_self_le hD
  have d2 : D < 2 ^ (D.log2 + 1) := Nat.lt_log2_self
  have n1' : (2:Rat) ^ (N.log2 : Int) ≤ N := by rw [zpow_natCast]; exact_mod_cast n1
  have n2' : (N : Rat) < (2:Rat) ^ ((N.log2 : Int) + 1) := by exact_mod_cast n2
  have d1' : (2:Rat) ^ (D.log2 : Int) ≤ D := by rw [zpow_natCast]; exact_mod_cast d1
  have d2' : (D : Rat) < (2:Rat) ^ ((D.log2 : Int) + 1) := by exact_mod_cast d2
  have dp : (0:Rat) < D := by positivity
  constructor
  · rw [le_div_iff₀ dp]
    calc _ ≤ (2:Rat) ^ ((N.log2 : Int) - D.log2 - 1) * (2:Rat) ^ ((D.log2 : Int) + 1) := by
          apply mul_le_mul_of_nonneg_left d2'.le; positivity
      _ = (2:Rat) ^ (N.log2 : Int) := by rw [← zpow_add₀ (by norm_num)]; congr 1; ring
      _ ≤ N := n1'
  · rw [div_lt_iff₀ dp]
    calc (N:Rat) < (2:Rat) ^ ((N.log2 : Int) + 1) := n2'
      _ = (2:Rat) ^ ((N.log2 : Int) - D.log2 + 1) * (2:Rat) ^ (D.log2 : Int) := by
          rw [← zpow_add₀ (by norm_num)]; congr 1; ring
      _ ≤ _ := by apply mul_le_mul_of_nonneg_left d1'; positivity

/-- `ilog2` is the integer part of the binary logarithm. -/
theorem ilog2_spec {a : Rat} (ha : 0 < a) : (2:Rat) ^ ilog2 a ≤ a ∧ a < (2:Rat) ^ (ilog2 a + 1) := by
  have hn : 0 < a.num := Rat.num_pos.mpr ha
  obtain ⟨lo, up⟩ := log2_div (N := a.num.natAbs) (D := a.den) (by omega) a.den_nz
  have e : (a.num.natAbs : Rat) / (a.den : Rat) = a := by
    conv_rhs => rw [← Rat.num_div_den a]
    congr 1
    rw [Nat.cast_natAbs, abs_of_pos hn]
  rw [e] at lo up
  unfold ilog2
  simp only
  rw [pow2_eq]
  split
  · exact ⟨by assumption, up⟩
  · rename_i h
    refine ⟨lo, ?_⟩
    rw [sub_add_cancel]; exact not_le.mp h

/-- No integer is nearer than the one `roundEven` gives. -/
theorem roundEven_spec (x : Rat) (n : Int) : |x - roundEven x| ≤ |x - n| := by
  have h12 : mkRat 1 2 = (1/2 : Rat) := by norm_num [Rat.mkRat_eq_div]
  have f1 : ((x.floor : Int) : Rat) ≤ x := Int.floor_le x
  have f2 : x < (x.floor : Int) + 1 := Int.lt_floor_add_one x
  have key : roundEven x = x.floor ∧ x - x.floor ≤ 1/2 ∨ roundEven x = x.floor + 1 ∧ 1/2 ≤ x - x.floor := by
    unfold roundEven; simp only [h12]
    split
    · left; exact ⟨rfl, by linarith⟩
    · split
      · right; exact ⟨rfl, by linarith⟩
      · have : x - x.floor = 1/2 := by linarith
        split
        · left; exact ⟨rfl, by linarith⟩
        · right; exact ⟨rfl, by linarith⟩
  by_cases hn : n ≤ x.floor
  · have hn' : (n : Rat) ≤ x.floor := by exact_mod_cast hn
    rw [abs_of_nonneg (by linarith : 0 ≤ x - n)]
    rcases key with ⟨k, h⟩ | ⟨k, h⟩ <;> rw [k, abs_le] <;> push_cast <;> constructor <;> linarith
  · have hn' : (x.floor : Rat) + 1 ≤ n := by exact_mod_cast (by omega : x.floor + 1 ≤ n)
    rw [abs_of_nonpos (by linarith : x - n ≤ 0)]
    rcases key with ⟨k, h⟩ | ⟨k, h⟩ <;> rw [k, abs_le] <;> push_cast <;> constructor <;> linarith

/-- Rounding into a format: the significand is rounded at the exponent the format has for the number. -/
theorem fl_eq (F : FloatFormat) {x : Rat} (hx : x ≠ 0) : 
    ∃ E : Int, E = max (ilog2 |x| - ((F.prec : Int) - 1)) F.minExp ∧
    fl F x = (if ((2 ^ F.prec - 1 : Nat) : Rat) * (2:Rat)^F.maxExp < |(roundEven (x / 2^E) : Rat) * 2^E| then .inf (decide ((roundEven (x / 2^E) : Rat) * 2^E < 0)) else .fin ((roundEven (x / 2^E) : Rat) * 2^E)) := by
  have habs : ∀ y : Rat, (if y < 0 then -y else y) = |y| := fun y => by
    split
    · rw [abs_of_neg (by assumption)]
    · rw [abs_of_nonneg (by linarith)]
  refine ⟨_, rfl, ?_⟩
  unfold fl
  rw [if_neg hx]
  simp only [habs, pow2_eq, FloatFormat.largest]

/-- No multiple of a power of two is nearer than the rounded one. -/
theorem roundEven_mul (x : Rat) (E : Int) (n : Int) : |x - (roundEven (x / 2^E) : Rat) * 2^E| ≤ |x - n * (2:Rat)^E| := by
  have hp : (0:Rat) < (2:Rat)^E := by positivity
  have := roundEven_spec (x / 2^E) n
  have e : ∀ c : Rat, x - c * 2^E = (x / 2^E - c) * 2^E := fun c => by field_simp
  rw [e, e, abs_mul, abs_mul]; gcongr

end Sys2Proof.Machine
end

