-- ==== Sys2Proof/Laws/Decode.lean ====
section
/-! SUPPORT. The fields of a command word as arithmetic, and the decoder opcode by opcode (spec R71, R74, R82). -/

namespace Sys2Proof

/-- The command word of an opcode and an argument, as a number. -/
theorem commandWord_toNat (op : BitVec 4) (arg : Byte) : (commandWord op arg).toNat = op.toNat * 4096 + arg.toNat := by
  simp only [commandWord, BitVec.toNat_append, BitVec.toNat_ofNat]
  have := Nat.two_pow_add_eq_or_of_lt arg.isLt (op.toNat * 16)
  simp [Nat.shiftLeft_eq, mul_comm] at *
  omega

theorem Request.op_toNat (r : Request) : r.op.toNat = r.cmd.toNat / 4096 := by
  have := r.cmd.isLt
  simp [Request.op, BitVec.extractLsb'_toNat, Nat.shiftRight_eq_div_pow]
  omega

theorem Request.rsv_toNat (r : Request) : r.rsv.toNat = r.cmd.toNat / 256 % 16 := by
  simp [Request.rsv, BitVec.extractLsb'_toNat, Nat.shiftRight_eq_div_pow]

theorem Request.rsv_eq_zero (r : Request) : r.rsv = 0 ↔ r.cmd.toNat / 256 % 16 = 0 := by
  rw [← Request.rsv_toNat]
  exact ⟨fun h => by simp [h], fun h => BitVec.eq_of_toNat_eq (by simpa using h)⟩

theorem Request.arg_toNat (r : Request) : r.arg.toNat = r.cmd.toNat % 256 := by
  simp [Request.arg, BitVec.extractLsb'_toNat]

theorem Request.sliceOff_eq (r : Request) : r.sliceOff = r.cmd.toNat / 16 % 16 := by
  simp [Request.sliceOff, BitVec.extractLsb'_toNat, Nat.shiftRight_eq_div_pow]

theorem Request.sliceWidth_eq (r : Request) : r.sliceWidth = r.cmd.toNat % 16 + 1 := by
  simp [Request.sliceWidth, BitVec.extractLsb'_toNat]

/-- The argument of a slice command, as a number. -/
theorem sliceArg_toNat {off w : Nat} (h1 : 1 ≤ w) (h : off + w ≤ 16) : (sliceArg off w).toNat = 16 * off + (w - 1) := by
  simp only [sliceArg, BitVec.toNat_append, BitVec.toNat_ofNat]
  have hw : w - 1 < 2 ^ 4 := by omega
  have := Nat.two_pow_add_eq_or_of_lt hw off
  rw [Nat.mod_eq_of_lt hw, Nat.mod_eq_of_lt (by omega : off < 2 ^ 4), Nat.shiftLeft_eq, mul_comm]
  omega

/-- Opcode 0x1 of a request whose reserved bits are zero. -/
theorem decode_get {cfg : Config} {r : Request} (h : r.cmd.toNat / 256 = 0x10) : decode cfg r = decodeGet cfg r := by
  have hr := r.rsv_eq_zero.mpr (by omega)
  have ho : r.op.toNat = 1 := by rw [r.op_toNat]; omega
  simp [decode, hr, ho]

theorem decode_set {cfg : Config} {r : Request} (h : r.cmd.toNat / 256 = 0x20) : decode cfg r = decodeSet cfg r := by
  have hr := r.rsv_eq_zero.mpr (by omega)
  have ho : r.op.toNat = 2 := by rw [r.op_toNat]; omega
  simp [decode, hr, ho]

theorem decode_bringup {cfg : Config} {r : Request} (h : r.cmd.toNat / 256 = 0x30) : decode cfg r = decodeBringup r := by
  have hr := r.rsv_eq_zero.mpr (by omega)
  have ho : r.op.toNat = 3 := by rw [r.op_toNat]; omega
  simp [decode, hr, ho]

theorem decode_reset {cfg : Config} {r : Request} (h : r.cmd.toNat / 256 = 0x40) : decode cfg r = decodeReset r := by
  have hr := r.rsv_eq_zero.mpr (by omega)
  have ho : r.op.toNat = 4 := by rw [r.op_toNat]; omega
  simp [decode, hr, ho]

theorem decode_extract {cfg : Config} {r : Request} (h : r.cmd.toNat / 256 = 0x80) : decode cfg r = decodeExtract r := by
  have hr := r.rsv_eq_zero.mpr (by omega)
  have ho : r.op.toNat = 8 := by rw [r.op_toNat]; omega
  simp [decode, hr, ho]

theorem decode_insert {cfg : Config} {r : Request} (h : r.cmd.toNat / 256 = 0x90) : decode cfg r = decodeInsert r := by
  have hr := r.rsv_eq_zero.mpr (by omega)
  have ho : r.op.toNat = 9 := by rw [r.op_toNat]; omega
  simp [decode, hr, ho]

theorem decode_dequant {cfg : Config} {r : Request} (h : r.cmd.toNat / 256 = 0xA0) : decode cfg r = decodeDequant cfg r := by
  have hr := r.rsv_eq_zero.mpr (by omega)
  have ho : r.op.toNat = 10 := by rw [r.op_toNat]; omega
  simp [decode, hr, ho]

theorem decode_quant {cfg : Config} {r : Request} (h : r.cmd.toNat / 256 = 0xB0) : decode cfg r = decodeQuant cfg r := by
  have hr := r.rsv_eq_zero.mpr (by omega)
  have ho : r.op.toNat = 11 := by rw [r.op_toNat]; omega
  simp [decode, hr, ho]

/-- Every word whose reserved bits are zero has one of the eight opcodes or a reserved one (spec R72, R80). -/
theorem decode_reserved {cfg : Config} {r : Request} (hr : r.cmd.toNat / 256 % 16 = 0)
    (h : r.cmd.toNat / 4096 ∉ [0x1, 0x2, 0x3, 0x4, 0x8, 0x9, 0xA, 0xB]) : decode cfg r = .error .reservedOpcode := by
  have hz := r.rsv_eq_zero.mpr hr
  rw [← r.op_toNat] at h
  simp only [decode, hz, ne_eq, not_true_eq_false, if_false]
  split <;> simp_all

/-- Reserved bits are checked first (spec R81, R82). -/
theorem decode_reservedBits {cfg : Config} {r : Request} (hr : r.cmd.toNat / 256 % 16 ≠ 0) :
    decode cfg r = .error .reservedBits := by
  have hz : r.rsv ≠ 0 := fun h => hr (r.rsv_eq_zero.mp h)
  rw [decode, if_pos hz]

end Sys2Proof
end

