-- ==== Sys2Proof/Laws/State.lean ====
section
/-! SUPPORT. One lemma per field of `State` per named update, each true by `rfl`, and what the updates do to a register. -/

namespace Sys2Proof.Machine

/-! ## toDefaults -/

@[simp] theorem State.toDefaults_cfg (s : State) : (s.toDefaults).cfg = s.cfg := rfl
@[simp] theorem State.toDefaults_regs (s : State) : (s.toDefaults).regs = [] := rfl
@[simp] theorem State.toDefaults_linkOpen (s : State) : (s.toDefaults).linkOpen = s.linkOpen := rfl
@[simp] theorem State.toDefaults_resetting (s : State) : (s.toDefaults).resetting = false := rfl
@[simp] theorem State.toDefaults_index (s : State) : (s.toDefaults).index = s.index := rfl
@[simp] theorem State.toDefaults_stream (s : State) : (s.toDefaults).stream = s.stream := rfl
@[simp] theorem State.toDefaults_response (s : State) : (s.toDefaults).response = s.response := rfl
@[simp] theorem State.toDefaults_trace (s : State) : (s.toDefaults).trace = s.trace := rfl
@[simp] theorem State.toDefaults_script (s : State) : (s.toDefaults).script = s.script := rfl
@[simp] theorem State.toDefaults_env (s : State) : (s.toDefaults).env = s.env := rfl
@[simp] theorem State.toDefaults_epoch (s : State) : (s.toDefaults).epoch = s.epoch + 1 := rfl
@[simp] theorem State.toDefaults_hasReg (s : State) (k : Nat) : (s.toDefaults).hasReg k = s.hasReg k := rfl
@[simp] theorem State.toDefaults_holds (s : State) (a : Byte) (n : ByteWidth) : (s.toDefaults).holds a n = s.holds a n := rfl

/-! ## setLink -/

@[simp] theorem State.setLink_cfg (s : State) (b : Bool) : (s.setLink b).cfg = s.cfg := rfl
@[simp] theorem State.setLink_regs (s : State) (b : Bool) : (s.setLink b).regs = s.regs := rfl
@[simp] theorem State.setLink_linkOpen (s : State) (b : Bool) : (s.setLink b).linkOpen = b := rfl
@[simp] theorem State.setLink_resetting (s : State) (b : Bool) : (s.setLink b).resetting = s.resetting := rfl
@[simp] theorem State.setLink_index (s : State) (b : Bool) : (s.setLink b).index = s.index := rfl
@[simp] theorem State.setLink_stream (s : State) (b : Bool) : (s.setLink b).stream = s.stream := rfl
@[simp] theorem State.setLink_response (s : State) (b : Bool) : (s.setLink b).response = s.response := rfl
@[simp] theorem State.setLink_trace (s : State) (b : Bool) : (s.setLink b).trace = s.trace := rfl
@[simp] theorem State.setLink_script (s : State) (b : Bool) : (s.setLink b).script = s.script := rfl
@[simp] theorem State.setLink_env (s : State) (b : Bool) : (s.setLink b).env = s.env := rfl
@[simp] theorem State.setLink_epoch (s : State) (b : Bool) : (s.setLink b).epoch = s.epoch := rfl
@[simp] theorem State.setLink_unlisted (s : State) (b : Bool) : (s.setLink b).unlisted = s.unlisted := rfl
@[simp] theorem State.setLink_peek (s : State) (b : Bool) (k : Nat) : (s.setLink b).peek k = s.peek k := rfl
@[simp] theorem State.setLink_regsOk (s : State) (b : Bool) : (s.setLink b).regsOk = s.regsOk := rfl
@[simp] theorem State.setLink_hasReg (s : State) (b : Bool) (k : Nat) : (s.setLink b).hasReg k = s.hasReg k := rfl
@[simp] theorem State.setLink_holds (s : State) (b : Bool) (a : Byte) (n : ByteWidth) : (s.setLink b).holds a n = s.holds a n := rfl

/-! ## record -/

@[simp] theorem State.record_cfg (s : State) (e : TraceEntry) : (s.record e).cfg = s.cfg := rfl
@[simp] theorem State.record_regs (s : State) (e : TraceEntry) : (s.record e).regs = s.regs := rfl
@[simp] theorem State.record_linkOpen (s : State) (e : TraceEntry) : (s.record e).linkOpen = s.linkOpen := rfl
@[simp] theorem State.record_resetting (s : State) (e : TraceEntry) : (s.record e).resetting = s.resetting := rfl
@[simp] theorem State.record_index (s : State) (e : TraceEntry) : (s.record e).index = s.index := rfl
@[simp] theorem State.record_stream (s : State) (e : TraceEntry) : (s.record e).stream = s.stream := rfl
@[simp] theorem State.record_response (s : State) (e : TraceEntry) : (s.record e).response = s.response := rfl
@[simp] theorem State.record_trace (s : State) (e : TraceEntry) : (s.record e).trace = s.trace ++ [e] := rfl
@[simp] theorem State.record_script (s : State) (e : TraceEntry) : (s.record e).script = s.script := rfl
@[simp] theorem State.record_env (s : State) (e : TraceEntry) : (s.record e).env = s.env := rfl
@[simp] theorem State.record_epoch (s : State) (e : TraceEntry) : (s.record e).epoch = s.epoch := rfl
@[simp] theorem State.record_unlisted (s : State) (e : TraceEntry) : (s.record e).unlisted = s.unlisted := rfl
@[simp] theorem State.record_peek (s : State) (e : TraceEntry) (k : Nat) : (s.record e).peek k = s.peek k := rfl
@[simp] theorem State.record_regsOk (s : State) (e : TraceEntry) : (s.record e).regsOk = s.regsOk := rfl
@[simp] theorem State.record_hasReg (s : State) (e : TraceEntry) (k : Nat) : (s.record e).hasReg k = s.hasReg k := rfl
@[simp] theorem State.record_holds (s : State) (e : TraceEntry) (a : Byte) (n : ByteWidth) : (s.record e).holds a n = s.holds a n := rfl

/-! ## accept -/

@[simp] theorem State.accept_cfg (s : State) : (s.accept).cfg = s.cfg := rfl
@[simp] theorem State.accept_regs (s : State) : (s.accept).regs = s.regs := rfl
@[simp] theorem State.accept_linkOpen (s : State) : (s.accept).linkOpen = s.linkOpen := rfl
@[simp] theorem State.accept_resetting (s : State) : (s.accept).resetting = s.resetting := rfl
@[simp] theorem State.accept_index (s : State) : (s.accept).index = s.index := rfl
@[simp] theorem State.accept_stream (s : State) : (s.accept).stream = s.stream.tail := rfl
@[simp] theorem State.accept_response (s : State) : (s.accept).response = none := rfl
@[simp] theorem State.accept_trace (s : State) : (s.accept).trace = [] := rfl
@[simp] theorem State.accept_script (s : State) : (s.accept).script = s.script := rfl
@[simp] theorem State.accept_env (s : State) : (s.accept).env = s.env := rfl
@[simp] theorem State.accept_epoch (s : State) : (s.accept).epoch = s.epoch := rfl
@[simp] theorem State.accept_unlisted (s : State) : (s.accept).unlisted = s.unlisted := rfl
@[simp] theorem State.accept_peek (s : State) (k : Nat) : (s.accept).peek k = s.peek k := rfl
@[simp] theorem State.accept_regsOk (s : State) : (s.accept).regsOk = s.regsOk := rfl
@[simp] theorem State.accept_hasReg (s : State) (k : Nat) : (s.accept).hasReg k = s.hasReg k := rfl
@[simp] theorem State.accept_holds (s : State) (a : Byte) (n : ByteWidth) : (s.accept).holds a n = s.holds a n := rfl

/-! ## withNext -/

@[simp] theorem State.withNext_cfg (s : State) (r : Request) : (s.withNext r).cfg = s.cfg := rfl
@[simp] theorem State.withNext_regs (s : State) (r : Request) : (s.withNext r).regs = s.regs := rfl
@[simp] theorem State.withNext_linkOpen (s : State) (r : Request) : (s.withNext r).linkOpen = s.linkOpen := rfl
@[simp] theorem State.withNext_resetting (s : State) (r : Request) : (s.withNext r).resetting = s.resetting := rfl
@[simp] theorem State.withNext_index (s : State) (r : Request) : (s.withNext r).index = s.index := rfl
@[simp] theorem State.withNext_stream (s : State) (r : Request) : (s.withNext r).stream = r :: s.stream.tail := rfl
@[simp] theorem State.withNext_response (s : State) (r : Request) : (s.withNext r).response = s.response := rfl
@[simp] theorem State.withNext_trace (s : State) (r : Request) : (s.withNext r).trace = s.trace := rfl
@[simp] theorem State.withNext_script (s : State) (r : Request) : (s.withNext r).script = s.script := rfl
@[simp] theorem State.withNext_env (s : State) (r : Request) : (s.withNext r).env = s.env := rfl
@[simp] theorem State.withNext_epoch (s : State) (r : Request) : (s.withNext r).epoch = s.epoch := rfl
@[simp] theorem State.withNext_unlisted (s : State) (r : Request) : (s.withNext r).unlisted = s.unlisted := rfl
@[simp] theorem State.withNext_peek (s : State) (r : Request) (k : Nat) : (s.withNext r).peek k = s.peek k := rfl
@[simp] theorem State.withNext_regsOk (s : State) (r : Request) : (s.withNext r).regsOk = s.regsOk := rfl
@[simp] theorem State.withNext_hasReg (s : State) (r : Request) (k : Nat) : (s.withNext r).hasReg k = s.hasReg k := rfl
@[simp] theorem State.withNext_holds (s : State) (r : Request) (a : Byte) (n : ByteWidth) : (s.withNext r).holds a n = s.holds a n := rfl

/-! ## answer -/

@[simp] theorem State.answer_cfg (s : State) (r : Response) : (s.answer r).cfg = s.cfg := rfl
@[simp] theorem State.answer_regs (s : State) (r : Response) : (s.answer r).regs = s.regs := rfl
@[simp] theorem State.answer_linkOpen (s : State) (r : Response) : (s.answer r).linkOpen = s.linkOpen := rfl
@[simp] theorem State.answer_resetting (s : State) (r : Response) : (s.answer r).resetting = s.resetting := rfl
@[simp] theorem State.answer_index (s : State) (r : Response) : (s.answer r).index = s.index + 1 := rfl
@[simp] theorem State.answer_stream (s : State) (r : Response) : (s.answer r).stream = s.stream := rfl
@[simp] theorem State.answer_response (s : State) (r : Response) : (s.answer r).response = some r := rfl
@[simp] theorem State.answer_trace (s : State) (r : Response) : (s.answer r).trace = s.trace := rfl
@[simp] theorem State.answer_script (s : State) (r : Response) : (s.answer r).script = s.script := rfl
@[simp] theorem State.answer_env (s : State) (r : Response) : (s.answer r).env = s.env := rfl
@[simp] theorem State.answer_epoch (s : State) (r : Response) : (s.answer r).epoch = s.epoch := rfl
@[simp] theorem State.answer_unlisted (s : State) (r : Response) : (s.answer r).unlisted = s.unlisted := rfl
@[simp] theorem State.answer_peek (s : State) (r : Response) (k : Nat) : (s.answer r).peek k = s.peek k := rfl
@[simp] theorem State.answer_regsOk (s : State) (r : Response) : (s.answer r).regsOk = s.regsOk := rfl
@[simp] theorem State.answer_hasReg (s : State) (r : Response) (k : Nat) : (s.answer r).hasReg k = s.hasReg k := rfl
@[simp] theorem State.answer_holds (s : State) (r : Response) (a : Byte) (n : ByteWidth) : (s.answer r).holds a n = s.holds a n := rfl

/-! ## respond -/

@[simp] theorem State.respond_cfg (s : State) (v : Value) : (s.respond v).cfg = s.cfg := rfl
@[simp] theorem State.respond_regs (s : State) (v : Value) : (s.respond v).regs = s.regs := rfl
@[simp] theorem State.respond_linkOpen (s : State) (v : Value) : (s.respond v).linkOpen = s.linkOpen := rfl
@[simp] theorem State.respond_resetting (s : State) (v : Value) : (s.respond v).resetting = s.resetting := rfl
@[simp] theorem State.respond_index (s : State) (v : Value) : (s.respond v).index = s.index + 1 := rfl
@[simp] theorem State.respond_stream (s : State) (v : Value) : (s.respond v).stream = s.stream := rfl
@[simp] theorem State.respond_response (s : State) (v : Value) : (s.respond v).response = some { status := .ok, result := v } := rfl
@[simp] theorem State.respond_trace (s : State) (v : Value) : (s.respond v).trace = s.trace := rfl
@[simp] theorem State.respond_script (s : State) (v : Value) : (s.respond v).script = s.script := rfl
@[simp] theorem State.respond_env (s : State) (v : Value) : (s.respond v).env = s.env := rfl
@[simp] theorem State.respond_epoch (s : State) (v : Value) : (s.respond v).epoch = s.epoch := rfl
@[simp] theorem State.respond_unlisted (s : State) (v : Value) : (s.respond v).unlisted = s.unlisted := rfl
@[simp] theorem State.respond_peek (s : State) (v : Value) (k : Nat) : (s.respond v).peek k = s.peek k := rfl
@[simp] theorem State.respond_regsOk (s : State) (v : Value) : (s.respond v).regsOk = s.regsOk := rfl
@[simp] theorem State.respond_hasReg (s : State) (v : Value) (k : Nat) : (s.respond v).hasReg k = s.hasReg k := rfl
@[simp] theorem State.respond_holds (s : State) (v : Value) (a : Byte) (n : ByteWidth) : (s.respond v).holds a n = s.holds a n := rfl

/-! ## raise -/

@[simp] theorem State.raise_cfg (s : State) (e : Status) : (s.raise e).cfg = s.cfg := rfl
@[simp] theorem State.raise_regs (s : State) (e : Status) : (s.raise e).regs = s.regs := rfl
@[simp] theorem State.raise_linkOpen (s : State) (e : Status) : (s.raise e).linkOpen = s.linkOpen := rfl
@[simp] theorem State.raise_resetting (s : State) (e : Status) : (s.raise e).resetting = s.resetting := rfl
@[simp] theorem State.raise_index (s : State) (e : Status) : (s.raise e).index = s.index + 1 := rfl
@[simp] theorem State.raise_stream (s : State) (e : Status) : (s.raise e).stream = s.stream := rfl
@[simp] theorem State.raise_response (s : State) (e : Status) : (s.raise e).response = some { status := e, result := .none } := rfl
@[simp] theorem State.raise_trace (s : State) (e : Status) : (s.raise e).trace = s.trace := rfl
@[simp] theorem State.raise_script (s : State) (e : Status) : (s.raise e).script = s.script := rfl
@[simp] theorem State.raise_env (s : State) (e : Status) : (s.raise e).env = s.env := rfl
@[simp] theorem State.raise_epoch (s : State) (e : Status) : (s.raise e).epoch = s.epoch := rfl
@[simp] theorem State.raise_unlisted (s : State) (e : Status) : (s.raise e).unlisted = s.unlisted := rfl
@[simp] theorem State.raise_peek (s : State) (e : Status) (k : Nat) : (s.raise e).peek k = s.peek k := rfl
@[simp] theorem State.raise_regsOk (s : State) (e : Status) : (s.raise e).regsOk = s.regsOk := rfl
@[simp] theorem State.raise_hasReg (s : State) (e : Status) (k : Nat) : (s.raise e).hasReg k = s.hasReg k := rfl
@[simp] theorem State.raise_holds (s : State) (e : Status) (a : Byte) (n : ByteWidth) : (s.raise e).holds a n = s.holds a n := rfl

/-! ## A response's parts -/

theorem State.respond_eq_answer (s : State) (v : Value) : s.respond v = s.answer { status := .ok, result := v } := rfl

theorem State.raise_eq_answer (s : State) (e : Status) : s.raise e = s.answer { status := e, result := .none } := rfl

theorem State.toDefaults_peek (s : State) (k : Nat) : s.toDefaults.peek k = powerOnByte s.cfg (s.epoch + 1) k := rfl

end Sys2Proof.Machine
end

