-- ==== Sys2Proof/Laws/Memory.lean ====
section
/-! SUPPORT. The register file as a list of cells: reading after a write, and the canonical form every operation keeps. -/

namespace Sys2Proof.Machine

@[simp] theorem Memory.read_nil (u : Nat → Byte) (a : Nat) : Memory.read [] u a = u a := rfl

@[simp] theorem Memory.wf_nil (u : Nat → Byte) (limit : Nat) : Memory.wf [] u limit = true := rfl

/-- An address no pair lists reads as unlisted. -/
theorem Memory.read_of_not_listed {m : Memory} (u : Nat → Byte) {a : Nat} (h : ∀ c ∈ m, c.1 ≠ a) : m.read u a = u a := by
  induction m with
  | nil => rfl
  | cons c m ih =>
    obtain ⟨k, b⟩ := c
    have hk : a ≠ k := fun e => h (k, b) (List.mem_cons_self ..) e.symm
    rw [Memory.read, if_neg hk]
    exact ih fun c hc => h c (List.mem_cons_of_mem _ hc)

/-- The parts of the canonical form of a non-empty list. -/
theorem Memory.wf_cons {k : Nat} {b : Byte} {m : Memory} {u : Nat → Byte} {limit : Nat} :
    Memory.wf ((k, b) :: m) u limit = true ↔
      k ≤ limit ∧ b ≠ u k ∧ (∀ c ∈ m, k < c.1) ∧ Memory.wf m u limit = true := by
  simp [Memory.wf, and_assoc]

/-- Every pair a write leaves was there before or is at the address written. -/
theorem Memory.mem_write {m : Memory} {u : Nat → Byte} {a : Nat} {b : Byte} {c : Host.Cell} (h : c ∈ m.write u a b) :
    c ∈ m ∨ c.1 = a := by
  induction m with
  | nil =>
    simp only [Memory.write] at h
    split at h <;> simp_all
  | cons d m ih =>
    obtain ⟨k, e⟩ := d
    simp only [Memory.write] at h
    split at h
    · split at h <;> simp_all
      rcases h with rfl | h <;> simp_all
    · split at h
      · split at h <;> simp_all
        rcases h with rfl | h <;> simp_all
      · rcases List.mem_cons.mp h with rfl | h
        · simp
        · rcases ih h with h | h <;> simp_all

/-- A write of an existing register keeps the canonical form. -/
theorem Memory.write_wf {m : Memory} {u : Nat → Byte} {limit a : Nat} (b : Byte) (hm : m.wf u limit = true)
    (ha : a ≤ limit) : (m.write u a b).wf u limit = true := by
  induction m with
  | nil =>
    simp only [Memory.write]
    split
    · rfl
    · exact Memory.wf_cons.mpr ⟨ha, ‹_›, by simp, rfl⟩
  | cons d m ih =>
    obtain ⟨k, e⟩ := d
    obtain ⟨hk, he, hlt, hrest⟩ := Memory.wf_cons.mp hm
    simp only [Memory.write]
    split
    · split
      · exact hm
      · refine Memory.wf_cons.mpr ⟨ha, ‹_›, fun c hc => ?_, hm⟩
        rcases List.mem_cons.mp hc with rfl | hc
        · assumption
        · exact lt_trans ‹_› (hlt c hc)
    · split
      · split
        · exact hrest
        · subst_vars
          exact Memory.wf_cons.mpr ⟨ha, ‹_›, hlt, hrest⟩
      · refine Memory.wf_cons.mpr ⟨hk, he, fun c hc => ?_, ih hrest⟩
        rcases Memory.mem_write hc with hc | hc
        · exact hlt c hc
        · omega

/-- A read after a write gives the byte written at its address, and what was there before elsewhere. -/
theorem Memory.read_write {m : Memory} {u : Nat → Byte} {limit a k : Nat} (b : Byte) (hm : m.wf u limit = true) :
    (m.write u a b).read u k = if k = a then b else m.read u k := by
  induction m with
  | nil =>
    by_cases hb : b = u a <;> by_cases hk : k = a <;> simp_all [Memory.write, Memory.read]
  | cons d m ih =>
    obtain ⟨j, e⟩ := d
    obtain ⟨-, -, hlt, hrest⟩ := Memory.wf_cons.mp hm
    have hj : Memory.read m u j = u j := Memory.read_of_not_listed u fun c hc => (hlt c hc).ne'
    simp only [Memory.write]
    by_cases haj : a < j
    · have hnot : ∀ c ∈ (j, e) :: m, c.1 ≠ a := fun c hc => by
        rcases List.mem_cons.mp hc with rfl | hc
        · exact haj.ne'
        · exact (haj.trans (hlt c hc)).ne'
      by_cases hb : b = u a
      · by_cases hk : k = a
        · subst hk
          simpa [haj, hb] using Memory.read_of_not_listed u hnot
        · simp [haj, hb, hk]
      · by_cases hk : k = a <;> simp [haj, hb, hk, Memory.read]
    · by_cases hja : a = j
      · subst hja
        by_cases hb : b = u a
        · by_cases hk : k = a <;> simp_all [Memory.read]
        · by_cases hk : k = a <;> simp [hb, hk, Memory.read]
      · have hne : j ≠ a := fun h => hja h.symm
        by_cases hkj : k = j
        · subst hkj
          simp [haj, hja, hne, Memory.read]
        · simp [haj, hja, hkj, Memory.read, ih hrest]

end Sys2Proof.Machine
end

