-- ==== Sys2Proof/Laws/Ops.lean ====
section
/-! SUPPORT. What the shared operations over registers, the device and the transport can do: the fields each leaves alone,
the registers each changes, and that each keeps the register file canonical. -/

namespace Sys2Proof.Machine

/-- What an unlisted register holds depends on the configuration and the epoch alone. -/
theorem State.unlisted_congr {s t : State} (hc : t.cfg = s.cfg) (he : t.epoch = s.epoch) : t.unlisted = s.unlisted := by
  funext a
  simp [State.unlisted, hc, he]

/-- Registers agree where the register files, configurations and epochs do. -/
theorem State.peek_congr {s t : State} (hr : t.regs = s.regs) (hc : t.cfg = s.cfg) (he : t.epoch = s.epoch) (k : Nat) :
    t.peek k = s.peek k := by
  simp [State.peek, hr, State.unlisted_congr hc he]

theorem State.hasReg_congr {s t : State} (hc : t.cfg = s.cfg) (k : Nat) : t.hasReg k = s.hasReg k := by
  simp [State.hasReg, hc]

theorem State.holds_congr {s t : State} (hc : t.cfg = s.cfg) (a : Byte) (n : ByteWidth) : t.holds a n = s.holds a n :=
  State.hasReg_congr hc _

/-! ## One register -/

@[simp] theorem State.poke_cfg (s : State) (a : Nat) (b : Byte) : (s.poke a b).cfg = s.cfg := by
  unfold State.poke; split <;> rfl

@[simp] theorem State.poke_linkOpen (s : State) (a : Nat) (b : Byte) : (s.poke a b).linkOpen = s.linkOpen := by
  unfold State.poke; split <;> rfl

@[simp] theorem State.poke_resetting (s : State) (a : Nat) (b : Byte) : (s.poke a b).resetting = s.resetting := by
  unfold State.poke; split <;> rfl

@[simp] theorem State.poke_index (s : State) (a : Nat) (b : Byte) : (s.poke a b).index = s.index := by
  unfold State.poke; split <;> rfl

@[simp] theorem State.poke_stream (s : State) (a : Nat) (b : Byte) : (s.poke a b).stream = s.stream := by
  unfold State.poke; split <;> rfl

@[simp] theorem State.poke_response (s : State) (a : Nat) (b : Byte) : (s.poke a b).response = s.response := by
  unfold State.poke; split <;> rfl

@[simp] theorem State.poke_trace (s : State) (a : Nat) (b : Byte) : (s.poke a b).trace = s.trace := by
  unfold State.poke; split <;> rfl

@[simp] theorem State.poke_script (s : State) (a : Nat) (b : Byte) : (s.poke a b).script = s.script := by
  unfold State.poke; split <;> rfl

@[simp] theorem State.poke_env (s : State) (a : Nat) (b : Byte) : (s.poke a b).env = s.env := by
  unfold State.poke; split <;> rfl

@[simp] theorem State.poke_epoch (s : State) (a : Nat) (b : Byte) : (s.poke a b).epoch = s.epoch := by
  unfold State.poke; split <;> rfl

@[simp] theorem State.poke_unlisted (s : State) (a : Nat) (b : Byte) : (s.poke a b).unlisted = s.unlisted :=
  State.unlisted_congr (by simp) (by simp)

@[simp] theorem State.poke_hasReg (s : State) (a : Nat) (b : Byte) (k : Nat) : (s.poke a b).hasReg k = s.hasReg k :=
  State.hasReg_congr (by simp) k

/-- A write of a register keeps the canonical form. -/
theorem State.poke_regsOk {s : State} (h : s.regsOk = true) (a : Nat) (b : Byte) : (s.poke a b).regsOk = true := by
  unfold State.poke
  split
  · rename_i ha
    exact Memory.write_wf b h (by simpa [State.hasReg] using ha)
  · exact h

/-- A write changes the one register it names, if there is such a register. -/
theorem State.poke_peek {s : State} (h : s.regsOk = true) (a : Nat) (b : Byte) (k : Nat) :
    (s.poke a b).peek k = if k = a ∧ s.hasReg a = true then b else s.peek k := by
  by_cases ha : s.hasReg a = true
  · rw [State.poke, if_pos ha]
    simp only [ha, and_true]
    exact Memory.read_write (a := a) (k := k) b h
  · rw [State.poke, if_neg ha]
    simp [ha]

/-! ## Registers of one access -/

@[simp] theorem State.store_cfg (s : State) (a : Byte) (n : ByteWidth) (v : Word) : (s.store a n v).cfg = s.cfg := by
  cases n <;> simp [State.store]

@[simp] theorem State.store_linkOpen (s : State) (a : Byte) (n : ByteWidth) (v : Word) : (s.store a n v).linkOpen = s.linkOpen := by
  cases n <;> simp [State.store]

@[simp] theorem State.store_resetting (s : State) (a : Byte) (n : ByteWidth) (v : Word) : (s.store a n v).resetting = s.resetting := by
  cases n <;> simp [State.store]

@[simp] theorem State.store_index (s : State) (a : Byte) (n : ByteWidth) (v : Word) : (s.store a n v).index = s.index := by
  cases n <;> simp [State.store]

@[simp] theorem State.store_stream (s : State) (a : Byte) (n : ByteWidth) (v : Word) : (s.store a n v).stream = s.stream := by
  cases n <;> simp [State.store]

@[simp] theorem State.store_response (s : State) (a : Byte) (n : ByteWidth) (v : Word) : (s.store a n v).response = s.response := by
  cases n <;> simp [State.store]

@[simp] theorem State.store_trace (s : State) (a : Byte) (n : ByteWidth) (v : Word) : (s.store a n v).trace = s.trace := by
  cases n <;> simp [State.store]

@[simp] theorem State.store_script (s : State) (a : Byte) (n : ByteWidth) (v : Word) : (s.store a n v).script = s.script := by
  cases n <;> simp [State.store]

@[simp] theorem State.store_env (s : State) (a : Byte) (n : ByteWidth) (v : Word) : (s.store a n v).env = s.env := by
  cases n <;> simp [State.store]

@[simp] theorem State.store_epoch (s : State) (a : Byte) (n : ByteWidth) (v : Word) : (s.store a n v).epoch = s.epoch := by
  cases n <;> simp [State.store]

@[simp] theorem State.store_unlisted (s : State) (a : Byte) (n : ByteWidth) (v : Word) :
    (s.store a n v).unlisted = s.unlisted :=
  State.unlisted_congr (by simp) (by simp)

theorem State.store_regsOk {s : State} (h : s.regsOk = true) (a : Byte) (n : ByteWidth) (v : Word) :
    (s.store a n v).regsOk = true := by
  cases n
  · exact State.poke_regsOk h _ _
  · exact State.poke_regsOk (State.poke_regsOk h _ _) _ _

/-- A register is stored where it exists below the last byte of an access that does. -/
theorem State.hasReg_of_holds {s : State} {a : Byte} {n : ByteWidth} (h : s.holds a n = true) {k : Nat}
    (hk : k < a.toNat + n.bytes) : s.hasReg k = true := by
  simp only [State.holds, State.hasReg, decide_eq_true_eq] at *
  omega

/-- A one-byte store puts the low byte at its address and changes nothing else (spec R53). -/
theorem State.store_one_peek {s : State} (h : s.regsOk = true) {a : Byte} (ha : s.holds a .one = true) (v : Word) (k : Nat) :
    (s.store a .one v).peek k = if k = a.toNat then v.extractLsb' 0 8 else s.peek k := by
  have h0 := State.hasReg_of_holds ha (k := a.toNat) (by simp [ByteWidth.bytes])
  simp [State.store, State.poke_peek h, h0]

/-- A two-byte store is big-endian and changes nothing else (spec R53, R59). -/
theorem State.store_two_peek {s : State} (h : s.regsOk = true) {a : Byte} (ha : s.holds a .two = true) (v : Word) (k : Nat) :
    (s.store a .two v).peek k =
      if k = a.toNat then v.extractLsb' 8 8 else if k = a.toNat + 1 then v.extractLsb' 0 8 else s.peek k := by
  have h0 := State.hasReg_of_holds ha (k := a.toNat) (by simp [ByteWidth.bytes])
  have h1 := State.hasReg_of_holds ha (k := a.toNat + 1) (by simp [ByteWidth.bytes])
  rw [State.store, State.poke_peek (State.poke_regsOk h _ _), State.poke_peek h]
  simp only [State.poke_hasReg, h0, h1, and_true]
  by_cases hk : k = a.toNat <;> by_cases hk1 : k = a.toNat + 1 <;> simp_all

/-- A store changes no register outside the bytes it addresses. -/
theorem State.store_peek_outside {s : State} (h : s.regsOk = true) (a : Byte) (n : ByteWidth) (v : Word) {k : Nat}
    (hk : ¬ addressed a n k) : (s.store a n v).peek k = s.peek k := by
  cases n
  · have : k ≠ a.toNat := fun e => hk (by simp [addressed, ByteWidth.bytes, e])
    simp [State.store, State.poke_peek h, this]
  · have h0 : k ≠ a.toNat := fun e => hk (by simp [addressed, ByteWidth.bytes, e])
    have h1 : k ≠ a.toNat + 1 := fun e => hk (by simp [addressed, ByteWidth.bytes, e])
    simp [State.store, State.poke_peek (State.poke_regsOk h _ _), State.poke_peek h, h0, h1]

/-- A load reads the big-endian value of the registers (spec R52). -/
theorem State.load_toNat (s : State) (a : Byte) (n : ByteWidth) : (s.load a n).toNat = s.regValue a n := by
  cases n
  · simp only [State.load, State.regValue, BitVec.toNat_setWidth]
    have := (s.peek a.toNat).isLt
    omega
  · simp only [State.load, State.regValue, BitVec.toNat_append]
    rw [Nat.shiftLeft_eq, mul_comm, ← Nat.two_pow_add_eq_or_of_lt (s.peek (a.toNat + 1)).isLt]

/-- A load reads back what a store of the same width put there, cut to that width. -/
theorem State.store_regValue {s : State} (h : s.regsOk = true) {a : Byte} {n : ByteWidth} (ha : s.holds a n = true) (v : Word) :
    (s.store a n v).regValue a n = v.toNat % 2 ^ (8 * n.bytes) := by
  have hv := v.isLt
  cases n
  · simp [State.regValue, State.store_one_peek h ha, ByteWidth.bytes]
  · simp only [State.regValue, State.store_two_peek h ha, ByteWidth.bytes]
    simp [Nat.shiftRight_eq_div_pow]
    omega

/-! ## The register file is canonical at the start -/

theorem State.powerOn_regsOk (cfg : Config) : (State.powerOn cfg).regsOk = true := rfl

theorem State.reset_regsOk : State.reset.regsOk = true := rfl

/-! ## Device events -/

@[simp] theorem State.applyEvent_cfg (s : State) (e : DeviceEvent) : (s.applyEvent e).cfg = s.cfg := by
  cases e <;> simp only [State.applyEvent] <;> (try split) <;> simp

@[simp] theorem State.applyEvent_linkOpen (s : State) (e : DeviceEvent) : (s.applyEvent e).linkOpen = s.linkOpen := by
  cases e <;> simp only [State.applyEvent] <;> (try split) <;> simp

@[simp] theorem State.applyEvent_index (s : State) (e : DeviceEvent) : (s.applyEvent e).index = s.index := by
  cases e <;> simp only [State.applyEvent] <;> (try split) <;> simp

@[simp] theorem State.applyEvent_stream (s : State) (e : DeviceEvent) : (s.applyEvent e).stream = s.stream := by
  cases e <;> simp only [State.applyEvent] <;> (try split) <;> simp

@[simp] theorem State.applyEvent_response (s : State) (e : DeviceEvent) : (s.applyEvent e).response = s.response := by
  cases e <;> simp only [State.applyEvent] <;> (try split) <;> simp

@[simp] theorem State.applyEvent_trace (s : State) (e : DeviceEvent) : (s.applyEvent e).trace = s.trace := by
  cases e <;> simp only [State.applyEvent] <;> (try split) <;> simp

@[simp] theorem State.applyEvent_script (s : State) (e : DeviceEvent) : (s.applyEvent e).script = s.script := by
  cases e <;> simp only [State.applyEvent] <;> (try split) <;> simp

@[simp] theorem State.applyEvent_env (s : State) (e : DeviceEvent) : (s.applyEvent e).env = s.env := by
  cases e <;> simp only [State.applyEvent] <;> (try split) <;> simp

@[simp] theorem State.device_nil (s : State) : s.device [] = s := rfl

theorem State.device_cons (s : State) (e : DeviceEvent) (es : List DeviceEvent) :
    s.device (e :: es) = (s.applyEvent e).device es := rfl

@[simp] theorem State.device_cfg (s : State) (es : List DeviceEvent) : (s.device es).cfg = s.cfg := by
  induction es generalizing s with
  | nil => rfl
  | cons e es ih => rw [State.device_cons, ih, State.applyEvent_cfg]

@[simp] theorem State.device_linkOpen (s : State) (es : List DeviceEvent) : (s.device es).linkOpen = s.linkOpen := by
  induction es generalizing s with
  | nil => rfl
  | cons e es ih => rw [State.device_cons, ih, State.applyEvent_linkOpen]

@[simp] theorem State.device_index (s : State) (es : List DeviceEvent) : (s.device es).index = s.index := by
  induction es generalizing s with
  | nil => rfl
  | cons e es ih => rw [State.device_cons, ih, State.applyEvent_index]

@[simp] theorem State.device_stream (s : State) (es : List DeviceEvent) : (s.device es).stream = s.stream := by
  induction es generalizing s with
  | nil => rfl
  | cons e es ih => rw [State.device_cons, ih, State.applyEvent_stream]

@[simp] theorem State.device_response (s : State) (es : List DeviceEvent) : (s.device es).response = s.response := by
  induction es generalizing s with
  | nil => rfl
  | cons e es ih => rw [State.device_cons, ih, State.applyEvent_response]

@[simp] theorem State.device_trace (s : State) (es : List DeviceEvent) : (s.device es).trace = s.trace := by
  induction es generalizing s with
  | nil => rfl
  | cons e es ih => rw [State.device_cons, ih, State.applyEvent_trace]

@[simp] theorem State.device_script (s : State) (es : List DeviceEvent) : (s.device es).script = s.script := by
  induction es generalizing s with
  | nil => rfl
  | cons e es ih => rw [State.device_cons, ih, State.applyEvent_script]

@[simp] theorem State.device_env (s : State) (es : List DeviceEvent) : (s.device es).env = s.env := by
  induction es generalizing s with
  | nil => rfl
  | cons e es ih => rw [State.device_cons, ih, State.applyEvent_env]

@[simp] theorem State.device_holds (s : State) (es : List DeviceEvent) (a : Byte) (n : ByteWidth) :
    (s.device es).holds a n = s.holds a n :=
  State.holds_congr (by simp) a n

theorem State.toDefaults_regsOk (s : State) : s.toDefaults.regsOk = true := rfl

theorem State.applyEvent_regsOk {s : State} (h : s.regsOk = true) (e : DeviceEvent) : (s.applyEvent e).regsOk = true := by
  cases e with
  | change a b => exact State.poke_regsOk h _ _
  | resetEnds =>
    simp only [State.applyEvent]
    split
    · exact State.toDefaults_regsOk s
    · exact h
  | powerLoss => exact State.toDefaults_regsOk s

theorem State.device_regsOk {s : State} (h : s.regsOk = true) (es : List DeviceEvent) : (s.device es).regsOk = true := by
  induction es generalizing s with
  | nil => exact h
  | cons e es ih => exact ih (State.applyEvent_regsOk h e)

/-- The quiescent device's reaction changes nothing while no reset is running. -/
theorem State.device_quiet_after {s : State} (h : s.resetting = false) : s.device Draw.quiet.after = s := by
  simp [Draw.quiet, State.device_cons, State.applyEvent, h]

/-- The quiescent device's reaction to a reset write ends the reset at once. -/
theorem State.device_quiet_after_reset {s : State} (h : s.resetting = true) : s.device Draw.quiet.after = s.toDefaults := by
  simp [Draw.quiet, State.device_cons, State.applyEvent, h]

theorem State.applyEvent_resetting {s : State} (h : s.resetting = false) (e : DeviceEvent) :
    (s.applyEvent e).resetting = false := by
  cases e <;> simp [State.applyEvent, h]

/-- No device event starts a reset. -/
theorem State.device_resetting {s : State} (h : s.resetting = false) (es : List DeviceEvent) :
    (s.device es).resetting = false := by
  induction es generalizing s with
  | nil => exact h
  | cons e es ih => exact ih (State.applyEvent_resetting h e)

/-- Idle events change nothing while no reset is running. -/
theorem State.device_idle {s : State} (h : s.resetting = false) {es : List DeviceEvent} (hes : IdleEvents es) :
    s.device es = s := by
  induction es with
  | nil => rfl
  | cons e es ih =>
    rw [State.device_cons, hes e (List.mem_cons_self ..)]
    simpa [State.applyEvent, h] using ih fun e he => hes e (List.mem_cons_of_mem _ he)

/-! ## Draws -/

@[simp] theorem State.afterDraw_cfg (s : State) : (s.afterDraw).cfg = s.cfg := by
  unfold State.afterDraw; repeat (first | rfl | split)

@[simp] theorem State.afterDraw_regs (s : State) : (s.afterDraw).regs = s.regs := by
  unfold State.afterDraw; repeat (first | rfl | split)

@[simp] theorem State.afterDraw_linkOpen (s : State) : (s.afterDraw).linkOpen = s.linkOpen := by
  unfold State.afterDraw; repeat (first | rfl | split)

@[simp] theorem State.afterDraw_resetting (s : State) : (s.afterDraw).resetting = s.resetting := by
  unfold State.afterDraw; repeat (first | rfl | split)

@[simp] theorem State.afterDraw_index (s : State) : (s.afterDraw).index = s.index := by
  unfold State.afterDraw; repeat (first | rfl | split)

@[simp] theorem State.afterDraw_stream (s : State) : (s.afterDraw).stream = s.stream := by
  unfold State.afterDraw; repeat (first | rfl | split)

@[simp] theorem State.afterDraw_response (s : State) : (s.afterDraw).response = s.response := by
  unfold State.afterDraw; repeat (first | rfl | split)

@[simp] theorem State.afterDraw_trace (s : State) : (s.afterDraw).trace = s.trace := by
  unfold State.afterDraw; repeat (first | rfl | split)

@[simp] theorem State.afterDraw_epoch (s : State) : (s.afterDraw).epoch = s.epoch := by
  unfold State.afterDraw; repeat (first | rfl | split)

@[simp] theorem State.afterDraw_peek (s : State) (k : Nat) : s.afterDraw.peek k = s.peek k :=
  State.peek_congr (by simp) (by simp) (by simp) k

@[simp] theorem State.afterDraw_unlisted (s : State) : s.afterDraw.unlisted = s.unlisted :=
  State.unlisted_congr (by simp) (by simp)

@[simp] theorem State.afterDraw_regsOk (s : State) : s.afterDraw.regsOk = s.regsOk := by
  simp [State.regsOk]

/-- The draws to come depend on the script and the source alone. -/
theorem State.nextDraw_congr {s t : State} (hs : t.script = s.script) (he : t.env = s.env) : t.nextDraw = s.nextDraw := by
  simp [State.nextDraw, hs, he]

/-- A scripted draw is the next one. -/
theorem State.nextDraw_of_script {s : State} {d : Draw} {ds : List Draw} (h : s.script = d :: ds) : s.nextDraw = d := by
  simp [State.nextDraw, h]

/-- Taking a scripted draw leaves the rest of the script. -/
theorem State.afterDraw_of_script {s : State} {d : Draw} {ds : List Draw} (h : s.script = d :: ds) :
    s.afterDraw = { s with script := ds } := by
  simp [State.afterDraw, h]

/-- On the quiescent device every draw is quiet and none is used up. -/
theorem State.Quiescent.draw {s : State} (h : s.Quiescent) : s.nextDraw = Draw.quiet ∧ s.afterDraw = s := by
  simp [State.nextDraw, State.afterDraw, h.script, h.env]

/-- On the quiescent device a bus phase finds the state as it was. -/
theorem State.Quiescent.atPhase {s : State} (h : s.Quiescent) : s.atPhase = s := by
  simp [State.atPhase, h.draw, Draw.quiet]

@[simp] theorem State.atPhase_cfg (s : State) : (s.atPhase).cfg = s.cfg := by
  simp [State.atPhase]

@[simp] theorem State.atPhase_linkOpen (s : State) : (s.atPhase).linkOpen = s.linkOpen := by
  simp [State.atPhase]

@[simp] theorem State.atPhase_index (s : State) : (s.atPhase).index = s.index := by
  simp [State.atPhase]

@[simp] theorem State.atPhase_stream (s : State) : (s.atPhase).stream = s.stream := by
  simp [State.atPhase]

@[simp] theorem State.atPhase_response (s : State) : (s.atPhase).response = s.response := by
  simp [State.atPhase]

@[simp] theorem State.atPhase_trace (s : State) : (s.atPhase).trace = s.trace := by
  simp [State.atPhase]

@[simp] theorem State.atPhase_holds (s : State) (a : Byte) (n : ByteWidth) : s.atPhase.holds a n = s.holds a n :=
  State.holds_congr (by simp) a n

@[simp] theorem State.atPhase_script (s : State) : s.atPhase.script = s.afterDraw.script := by
  simp [State.atPhase]

@[simp] theorem State.atPhase_env (s : State) : s.atPhase.env = s.afterDraw.env := by
  simp [State.atPhase]

theorem State.atPhase_resetting {s : State} (h : s.resetting = false) : s.atPhase.resetting = false :=
  State.device_resetting (by simpa using h) _

/-- A phase whose draw is idle finds the registers as they were. -/
theorem State.atPhase_idle {s : State} (h : s.resetting = false) (hd : IdleEvents s.nextDraw.before) :
    s.atPhase = s.afterDraw :=
  State.device_idle (by simpa using h) hd

@[simp] theorem State.drawAt_zero (s : State) : s.drawAt 0 = s.nextDraw := rfl

@[simp] theorem State.drawAt_one (s : State) : s.drawAt 1 = s.afterDraw.nextDraw := rfl

theorem State.atPhase_regsOk {s : State} (h : s.regsOk = true) : s.atPhase.regsOk = true :=
  State.device_regsOk (by simpa using h) _

/-! ## Bus phases (spec R52, R53, R58) -/

@[simp] theorem State.startReset_cfg (s : State) (r : Bool) : (s.startReset r).cfg = s.cfg := by
  cases r <;> rfl

@[simp] theorem State.startReset_regs (s : State) (r : Bool) : (s.startReset r).regs = s.regs := by
  cases r <;> rfl

@[simp] theorem State.startReset_linkOpen (s : State) (r : Bool) : (s.startReset r).linkOpen = s.linkOpen := by
  cases r <;> rfl

@[simp] theorem State.startReset_index (s : State) (r : Bool) : (s.startReset r).index = s.index := by
  cases r <;> rfl

@[simp] theorem State.startReset_stream (s : State) (r : Bool) : (s.startReset r).stream = s.stream := by
  cases r <;> rfl

@[simp] theorem State.startReset_response (s : State) (r : Bool) : (s.startReset r).response = s.response := by
  cases r <;> rfl

@[simp] theorem State.startReset_trace (s : State) (r : Bool) : (s.startReset r).trace = s.trace := by
  cases r <;> rfl

@[simp] theorem State.startReset_script (s : State) (r : Bool) : (s.startReset r).script = s.script := by
  cases r <;> rfl

@[simp] theorem State.startReset_env (s : State) (r : Bool) : (s.startReset r).env = s.env := by
  cases r <;> rfl

@[simp] theorem State.startReset_epoch (s : State) (r : Bool) : (s.startReset r).epoch = s.epoch := by
  cases r <;> rfl

@[simp] theorem State.startReset_peek (s : State) (r : Bool) (k : Nat) : (s.startReset r).peek k = s.peek k := by
  cases r <;> rfl

@[simp] theorem State.startReset_regsOk (s : State) (r : Bool) : (s.startReset r).regsOk = s.regsOk := by
  cases r <;> rfl

@[simp] theorem State.startReset_resetting (s : State) (r : Bool) : (s.startReset r).resetting = (s.resetting || r) := by
  cases r <;> simp [State.startReset]

@[simp] theorem State.startReset_false (s : State) : s.startReset false = s := rfl

/-- A read answers the value its phase finds, exactly where the phase completes and every byte exists. -/
theorem State.memRead_fst (s : State) (a : Byte) (n : ByteWidth) :
    (s.memRead a n).1 = if s.holds a n && s.nextDraw.ok then some (s.atPhase.load a n) else none := by
  simp [State.memRead]

/-- A read leaves what the device made of the state: the codec's side changes nothing. -/
theorem State.memRead_snd (s : State) (a : Byte) (n : ByteWidth) :
    (s.memRead a n).2 = s.atPhase.device s.nextDraw.after := rfl

/-- A write completes exactly where its phase does and every byte exists. -/
theorem State.memWrite_fst (s : State) (a : Byte) (n : ByteWidth) (v : Word) :
    (s.memWrite a n v).1 = (s.holds a n && s.nextDraw.ok) := by
  unfold State.memWrite
  by_cases h : s.holds a n = true <;> by_cases h' : s.nextDraw.ok = true <;> simp [h, h']

/-- What a write leaves: the value stored, the residue of a failed write, or, where a byte does not exist, nothing; and
then the device's reaction. -/
theorem State.memWrite_snd (s : State) (a : Byte) (n : ByteWidth) (v : Word) :
    (s.memWrite a n v).2 =
      (if s.holds a n then
        if s.nextDraw.ok then (s.atPhase.store a n v).startReset (writesReset s.cfg a n v) else s.atPhase.store a n s.nextDraw.residue
      else s.atPhase).device s.nextDraw.after := by
  unfold State.memWrite
  by_cases h : s.holds a n = true <;> by_cases h' : s.nextDraw.ok = true <;> simp [h, h']

@[simp] theorem State.memRead_cfg (s : State) (a : Byte) (n : ByteWidth) : (s.memRead a n).2.cfg = s.cfg := by
  simp [State.memRead_snd]

@[simp] theorem State.memRead_linkOpen (s : State) (a : Byte) (n : ByteWidth) : (s.memRead a n).2.linkOpen = s.linkOpen := by
  simp [State.memRead_snd]

@[simp] theorem State.memRead_index (s : State) (a : Byte) (n : ByteWidth) : (s.memRead a n).2.index = s.index := by
  simp [State.memRead_snd]

@[simp] theorem State.memRead_stream (s : State) (a : Byte) (n : ByteWidth) : (s.memRead a n).2.stream = s.stream := by
  simp [State.memRead_snd]

@[simp] theorem State.memRead_response (s : State) (a : Byte) (n : ByteWidth) : (s.memRead a n).2.response = s.response := by
  simp [State.memRead_snd]

@[simp] theorem State.memRead_trace (s : State) (a : Byte) (n : ByteWidth) : (s.memRead a n).2.trace = s.trace := by
  simp [State.memRead_snd]

@[simp] theorem State.memWrite_cfg (s : State) (a : Byte) (n : ByteWidth) (v : Word) :
    (s.memWrite a n v).2.cfg = s.cfg := by
  rw [State.memWrite_snd]; repeat (first | split | simp)

@[simp] theorem State.memWrite_linkOpen (s : State) (a : Byte) (n : ByteWidth) (v : Word) :
    (s.memWrite a n v).2.linkOpen = s.linkOpen := by
  rw [State.memWrite_snd]; repeat (first | split | simp)

@[simp] theorem State.memWrite_index (s : State) (a : Byte) (n : ByteWidth) (v : Word) :
    (s.memWrite a n v).2.index = s.index := by
  rw [State.memWrite_snd]; repeat (first | split | simp)

@[simp] theorem State.memWrite_stream (s : State) (a : Byte) (n : ByteWidth) (v : Word) :
    (s.memWrite a n v).2.stream = s.stream := by
  rw [State.memWrite_snd]; repeat (first | split | simp)

@[simp] theorem State.memWrite_response (s : State) (a : Byte) (n : ByteWidth) (v : Word) :
    (s.memWrite a n v).2.response = s.response := by
  rw [State.memWrite_snd]; repeat (first | split | simp)

@[simp] theorem State.memWrite_trace (s : State) (a : Byte) (n : ByteWidth) (v : Word) :
    (s.memWrite a n v).2.trace = s.trace := by
  rw [State.memWrite_snd]; repeat (first | split | simp)

/-- A read uses up one draw. -/
@[simp] theorem State.memRead_nextDraw (s : State) (a : Byte) (n : ByteWidth) :
    (s.memRead a n).2.nextDraw = s.afterDraw.nextDraw :=
  State.nextDraw_congr (by simp [State.memRead_snd]) (by simp [State.memRead_snd])

theorem State.memRead_regsOk {s : State} (h : s.regsOk = true) (a : Byte) (n : ByteWidth) :
    (s.memRead a n).2.regsOk = true :=
  State.device_regsOk (State.atPhase_regsOk h) _

theorem State.memWrite_regsOk {s : State} (h : s.regsOk = true) (a : Byte) (n : ByteWidth) (v : Word) :
    (s.memWrite a n v).2.regsOk = true := by
  have hp := State.atPhase_regsOk h
  rw [State.memWrite_snd]
  apply State.device_regsOk
  split
  · split
    · simpa using State.store_regsOk hp a n v
    · exact State.store_regsOk hp a n _
  · exact hp

/-! ## Transport operations (spec R54 to R56) -/

@[simp] theorem State.readBits_cfg (s : State) (a : Byte) (n : ByteWidth) (w off : Nat) :
    (s.readBits a n w off).2.cfg = s.cfg := by
  simp [State.readBits]

@[simp] theorem State.readBits_linkOpen (s : State) (a : Byte) (n : ByteWidth) (w off : Nat) :
    (s.readBits a n w off).2.linkOpen = s.linkOpen := by
  simp [State.readBits]

@[simp] theorem State.readBits_index (s : State) (a : Byte) (n : ByteWidth) (w off : Nat) :
    (s.readBits a n w off).2.index = s.index := by
  simp [State.readBits]

@[simp] theorem State.readBits_stream (s : State) (a : Byte) (n : ByteWidth) (w off : Nat) :
    (s.readBits a n w off).2.stream = s.stream := by
  simp [State.readBits]

@[simp] theorem State.readBits_response (s : State) (a : Byte) (n : ByteWidth) (w off : Nat) :
    (s.readBits a n w off).2.response = s.response := by
  simp [State.readBits]

/-- `ReadBits` adds its own entry to the trace. -/
@[simp] theorem State.readBits_trace (s : State) (a : Byte) (n : ByteWidth) (w off : Nat) :
    (s.readBits a n w off).2.trace = s.trace ++ [.readBits a n w off (s.readBits a n w off).1] := by
  simp [State.readBits]

/-- `ReadBits` answers the slice of the value its phase finds. -/
theorem State.readBits_fst (s : State) (a : Byte) (n : ByteWidth) (w off : Nat) :
    (s.readBits a n w off).1 =
      if s.holds a n && s.nextDraw.ok then some (extractBits (s.atPhase.load a n) off w) else none := by
  simp only [State.readBits, State.memRead_fst]
  split <;> rfl

/-- `ReadBits` leaves what the device made of the state, and its entry. -/
theorem State.readBits_snd (s : State) (a : Byte) (n : ByteWidth) (w off : Nat) :
    (s.readBits a n w off).2 =
      (s.atPhase.device s.nextDraw.after).record (.readBits a n w off (s.readBits a n w off).1) := rfl

theorem State.readBits_regsOk {s : State} (h : s.regsOk = true) (a : Byte) (n : ByteWidth) (w off : Nat) :
    (s.readBits a n w off).2.regsOk = true := by
  simpa [State.readBits] using State.memRead_regsOk h a n

/-- `WriteBits`, where its read fails: nothing is written. -/
theorem State.writeBits_of_read_failed {s : State} {a : Byte} {n : ByteWidth} (h : (s.memRead a n).1 = none)
    (w off : Nat) (raw : Word) :
    s.writeBits a n w off raw = (false, (s.memRead a n).2.record (.writeBits a n w off raw false)) := by
  unfold State.writeBits
  split
  · simp_all
  · simp_all

/-- `WriteBits`, where its read gives `v`: the write of `v` with the slice replaced decides. -/
theorem State.writeBits_of_read {s : State} {a : Byte} {n : ByteWidth} {v : Word} (h : (s.memRead a n).1 = some v)
    (w off : Nat) (raw : Word) :
    s.writeBits a n w off raw =
      (((s.memRead a n).2.memWrite a n (insertBits v off w raw)).1,
        ((s.memRead a n).2.memWrite a n (insertBits v off w raw)).2.record
          (.writeBits a n w off raw ((s.memRead a n).2.memWrite a n (insertBits v off w raw)).1)) := by
  unfold State.writeBits
  split
  · simp_all
  · simp_all

@[simp] theorem State.writeBits_cfg (s : State) (a : Byte) (n : ByteWidth) (w off : Nat) (raw : Word) :
    (s.writeBits a n w off raw).2.cfg = s.cfg := by
  cases h : (s.memRead a n).1 with
  | none => simp [State.writeBits_of_read_failed h]
  | some v => simp [State.writeBits_of_read h]

@[simp] theorem State.writeBits_linkOpen (s : State) (a : Byte) (n : ByteWidth) (w off : Nat) (raw : Word) :
    (s.writeBits a n w off raw).2.linkOpen = s.linkOpen := by
  cases h : (s.memRead a n).1 with
  | none => simp [State.writeBits_of_read_failed h]
  | some v => simp [State.writeBits_of_read h]

@[simp] theorem State.writeBits_index (s : State) (a : Byte) (n : ByteWidth) (w off : Nat) (raw : Word) :
    (s.writeBits a n w off raw).2.index = s.index := by
  cases h : (s.memRead a n).1 with
  | none => simp [State.writeBits_of_read_failed h]
  | some v => simp [State.writeBits_of_read h]

@[simp] theorem State.writeBits_stream (s : State) (a : Byte) (n : ByteWidth) (w off : Nat) (raw : Word) :
    (s.writeBits a n w off raw).2.stream = s.stream := by
  cases h : (s.memRead a n).1 with
  | none => simp [State.writeBits_of_read_failed h]
  | some v => simp [State.writeBits_of_read h]

@[simp] theorem State.writeBits_response (s : State) (a : Byte) (n : ByteWidth) (w off : Nat) (raw : Word) :
    (s.writeBits a n w off raw).2.response = s.response := by
  cases h : (s.memRead a n).1 with
  | none => simp [State.writeBits_of_read_failed h]
  | some v => simp [State.writeBits_of_read h]

/-- `WriteBits` adds its own entry to the trace. -/
@[simp] theorem State.writeBits_trace (s : State) (a : Byte) (n : ByteWidth) (w off : Nat) (raw : Word) :
    (s.writeBits a n w off raw).2.trace = s.trace ++ [.writeBits a n w off raw (s.writeBits a n w off raw).1] := by
  cases h : (s.memRead a n).1 with
  | none => simp [State.writeBits_of_read_failed h]
  | some v => simp [State.writeBits_of_read h]

theorem State.writeBits_regsOk {s : State} (h : s.regsOk = true) (a : Byte) (n : ByteWidth) (w off : Nat) (raw : Word) : (s.writeBits a n w off raw).2.regsOk = true := by
  cases hr : (s.memRead a n).1 with
  | none => simpa [State.writeBits_of_read_failed hr] using State.memRead_regsOk h a n
  | some v => simpa [State.writeBits_of_read hr] using State.memWrite_regsOk (State.memRead_regsOk h a n) a n _

/-- `Open` answers its draw. -/
@[simp] theorem State.openLink_fst (s : State) (busAddr : Byte) (h : Handle) :
    (s.openLink busAddr h).1 = s.nextDraw.ok := rfl

@[simp] theorem State.openLink_linkOpen (s : State) (busAddr : Byte) (h : Handle) :
    (s.openLink busAddr h).2.linkOpen = s.nextDraw.ok := by
  simp [State.openLink]

@[simp] theorem State.openLink_trace (s : State) (busAddr : Byte) (h : Handle) :
    (s.openLink busAddr h).2.trace = s.trace ++ [.opened busAddr h s.nextDraw.ok] := by
  simp [State.openLink]

@[simp] theorem State.openLink_cfg (s : State) (busAddr : Byte) (h : Handle) :
    (s.openLink busAddr h).2.cfg = s.cfg := by
  simp [State.openLink]

@[simp] theorem State.openLink_index (s : State) (busAddr : Byte) (h : Handle) :
    (s.openLink busAddr h).2.index = s.index := by
  simp [State.openLink]

@[simp] theorem State.openLink_stream (s : State) (busAddr : Byte) (h : Handle) :
    (s.openLink busAddr h).2.stream = s.stream := by
  simp [State.openLink]

@[simp] theorem State.openLink_response (s : State) (busAddr : Byte) (h : Handle) :
    (s.openLink busAddr h).2.response = s.response := by
  simp [State.openLink]

theorem State.openLink_regsOk {s : State} (hs : s.regsOk = true) (busAddr : Byte) (h : Handle) :
    (s.openLink busAddr h).2.regsOk = true := by
  have : ((s.atPhase.setLink s.nextDraw.ok).device s.nextDraw.after).regsOk = true :=
    State.device_regsOk (by simpa using State.atPhase_regsOk hs) _
  simpa [State.openLink] using this

end Sys2Proof.Machine
end

