-- ==== Sys2Proof/Laws/Operands.lean ====
section
/-! SUPPORT. The descriptor lookups, and what a well-formed configuration says of a descriptor it holds. -/

namespace Sys2Proof.Machine

theorem fieldAt_eq {cfg : Config} {f : Byte} {d : Descriptor} (h : cfg.fields[f.toNat]? = some d) : fieldAt cfg f = .ok d := by
  simp [fieldAt, h]

/-- The LINEAR lookup finds exactly the LINEAR descriptor at the index. -/
theorem State.linearField_ok {s : State} {f : Byte} {d : Descriptor} {p : LinearParams} :
    s.linearField f = .ok (d, p) ↔ LinearAt s.cfg f d p := by
  unfold State.linearField LinearAt fieldAt
  cases h : s.cfg.fields[f.toNat]? with
  | none => simp
  | some e =>
    obtain ⟨name, addr, bw, off, w, shape⟩ := e
    cases shape <;> simp <;> rintro rfl <;> simp

/-- The ENUM lookup finds exactly the ENUM descriptor at the index. -/
theorem State.enumField_ok {s : State} {f : Byte} {d : Descriptor} {maxOrd : Nat} :
    s.enumField f = .ok (d, maxOrd) ↔ EnumAt s.cfg f d maxOrd := by
  unfold State.enumField EnumAt fieldAt
  cases h : s.cfg.fields[f.toNat]? with
  | none => simp
  | some e =>
    obtain ⟨name, addr, bw, off, w, shape⟩ := e
    cases shape <;> simp <;> rintro rfl <;> simp

/-- The BOOL lookup finds exactly the BOOL descriptor at the index. -/
theorem State.boolField_ok {s : State} {f : Byte} {d : Descriptor} {inverted : Bool} :
    s.boolField f = .ok (d, inverted) ↔ BoolAt s.cfg f d inverted := by
  unfold State.boolField BoolAt fieldAt
  cases h : s.cfg.fields[f.toNat]? with
  | none => simp
  | some e =>
    obtain ⟨name, addr, bw, off, w, shape⟩ := e
    cases shape <;> simp <;> rintro rfl <;> simp

/-- A descriptor of a well-formed configuration passes its checks (spec R31). -/
theorem Config.wf_field {cfg : Config} (h : cfg.wf = true) {k : Nat} {d : Descriptor} (hd : cfg.fields[k]? = some d) :
    d.placed cfg.regAddrLimit = true ∧ d.shapeOk = true := by
  simp only [Config.wf, Bool.and_eq_true, List.all_eq_true] at h
  simpa [Descriptor.wf] using h.1.1.2 d (List.mem_of_getElem? hd)

/-- The registers of a well-formed configuration's field exist, and its slice lies inside them (spec R27). -/
theorem State.wf_field_holds {s : State} (h : s.cfg.wf = true) {k : Nat} {d : Descriptor} (hd : s.cfg.fields[k]? = some d) :
    s.holds d.addr d.bw = true ∧ 1 ≤ d.w ∧ d.off + d.w ≤ 8 * d.bw.bytes := by
  have := (Config.wf_field h hd).1
  simp [Descriptor.placed, State.holds, State.hasReg] at *
  omega

/-- A BOOL field of a well-formed configuration has one bit (spec R28). -/
theorem Config.wf_bool {cfg : Config} (h : cfg.wf = true) {f : Byte} {d : Descriptor} {inverted : Bool}
    (hd : BoolAt cfg f d inverted) : d.w = 1 := by
  simpa [Descriptor.shapeOk, hd.2] using (Config.wf_field h hd.1).2

/-- Every defined ordinal of an ENUM field of a well-formed configuration fits its bits (spec R29). -/
theorem Config.wf_enum {cfg : Config} (h : cfg.wf = true) {f : Byte} {d : Descriptor} {maxOrd : Nat}
    (hd : EnumAt cfg f d maxOrd) : maxOrd ≤ 2 ^ d.w - 1 := by
  simpa [Descriptor.shapeOk, hd.2] using (Config.wf_field h hd.1).2

/-- A LINEAR field of a well-formed configuration has a positive step (spec R30). -/
theorem Config.wf_linear {cfg : Config} (h : cfg.wf = true) {f : Byte} {d : Descriptor} {p : LinearParams}
    (hd : LinearAt cfg f d p) : 0 < p.step ∧ p.minPhys ≤ p.maxPhys := by
  simpa [Descriptor.shapeOk, hd.2] using (Config.wf_field h hd.1).2

/-- The constants of a well-formed configuration: both registers exist, and the part number fits its slice (spec R31). -/
theorem State.wf_constants {s : State} (h : s.cfg.wf = true) :
    s.holds s.cfg.partIdAddr .one = true ∧ s.cfg.partIdOffset + s.cfg.partIdWidth ≤ 8 ∧
      s.cfg.partIdExpected < 2 ^ s.cfg.partIdWidth ∧ s.holds s.cfg.resetAddr .one = true ∧ s.cfg.resetBit ≤ 7 := by
  simp [Config.wf, Config.partIdOk, Config.resetOk, State.holds, State.hasReg, ByteWidth.bytes] at *
  omega

/-- The parts of spec R27's check of a slice. -/
@[simp] theorem sliceFits_eq {off w : Nat} : sliceFits off w = true ↔ 1 ≤ w ∧ off + w ≤ 16 := by
  simp [sliceFits]

/-- Well-formedness of a configuration, check by check (spec R27 to R31; log entry 8). -/
theorem Config.wf_iff (c : Config) : c.wf = true ↔ (1 ≤ c.fields.length ∧ c.fields.length ≤ 256 ∧
      (∀ d ∈ c.fields, 1 ≤ d.w ∧ d.off + d.w ≤ 8 * d.bw.bytes ∧
        d.addr.toNat + d.bw.bytes - 1 ≤ c.regAddrLimit.toNat ∧
        (∀ inverted, d.shape = .bool inverted → d.w = 1) ∧
        (∀ maxOrd, d.shape = .enum maxOrd → maxOrd ≤ 2 ^ d.w - 1) ∧
        (∀ p, d.shape = .linear p → 0 < p.step ∧ p.minPhys ≤ p.maxPhys)) ∧
      c.partIdAddr.toNat ≤ c.regAddrLimit.toNat ∧ c.partIdOffset + c.partIdWidth ≤ 8 ∧
      c.partIdExpected < 2 ^ c.partIdWidth ∧
      c.resetAddr.toNat ≤ c.regAddrLimit.toNat ∧ c.resetBit ≤ 7) := by
  have hd : ∀ d : Descriptor, d.wf c.regAddrLimit = true ↔ (1 ≤ d.w ∧ d.off + d.w ≤ 8 * d.bw.bytes ∧
        d.addr.toNat + d.bw.bytes - 1 ≤ c.regAddrLimit.toNat ∧
        (∀ inverted, d.shape = .bool inverted → d.w = 1) ∧
        (∀ maxOrd, d.shape = .enum maxOrd → maxOrd ≤ 2 ^ d.w - 1) ∧
        (∀ p, d.shape = .linear p → 0 < p.step ∧ p.minPhys ≤ p.maxPhys)) := by
    rintro ⟨nm, ad, bw, off, w, sh⟩
    cases sh <;> simp [Descriptor.wf, Descriptor.placed, Descriptor.shapeOk, and_assoc]
  simp only [Config.wf, Config.partIdOk, Config.resetOk, Bool.and_eq_true, decide_eq_true_eq, List.all_eq_true, and_assoc]
  constructor
  · rintro ⟨a, b, h, r⟩; exact ⟨a, b, fun d m => (hd d).mp (h d m), r⟩
  · rintro ⟨a, b, h, r⟩; exact ⟨a, b, fun d m => (hd d).mpr (h d m), r⟩

end Sys2Proof.Machine
end

