-- ==== Sys2Proof/Laws/Step.lean ====
section
/-! SUPPORT. What a step can do: wait, refuse the next request, or run the instruction it decodes to. -/

namespace Sys2Proof.Machine

/-- A step with a request waiting refuses it for the decoder's reason, or runs its instruction. -/
theorem step_of_request {s : State} {r : Request} {rest : List Request} (hw : s.cfg.wf = true) (hs : s.stream = r :: rest) :
    step s = (decode s.cfg r).casesOn (fun e => .refused (.decode e)) fun i => exec i s.accept := by
  unfold step State.fetch
  rw [if_pos hw, hs]
  cases h : decode s.cfg r <;> simp [h]

/-- A step with no request waiting changes nothing. -/
theorem step_of_no_request {s : State} (hw : s.cfg.wf = true) (hs : s.stream = []) : step s = .next s := by
  unfold step State.fetch
  rw [if_pos hw, hs]

/-- A step of an ill-formed configuration is refused. -/
theorem step_of_ill_formed {s : State} (hw : s.cfg.wf = false) : step s = .refused .illFormedConfig := by
  simp [step, State.fetch, hw]

/-- A step that goes on either had no request and changed nothing, or ran the instruction its request decodes to. -/
theorem step_cases {s t : State} (h : step s = .next t) :
    (s.stream = [] ∧ t = s) ∨
    ∃ r rest i, s.stream = r :: rest ∧ decode s.cfg r = .ok i ∧ exec i s.accept = .next t := by
  by_cases hw : s.cfg.wf = true
  · cases hs : s.stream with
    | nil =>
      rw [step_of_no_request hw hs, Host.Outcome.next.injEq] at h
      exact .inl ⟨rfl, h.symm⟩
    | cons r rest =>
      rw [step_of_request hw hs] at h
      cases hd : decode s.cfg r with
      | error e => simp [hd] at h
      | ok i => exact .inr ⟨r, rest, i, rfl, hd, by simpa [hd] using h⟩
  · rw [step_of_ill_formed (by simpa using hw)] at h
    cases h

/-- A command that issues transport operations goes on exactly where the link is open. -/
theorem State.ifLinkOpen_next {s t u : State} : s.ifLinkOpen t = .next u ↔ s.linkOpen = true ∧ u = t := by
  unfold State.ifLinkOpen
  by_cases h : s.linkOpen = true
  · rw [if_pos h, Host.Outcome.next.injEq]
    exact ⟨fun e => ⟨h, e.symm⟩, fun e => e.2.symm⟩
  · simp [h]

end Sys2Proof.Machine
end

