-- ==== Sys2Proof/Laws/Commands.lean ====
section
/-! SUPPORT. What the masked write, GET, SET, the reset write and bring-up do, each said once; and every way an instruction can
go on. -/

namespace Sys2Proof.Machine

/-! ## The masked write -/

/-- A masked write completes exactly where both its phases do and every byte exists (spec R55). -/
theorem State.writeBits_fst (s : State) (a : Byte) (n : ByteWidth) (w off : Nat) (raw : Word) :
    (s.writeBits a n w off raw).1 = (s.holds a n && (s.drawAt 0).ok && (s.drawAt 1).ok) := by
  cases h : s.holds a n && s.nextDraw.ok with
  | false =>
    have hr : (s.memRead a n).1 = none := by simp [State.memRead_fst, h]
    simp [State.writeBits_of_read_failed hr, h]
  | true =>
    have hr : (s.memRead a n).1 = some (s.atPhase.load a n) := by simp [State.memRead_fst, h]
    have hh : (s.memRead a n).2.holds a n = s.holds a n := State.holds_congr (by simp) a n
    simp only [Bool.and_eq_true] at h
    simp [State.writeBits_of_read hr, State.memWrite_fst, hh, h]

/-- What a masked write leaves where both phases complete: the value its read found with the slice replaced, stored into
the registers its write finds, a reset started where that puts a 1 into the reset bit; then the device's reaction. -/
theorem State.writeBits_snd_of_ok {s : State} {a : Byte} {n : ByteWidth} (ha : s.holds a n = true)
    (h0 : (s.drawAt 0).ok = true) (h1 : (s.drawAt 1).ok = true) (w off : Nat) (raw : Word) :
    (s.writeBits a n w off raw).2 =
      ((((s.memRead a n).2.atPhase.store a n (insertBits (s.atPhase.load a n) off w raw)).startReset
        (writesReset s.cfg a n (insertBits (s.atPhase.load a n) off w raw))).device (s.drawAt 1).after).record (.writeBits a n w off raw true) := by
  have hr : (s.memRead a n).1 = some (s.atPhase.load a n) := by
    rw [State.drawAt_zero] at h0
    simp [State.memRead_fst, ha, h0]
  have hh : (s.memRead a n).2.holds a n = true := (State.holds_congr (by simp) a n).trans ha
  rw [State.drawAt_one] at h1
  rw [State.writeBits_of_read hr]
  simp [State.memWrite_fst, State.memWrite_snd, hh, h1]

/-- What a masked write leaves where its read fails: what the device made of the state. -/
theorem State.writeBits_snd_of_read_failed {s : State} {a : Byte} {n : ByteWidth} (h0 : (s.drawAt 0).ok = false)
    (w off : Nat) (raw : Word) :
    (s.writeBits a n w off raw).2 = (s.memRead a n).2.record (.writeBits a n w off raw false) := by
  rw [State.drawAt_zero] at h0
  rw [State.writeBits_of_read_failed (by simp [State.memRead_fst, h0])]

/-- What a masked write leaves where its write fails: the residue in the bytes it addressed. -/
theorem State.writeBits_snd_of_write_failed {s : State} {a : Byte} {n : ByteWidth} (ha : s.holds a n = true)
    (h0 : (s.drawAt 0).ok = true) (h1 : (s.drawAt 1).ok = false) (w off : Nat) (raw : Word) :
    (s.writeBits a n w off raw).2 =
      (((s.memRead a n).2.atPhase.store a n (s.drawAt 1).residue).device (s.drawAt 1).after).record
        (.writeBits a n w off raw false) := by
  have hr : (s.memRead a n).1 = some (s.atPhase.load a n) := by
    rw [State.drawAt_zero] at h0
    simp [State.memRead_fst, ha, h0]
  have hh : (s.memRead a n).2.holds a n = true := (State.holds_congr (by simp) a n).trans ha
  rw [State.drawAt_one] at h1
  rw [State.writeBits_of_read hr]
  simp [State.memWrite_fst, State.memWrite_snd, hh, h1]

/-- A phase whose draw is idle leaves the state but for the draw it took. -/
theorem State.memRead_idle {s : State} (hr : s.resetting = false) (hd : Idle (s.drawAt 0)) (a : Byte) (n : ByteWidth) :
    (s.memRead a n).2 = s.afterDraw := by
  rw [State.memRead_snd, State.atPhase_idle hr hd.1]
  exact State.device_idle (by simpa using hr) hd.2

/-! ## A value with a slice replaced, stored -/

/-- The bits of the registers after a slice of the value read from registers of that width was replaced and stored. -/
theorem State.store_insert_testBit {s : State} (h : s.regsOk = true) {a : Byte} {n : ByteWidth} (ha : s.holds a n = true)
    {w off : Nat} (x raw : Word) {k : Nat} (hk : k < 8 * n.bytes) :
    ((s.store a n (insertBits x off w raw)).regValue a n).testBit k =
      if off ≤ k ∧ k < off + w then raw.toNat.testBit (k - off) else x.toNat.testBit k := by
  have h16 : k < 16 := by cases n <;> simp [ByteWidth.bytes] at hk <;> omega
  rw [State.store_regValue h ha, Nat.testBit_mod_two_pow]
  have hi := insertBits_getLsbD x raw off w h16
  simp only [BitVec.getLsbD] at hi
  simp [hk, hi]

/-- The slice of the registers after it was replaced and stored is the raw value, cut to the slice. -/
theorem State.store_insert_sliceOf {s : State} (h : s.regsOk = true) {a : Byte} {n : ByteWidth} (ha : s.holds a n = true)
    {w off : Nat} (hw : off + w ≤ 8 * n.bytes) (x raw : Word) :
    sliceOf ((s.store a n (insertBits x off w raw)).regValue a n) off w = raw.toNat % 2 ^ w := by
  refine Nat.eq_of_testBit_eq fun k => ?_
  rw [sliceOf, Nat.testBit_mod_two_pow, Nat.testBit_mod_two_pow, Nat.testBit_div_two_pow]
  by_cases hk : k < w
  · rw [State.store_insert_testBit h ha x raw (by omega), if_pos (by omega)]
    simp [hk]
  · simp [hk]

@[simp] theorem State.record_regValue (s : State) (e : TraceEntry) (a : Byte) (n : ByteWidth) :
    (s.record e).regValue a n = s.regValue a n := rfl

@[simp] theorem State.afterDraw_regValue (s : State) (a : Byte) (n : ByteWidth) :
    s.afterDraw.regValue a n = s.regValue a n := by
  cases n <;> simp [State.regValue]

@[simp] theorem State.afterDraw_holds (s : State) (a : Byte) (n : ByteWidth) : s.afterDraw.holds a n = s.holds a n :=
  State.holds_congr (by simp) a n

@[simp] theorem State.afterDraw_load (s : State) (a : Byte) (n : ByteWidth) : s.afterDraw.load a n = s.load a n := by
  cases n <;> simp [State.load]

theorem State.drawAt_succ (s : State) (k : Nat) : s.drawAt (k + 1) = s.afterDraw.drawAt k := rfl

theorem State.drawAt_congr {s t : State} (hs : t.script = s.script) (he : t.env = s.env) (k : Nat) : t.drawAt k = s.drawAt k := by
  induction k generalizing s t with
  | zero => exact State.nextDraw_congr hs he
  | succ k ih =>
    apply ih <;> simp [State.afterDraw, hs, he] <;> cases s.script <;> simp <;> cases s.env <;> simp [hs, he]

/-- A masked write on a device idle up to it: what it leaves for the device to react to. -/
theorem State.writeBits_idle {s : State} {a : Byte} {n : ByteWidth} (ha : s.holds a n = true) (hr : s.resetting = false)
    (i0 : Idle (s.drawAt 0)) (i1 : IdleEvents (s.drawAt 1).before) (h0 : (s.drawAt 0).ok = true)
    (h1 : (s.drawAt 1).ok = true) (w off : Nat) (raw : Word) :
    (s.writeBits a n w off raw).2 =
      (((s.afterDraw.afterDraw.store a n (insertBits (s.load a n) off w raw)).startReset
        (writesReset s.cfg a n (insertBits (s.load a n) off w raw))).device (s.drawAt 1).after).record
          (.writeBits a n w off raw true) := by
  rw [State.writeBits_snd_of_ok ha h0 h1, State.memRead_idle hr i0, State.atPhase_idle hr i0.1,
    State.atPhase_idle (by simpa using hr) (by simpa using i1)]
  simp

/-- The device's reaction to a write changes nothing where it is idle and the write starts no reset, and where there is
none. -/
theorem State.startReset_device {s : State} (hr : s.resetting = false) {b : Bool} {es : List DeviceEvent} (hes : IdleEvents es)
    (h : b = false ∨ es = []) : (s.startReset b).device es = s.startReset b := by
  rcases h with rfl | rfl
  · exact State.device_idle hr hes
  · rfl

@[simp] theorem State.startReset_regValue (s : State) (b : Bool) (a : Byte) (n : ByteWidth) :
    (s.startReset b).regValue a n = s.regValue a n := by
  cases b <;> rfl

/-! ## Writes that reach the reset bit (log entry 4) -/

/-- The reset write of spec R142 puts a 1 into the reset bit. -/
theorem writesReset_resetWrite {cfg : Config} (hb : cfg.resetBit ≤ 7) (x : Word) :
    writesReset cfg cfg.resetAddr .one (insertBits x cfg.resetBit 1 1) = true := by
  have h := insertBits_getLsbD x 1 cfg.resetBit 1 (k := cfg.resetBit) (by omega)
  rw [if_pos (by omega), Nat.sub_self] at h
  simp only [writesReset, h, decide_true, Bool.true_and]
  rfl

/-- A write of a value starts a reset exactly where the value's bit over the reset bit is 1. -/
theorem writesReset_eq (cfg : Config) (a : Byte) (n : ByteWidth) (v : Word) :
    writesReset cfg a n v = true ↔ addressed a n cfg.resetAddr.toNat ∧ v.getLsbD (resetBitOf cfg a n) = true := by
  have haddr : cfg.resetAddr = a ↔ cfg.resetAddr.toNat = a.toNat :=
    ⟨fun h => by rw [h], fun h => BitVec.eq_of_toNat_eq h⟩
  cases n
  · simp only [writesReset, addressed, resetBitOf, ByteWidth.bytes, Bool.and_eq_true, decide_eq_true_eq, haddr]
    constructor
    · rintro ⟨h, hv⟩
      refine ⟨by omega, ?_⟩
      rwa [show cfg.resetBit + 8 * (a.toNat + 1 - 1 - cfg.resetAddr.toNat) = cfg.resetBit by omega]
    · rintro ⟨h, hv⟩
      refine ⟨by omega, ?_⟩
      rwa [show cfg.resetBit + 8 * (a.toNat + 1 - 1 - cfg.resetAddr.toNat) = cfg.resetBit by omega] at hv
  · simp only [writesReset, addressed, resetBitOf, ByteWidth.bytes, Bool.and_eq_true, Bool.or_eq_true,
      decide_eq_true_eq, haddr]
    constructor
    · rintro (⟨h, hv⟩ | ⟨h, hv⟩)
      · refine ⟨by omega, ?_⟩
        rwa [show cfg.resetBit + 8 * (a.toNat + 2 - 1 - cfg.resetAddr.toNat) = 8 + cfg.resetBit by omega]
      · refine ⟨by omega, ?_⟩
        rwa [show cfg.resetBit + 8 * (a.toNat + 2 - 1 - cfg.resetAddr.toNat) = cfg.resetBit by omega]
    · rintro ⟨h, hv⟩
      by_cases he : cfg.resetAddr.toNat = a.toNat
      · rw [show cfg.resetBit + 8 * (a.toNat + 2 - 1 - cfg.resetAddr.toNat) = 8 + cfg.resetBit by omega] at hv
        exact .inl ⟨he, hv⟩
      · rw [show cfg.resetBit + 8 * (a.toNat + 2 - 1 - cfg.resetAddr.toNat) = cfg.resetBit by omega] at hv
        exact .inr ⟨by omega, hv⟩

/-- A stored value starts a reset exactly where it leaves a 1 in the reset bit. -/
theorem State.store_writesReset {s : State} (h : s.regsOk = true) {a : Byte} {n : ByteWidth} (ha : s.holds a n = true)
    (hb : s.cfg.resetBit ≤ 7) (v : Word) :
    writesReset s.cfg a n v = true ↔ addressed a n s.cfg.resetAddr.toNat ∧
      ((s.store a n v).peek s.cfg.resetAddr.toNat).getLsbD s.cfg.resetBit = true := by
  rw [writesReset_eq]
  refine and_congr_right fun had => ?_
  have hb8 : s.cfg.resetBit < 8 := by omega
  cases n <;> simp only [addressed, ByteWidth.bytes] at had
  · have hk : resetBitOf s.cfg a .one = s.cfg.resetBit := by simp only [resetBitOf, ByteWidth.bytes]; omega
    rw [State.store_one_peek h ha, if_pos (by omega), hk]
    simp [hb8]
  · rw [State.store_two_peek h ha]
    by_cases he : s.cfg.resetAddr.toNat = a.toNat
    · have hk : resetBitOf s.cfg a .two = 8 + s.cfg.resetBit := by simp only [resetBitOf, ByteWidth.bytes]; omega
      rw [if_pos he, hk]
      simp [hb8]
    · have hk : resetBitOf s.cfg a .two = s.cfg.resetBit := by simp only [resetBitOf, ByteWidth.bytes]; omega
      rw [if_neg he, if_pos (by omega), hk]
      simp [hb8]

/-- A SET's write starts a reset exactly where the SET leaves a 1 in the reset bit. -/
theorem writesReset_insert {s : State} {d : Descriptor} {raw : Nat} (hb : s.cfg.resetBit ≤ 7)
    (hw : d.off + d.w ≤ 8 * d.bw.bytes) (hraw : raw < 2 ^ d.w) :
    writesReset s.cfg d.addr d.bw (insertBits (s.load d.addr d.bw) d.off d.w (BitVec.ofNat 16 raw)) = true ↔
      s.SetsResetBit d raw := by
  rw [writesReset_eq]
  refine and_congr_right fun ha => ?_
  have hk : resetBitOf s.cfg d.addr d.bw < 16 := by
    cases hbw : d.bw <;> simp only [hbw, addressed, resetBitOf, ByteWidth.bytes] at ha ⊢ <;> omega
  have h16 : d.w ≤ 16 := by cases hbw : d.bw <;> simp only [hbw, ByteWidth.bytes] at hw <;> omega
  have hlt : raw < 2 ^ 16 := lt_of_lt_of_le hraw (Nat.pow_le_pow_right (by omega) h16)
  rw [insertBits_getLsbD _ _ _ _ hk]
  split
  · rw [BitVec.getLsbD, BitVec.toNat_ofNat, Nat.mod_eq_of_lt hlt]
  · rw [BitVec.getLsbD, State.load_toNat]

/-! ## GET and SET -/

/-- What a GET of a field leaves and answers where its read completes (spec R121 to R123). -/
theorem State.getField_of_ok {s : State} {d : Descriptor} (ha : s.holds d.addr d.bw = true) (h0 : s.nextDraw.ok = true)
    (w : Nat) (decoded : Nat → Value) :
    s.getField d w decoded =
      (((s.atPhase.device s.nextDraw.after).record
        (.readBits d.addr d.bw w d.off (some (extractBits (s.atPhase.load d.addr d.bw) d.off w)))).respond
        (decoded (extractBits (s.atPhase.load d.addr d.bw) d.off w).toNat)) := by
  have h : (s.readBits d.addr d.bw w d.off).1 = some (extractBits (s.atPhase.load d.addr d.bw) d.off w) := by
    simp [State.readBits_fst, ha, h0]
  have h2 := State.readBits_snd s d.addr d.bw w d.off
  unfold State.getField
  split <;> rename_i heq <;> simp_all

/-- What a GET of a field leaves and answers where its read fails. -/
theorem State.getField_of_failed {s : State} {d : Descriptor} (h0 : s.nextDraw.ok = false) (w : Nat)
    (decoded : Nat → Value) :
    s.getField d w decoded =
      ((s.atPhase.device s.nextDraw.after).record (.readBits d.addr d.bw w d.off none)).raise .transportFailure := by
  have h : (s.readBits d.addr d.bw w d.off).1 = none := by simp [State.readBits_fst, h0]
  have h2 := State.readBits_snd s d.addr d.bw w d.off
  unfold State.getField
  split <;> rename_i heq <;> simp_all

/-- A SET of a field answers `OK` or TransportFailure as its masked write completes or fails (spec R124 to R126). -/
theorem State.setField_eq (s : State) (d : Descriptor) (w raw : Nat) :
    s.setField d w raw =
      (s.writeBits d.addr d.bw w d.off (BitVec.ofNat 16 raw)).2.answer
        { status := if (s.writeBits d.addr d.bw w d.off (BitVec.ofNat 16 raw)).1 then .ok else .transportFailure,
          result := .none } := by
  unfold State.setField
  split <;> rename_i heq <;> simp [heq, State.respond_eq_answer, State.raise_eq_answer]

/-- The slice a GET extracts is the field's raw value, and fits sixteen bits. -/
theorem State.extract_load {s : State} {d : Descriptor} (h : d.off + d.w ≤ 8 * d.bw.bytes) :
    (extractBits (s.load d.addr d.bw) d.off d.w).toNat = s.fieldRaw d := by
  rw [extractBits_toNat _ _ (by cases hb : d.bw <;> simp [hb, ByteWidth.bytes] at h <;> omega), State.load_toNat]
  rfl

theorem State.extract_load_eq {s : State} {d : Descriptor} (h : d.off + d.w ≤ 8 * d.bw.bytes) :
    extractBits (s.load d.addr d.bw) d.off d.w = BitVec.ofNat 16 (s.fieldRaw d) := by
  rw [← State.extract_load h]
  simp

/-- The three SETs with a valid value are the same operation, with the raw value their shape gives (spec R124 to R126). -/
theorem exec_of_sets {s : State} (hw : s.cfg.wf = true) {i : Instr} {d : Descriptor} {raw : Nat}
    (h : Sets s.cfg i d raw) :
    exec i s = s.ifLinkOpen (s.setField d d.w raw) ∧ raw < 2 ^ d.w ∧ ∃ k : Nat, s.cfg.fields[k]? = some d := by
  have hpos := fun n : Nat => Nat.two_pow_pos n
  cases i with
  | setLin f v =>
    obtain ⟨p, hd, hf, hv, rfl⟩ := h
    refine ⟨by simp [exec, execSetLin, State.linearField_ok.mpr hd, hf, hv], ?_, _, hd.1⟩
    have := qnt_le s.cfg.arith p d.w v
    have := hpos d.w
    simp only [rawMax] at *
    omega
  | setEnum f n =>
    obtain ⟨m, hd, hn, rfl⟩ := h
    have := Config.wf_enum hw hd
    have := hpos d.w
    refine ⟨?_, by omega, _, hd.1⟩
    simp [exec, execSetEnum, State.enumField_ok.mpr hd, validEnum, hn, encEnum_of_le (w := d.w) (n := raw) (by simp [rawMax]; omega)]
  | setBool f b =>
    obtain ⟨inverted, hd, rfl⟩ := h
    have h1 := Config.wf_bool hw hd
    refine ⟨by simp [exec, execSetBool, State.boolField_ok.mpr hd, encBool_eq, h1], ?_, _, hd.1⟩
    rw [h1]
    split <;> omega
  | _ => cases h

/-- The three GETs are the same operation, with the decode rule of their shape (spec R121 to R123). -/
theorem exec_of_gets {s : State} (hw : s.cfg.wf = true) {i : Instr} {d : Descriptor} {decoded : Nat → Value}
    (h : Gets s.cfg i d decoded) :
    exec i s = s.ifLinkOpen (s.getField d d.w decoded) ∧ ∃ k : Nat, s.cfg.fields[k]? = some d := by
  cases i with
  | getLin f =>
    obtain ⟨p, hd, rfl⟩ := h
    exact ⟨by simp [exec, execGetLin, State.linearField_ok.mpr hd], _, hd.1⟩
  | getEnum f =>
    obtain ⟨m, hd, rfl⟩ := h
    exact ⟨by simp [exec, execGetEnum, State.enumField_ok.mpr hd, decEnum], _, hd.1⟩
  | getBool f =>
    obtain ⟨inverted, hd, rfl⟩ := h
    exact ⟨by simp [exec, execGetBool, State.boolField_ok.mpr hd, Config.wf_bool hw hd, decBool_eq], _, hd.1⟩
  | _ => cases h

/-! ## Bring-up and reset -/

/-- The reset write answers `OK` or TransportFailure as it completes or fails (spec R142). -/
theorem State.triggerReset_eq (s : State) :
    s.triggerReset =
      s.resetWrite.2.answer { status := if s.resetWrite.1 then .ok else .transportFailure, result := .none } := by
  unfold State.triggerReset
  split <;> rename_i heq <;> simp [heq, State.respond_eq_answer, State.raise_eq_answer]

/-- The trace a reset write adds. -/
theorem State.resetWrite_trace (s : State) :
    s.resetWrite.2.trace = s.trace ++ [.writeBits s.cfg.resetAddr .one 1 s.cfg.resetBit 1 s.resetWrite.1] :=
  State.writeBits_trace ..

/-- The three ends of identification: the read failed, the part number is wrong, or the reset is written (spec R140). -/
theorem State.identify_cases (s : State) :
    let r := s.readBits s.cfg.partIdAddr .one s.cfg.partIdWidth s.cfg.partIdOffset
    (r.1 = none ∧ s.identify = r.2.raise .transportFailure) ∨
    ∃ p, r.1 = some p ∧
      ((p.toNat ≠ s.cfg.partIdExpected ∧ s.identify = r.2.raise .identificationMismatch) ∨
        (p.toNat = s.cfg.partIdExpected ∧ s.identify = r.2.triggerReset)) := by
  unfold State.identify
  dsimp only
  split
  · rename_i t heq
    exact .inl (by simp [heq])
  · rename_i p t heq
    refine .inr ⟨p, by simp [heq], ?_⟩
    by_cases hp : p.toNat = s.cfg.partIdExpected
    · exact .inr (by simp [heq, hp])
    · exact .inl (by simp [heq, hp])

/-- Bring-up ends where the link does not open, and otherwise identifies the part (spec R140). -/
theorem State.bringUp_eq (s : State) (busAddr : Byte) (h : Handle) :
    s.bringUp busAddr h =
      if s.nextDraw.ok then (s.openLink busAddr h).2.identify else (s.openLink busAddr h).2.raise .transportFailure := by
  have h1 := State.openLink_fst s busAddr h
  unfold State.bringUp
  split <;> rename_i heq <;> simp_all

/-! ## The quiescent device -/

/-- A quiet draw is idle. -/
theorem idle_quiet : Idle Draw.quiet := ⟨by simp [Draw.quiet, IdleEvents], by simp [Draw.quiet, IdleEvents]⟩

/-- On the quiescent device every draw to come is quiet. -/
theorem State.Quiescent.drawAt {s : State} (hq : s.Quiescent) (k : Nat) : s.drawAt k = Draw.quiet := by
  induction k generalizing s with
  | zero => exact hq.draw.1
  | succ k ih =>
    rw [State.drawAt_succ, hq.draw.2]
    exact ih hq

/-- On the quiescent device `Open` opens the link and does nothing else. -/
theorem State.Quiescent.openLink {s : State} (hq : s.Quiescent) (busAddr : Byte) (h : Handle) :
    (s.openLink busAddr h).2 = (s.setLink true).record (.opened busAddr h true) := by
  have h1 : (s.setLink true).device Draw.quiet.after = s.setLink true :=
    State.device_quiet_after (by simpa using hq.resetting)
  simp only [State.openLink, hq.atPhase, hq.draw.1]
  rw [show Draw.quiet.ok = true from rfl, h1]

/-- On the quiescent device a read answers the slice and does nothing else. -/
theorem State.Quiescent.readBits {s : State} (hq : s.Quiescent) {a : Byte} {n : ByteWidth} (ha : s.holds a n = true)
    (w off : Nat) :
    s.readBits a n w off = (some (extractBits (s.load a n) off w),
      s.record (.readBits a n w off (some (extractBits (s.load a n) off w)))) := by
  have hf : (s.readBits a n w off).1 = some (extractBits (s.load a n) off w) := by
    rw [State.readBits_fst, hq.draw.1, ha, hq.atPhase]
    rfl
  have h2 := State.readBits_snd s a n w off
  rw [hf, hq.atPhase, hq.draw.1, State.device_quiet_after hq.resetting] at h2
  exact Prod.ext hf h2

/-- On the quiescent device the reset write returns the registers to their power-on values at once (spec R144). -/
theorem State.Quiescent.resetWrite {s : State} (hq : s.Quiescent) (hw : s.cfg.wf = true) :
    s.resetWrite = (true,
      ((s.store s.cfg.resetAddr .one (insertBits (s.load s.cfg.resetAddr .one) s.cfg.resetBit 1 1)).startReset
        true).toDefaults.record (.writeBits s.cfg.resetAddr .one 1 s.cfg.resetBit 1 true)) := by
  obtain ⟨-, -, -, ha, hb⟩ := State.wf_constants hw
  have hm : (s.memRead s.cfg.resetAddr .one).2 = s := by
    rw [State.memRead_snd, hq.atPhase, hq.draw.1, State.device_quiet_after hq.resetting]
  refine Prod.ext ?_ ?_
  · rw [State.resetWrite, State.writeBits_fst, hq.drawAt, hq.drawAt, ha]
    rfl
  · rw [State.resetWrite, State.writeBits_snd_of_ok ha (by rw [hq.drawAt]; rfl) (by rw [hq.drawAt]; rfl), hm, hq.atPhase,
      writesReset_resetWrite hb, hq.drawAt, State.device_quiet_after_reset (by rfl)]

/-! ## Power-on values -/

/-- A cleared bit is 0 and the others are as before. -/
theorem clearBit_getLsbD (b : Byte) {i k : Nat} (hk : k < 8) :
    (clearBit b i).getLsbD k = (b.getLsbD k && decide (k ≠ i)) := by
  simp only [clearBit, BitVec.getLsbD_and, BitVec.getLsbD_not, BitVec.getLsbD_shiftLeft, hk, decide_true, Bool.true_and]
  by_cases h : k < i
  · have : k ≠ i := by omega
    simp [h, this]
  · by_cases he : k = i
    · subst he
      simp
    · have : k - i ≠ 0 := by omega
      have h1 : (1#8).getLsbD (k - i) = false := by simp [BitVec.getLsbD_one, this]
      simp [h1, he]

/-- A register with a specified power-on value holds it; of the reset register, every bit but the reset bit does, which is
0 (spec R144, R171). -/
theorem powerOnByte_spec (cfg : Config) (epoch : Nat) (hb : cfg.resetBit ≤ 7) :
    (∀ a b, cfg.por.lookup a = some b → a ≠ cfg.resetAddr.toNat → powerOnByte cfg epoch a = b) ∧
    (∀ b, cfg.por.lookup cfg.resetAddr.toNat = some b → ∀ k, k < 8 → k ≠ cfg.resetBit →
      (powerOnByte cfg epoch cfg.resetAddr.toNat).getLsbD k = b.getLsbD k) ∧
    (powerOnByte cfg epoch cfg.resetAddr.toNat).getLsbD cfg.resetBit = false := by
  refine ⟨fun a b h ha => by simp [powerOnByte, h, ha], fun b h k hk hne => ?_, ?_⟩
  · simp only [powerOnByte, h, if_true]
    rw [clearBit_getLsbD _ hk]
    simp [hne]
  · simp only [powerOnByte, if_true]
    rw [clearBit_getLsbD _ (by omega)]
    simp

/-! ## Everything an instruction can do -/

/-- A GET answers from what its one `ReadBits` gave, and leaves what that left. -/
theorem State.getField_eq (s : State) (d : Descriptor) (w : Nat) (decoded : Nat → Value) :
    s.getField d w decoded =
      (s.readBits d.addr d.bw w d.off).2.answer
        (match (s.readBits d.addr d.bw w d.off).1 with
          | none => { status := .transportFailure, result := .none }
          | some r => { status := .ok, result := decoded r.toNat }) := by
  unfold State.getField
  split <;> rename_i heq <;> simp [heq, State.respond_eq_answer, State.raise_eq_answer]

/-- The ways an instruction goes on: it answers at once, with a value or a validation failure, or it is one of the four
shared operations over the transport. -/
theorem exec_cases {i : Instr} {s t : State} (h : exec i s = .next t) :
    (∃ v, t = s.respond v ∧
      (((∃ f raw, i = .dequant f raw) ∧ ∃ q, v = .phys q) ∨
        (((∃ off w x, i = .extract off w x) ∨ (∃ off w x r, i = .insert off w x r) ∨ ∃ f q, i = .quant f q) ∧
          ∃ x, v = .word x))) ∨
    (t = s.raise .validationFailure ∧ ((∃ f v, i = .setLin f v) ∨ ∃ f n, i = .setEnum f n)) ∨
    (∃ d w decoded, s.linkOpen = true ∧ t = s.getField d w decoded ∧
      (((∃ f, i = .getLin f) ∧ ∀ n, ∃ q, decoded n = .phys q) ∨ ((∃ f, i = .getEnum f) ∧ ∀ n, ∃ k, decoded n = .ord k) ∨
        ((∃ f, i = .getBool f) ∧ ∀ n, ∃ b, decoded n = .flag b))) ∨
    (∃ d w raw, s.linkOpen = true ∧ t = s.setField d w raw ∧
      ((∃ f v, i = .setLin f v) ∨ (∃ f n, i = .setEnum f n) ∨ ∃ f b, i = .setBool f b)) ∨
    (s.linkOpen = true ∧ t = s.triggerReset ∧ i = .reset) ∨
    ∃ busAddr hd, t = s.bringUp busAddr hd ∧ i = .bringup busAddr hd := by
  cases i with
  | getLin f =>
    simp only [exec, execGetLin] at h
    split at h
    · cases h
    · obtain ⟨hl, rfl⟩ := State.ifLinkOpen_next.mp h
      exact .inr (.inr (.inl ⟨_, _, _, hl, rfl, .inl ⟨⟨f, rfl⟩, fun n => ⟨_, rfl⟩⟩⟩))
  | getEnum f =>
    simp only [exec, execGetEnum] at h
    split at h
    · cases h
    · obtain ⟨hl, rfl⟩ := State.ifLinkOpen_next.mp h
      exact .inr (.inr (.inl ⟨_, _, _, hl, rfl, .inr (.inl ⟨⟨f, rfl⟩, fun n => ⟨_, rfl⟩⟩)⟩))
  | getBool f =>
    simp only [exec, execGetBool] at h
    split at h
    · cases h
    · obtain ⟨hl, rfl⟩ := State.ifLinkOpen_next.mp h
      exact .inr (.inr (.inl ⟨_, _, _, hl, rfl, .inr (.inr ⟨⟨f, rfl⟩, fun n => ⟨_, rfl⟩⟩)⟩))
  | setLin f v =>
    simp only [exec, execSetLin] at h
    split at h
    · cases h
    · split at h
      · split at h
        · obtain ⟨hl, rfl⟩ := State.ifLinkOpen_next.mp h
          exact .inr (.inr (.inr (.inl ⟨_, _, _, hl, rfl, .inl ⟨f, v, rfl⟩⟩)))
        · cases h
          exact .inr (.inl ⟨rfl, .inl ⟨f, v, rfl⟩⟩)
      · cases h
  | setEnum f n =>
    simp only [exec, execSetEnum] at h
    split at h
    · cases h
    · split at h
      · obtain ⟨hl, rfl⟩ := State.ifLinkOpen_next.mp h
        exact .inr (.inr (.inr (.inl ⟨_, _, _, hl, rfl, .inr (.inl ⟨f, n, rfl⟩)⟩)))
      · cases h
        exact .inr (.inl ⟨rfl, .inr ⟨f, n, rfl⟩⟩)
  | setBool f b =>
    simp only [exec, execSetBool] at h
    split at h
    · cases h
    · obtain ⟨hl, rfl⟩ := State.ifLinkOpen_next.mp h
      exact .inr (.inr (.inr (.inl ⟨_, _, _, hl, rfl, .inr (.inr ⟨f, b, rfl⟩)⟩)))
  | bringup busAddr hd =>
    cases h
    exact .inr (.inr (.inr (.inr (.inr ⟨busAddr, hd, rfl, rfl⟩))))
  | reset =>
    obtain ⟨hl, rfl⟩ := State.ifLinkOpen_next.mp h
    exact .inr (.inr (.inr (.inr (.inl ⟨hl, rfl, rfl⟩))))
  | extract off w x =>
    simp only [exec, execExtract] at h
    split at h
    · cases h
      exact .inl ⟨_, rfl, .inr ⟨.inl ⟨off, w, x, rfl⟩, _, rfl⟩⟩
    · cases h
  | insert off w x r =>
    simp only [exec, execInsert] at h
    split at h
    · cases h
      exact .inl ⟨_, rfl, .inr ⟨.inr (.inl ⟨off, w, x, r, rfl⟩), _, rfl⟩⟩
    · cases h
  | dequant f raw =>
    simp only [exec, execDequant] at h
    split at h
    · cases h
    · split at h
      · cases h
        exact .inl ⟨_, rfl, .inl ⟨⟨f, raw, rfl⟩, _, rfl⟩⟩
      · cases h
  | quant f v =>
    simp only [exec, execQuant] at h
    split at h
    · cases h
    · split at h
      · cases h
        exact .inl ⟨_, rfl, .inr ⟨.inr (.inr ⟨f, v, rfl⟩), _, rfl⟩⟩
      · cases h

/-- The ends of bring-up, each the state an operation left with its answer (spec R140). -/
theorem State.bringUp_cases (s : State) (busAddr : Byte) (h : Handle) :
    let o := (s.openLink busAddr h).2
    let r := o.readBits s.cfg.partIdAddr .one s.cfg.partIdWidth s.cfg.partIdOffset
    (s.nextDraw.ok = false ∧ s.bringUp busAddr h = o.raise .transportFailure) ∨
    (s.nextDraw.ok = true ∧ r.1 = none ∧ s.bringUp busAddr h = r.2.raise .transportFailure) ∨
    ∃ p, s.nextDraw.ok = true ∧ r.1 = some p ∧
      ((p.toNat ≠ s.cfg.partIdExpected ∧ s.bringUp busAddr h = r.2.raise .identificationMismatch) ∨
        (p.toNat = s.cfg.partIdExpected ∧ s.bringUp busAddr h = r.2.triggerReset)) := by
  dsimp only
  rw [State.bringUp_eq]
  have hid := State.identify_cases (s.openLink busAddr h).2
  simp only [State.openLink_cfg] at hid
  cases h0 : s.nextDraw.ok
  · exact .inl (by simp)
  · rcases hid with ⟨hn, he⟩ | ⟨p, hp, hc⟩
    · exact .inr (.inl ⟨rfl, hn, by simpa using he⟩)
    · exact .inr (.inr ⟨p, rfl, hp, by simpa using hc⟩)

end Sys2Proof.Machine
end

