-- ==== Sys2Proof/Laws/PerInstr.lean ====
section
/-! SUPPORT. A statement made per instruction: the reserved bits of its encoding are zero (spec R71, R81). -/

namespace Sys2Proof.Laws.ReservedZero

/-- The encoding of an instruction has `CMD[11:8] = 0000` (spec R71). -/
def Statement (i : Instr) : Prop := (encode i).cmd.toNat / 256 % 16 = 0

/-- A command word built from an opcode and an argument has its reserved bits zero. -/
theorem of_commandWord (op : BitVec 4) (arg : Byte) : (commandWord op arg).toNat / 256 % 16 = 0 := by
  rw [commandWord_toNat]
  have := arg.isLt
  omega

theorem getLin (f : Byte) : Statement (.getLin f) := of_commandWord _ _

theorem getEnum (f : Byte) : Statement (.getEnum f) := of_commandWord _ _

theorem getBool (f : Byte) : Statement (.getBool f) := of_commandWord _ _

theorem setLin (f : Byte) (v : Rat) : Statement (.setLin f v) := of_commandWord _ _

theorem setEnum (f : Byte) (n : Nat) : Statement (.setEnum f n) := of_commandWord _ _

theorem setBool (f : Byte) (b : Bool) : Statement (.setBool f b) := of_commandWord _ _

theorem bringup (busAddr : Byte) (h : Handle) : Statement (.bringup busAddr h) := of_commandWord _ _

theorem reset : Statement .reset := of_commandWord _ _

theorem extract (off w : Nat) (x : Word) : Statement (.extract off w x) := of_commandWord _ _

theorem insert (off w : Nat) (x r : Word) : Statement (.insert off w x r) := of_commandWord _ _

theorem dequant (f : Byte) (raw : Word) : Statement (.dequant f raw) := of_commandWord _ _

theorem quant (f : Byte) (v : Rat) : Statement (.quant f v) := of_commandWord _ _

end Sys2Proof.Laws.ReservedZero
end

