-- ==== Sys2Proof/Tests/Slice0.lean ====
section
/-! SUPPORT. Tests: the well-formedness checks, decoding, single steps from the spec's 95_test_vectors.md (the vector's number
stands in each comment), and a witness for the hypotheses of each statement. -/

open Sys2Proof Sys2Proof.Machine

namespace Sys2Proof.Tests

/-! ## Well-formedness (spec R27 to R31): one ill-formed term for each check -/

/-- The fixture's first field, with one member changed by each test. -/
def vsys : Descriptor :=
  { name := "VSYSMIN", addr := 0x00, bw := .one, off := 0, w := 6,
    shape := .linear { step := mkRat 1 4, base := mkRat 5 2, minPhys := mkRat 5 2, maxPhys := 16 } }

/-- The constants of that field. -/
def vsysParams : LinearParams := { step := mkRat 1 4, base := mkRat 5 2, minPhys := mkRat 5 2, maxPhys := 16 }

/-- The fixture's ENUM field. -/
def modeE : Descriptor := { name := "MODE_E", addr := 0x10, bw := .one, off := 4, w := 2, shape := .enum 2 }

/-- The fixture's inverted BOOL field. -/
def enInv : Descriptor := { name := "EN_INV", addr := 0x0F, bw := .one, off := 7, w := 1, shape := .bool true }

/-- A BOOL field on the fixture's reset bit, as D29 lets a table have it. -/
def rstBit : Descriptor := { name := "RST", addr := 0x09, bw := .one, off := 6, w := 1, shape := .bool false }

/-- An ENUM field there. -/
def rstEnum : Descriptor := { rstBit with shape := .enum 1 }

/-- The constants of a LINEAR field there. -/
def rstParams : LinearParams := { step := 1, base := 0, minPhys := 0, maxPhys := 1 }

/-- A LINEAR field there. -/
def rstLin : Descriptor := { rstBit with shape := .linear rstParams }

/-- The fixture with one field in its table. -/
def only (d : Descriptor) : Config := { Config.fixture with fields := [d] }

theorem test_wf_fixture : Config.fixture.wf = true := by decide

theorem test_wf_width_zero : (only { vsys with w := 0 }).wf = false := by decide

theorem test_wf_slice_outside_bytes : (only { vsys with off := 3 }).wf = false := by decide

theorem test_wf_register_missing : (only { vsys with addr := 0x2E, bw := .two }).wf = false := by decide

theorem test_wf_last_register : (only { vsys with addr := 0x2D, bw := .two }).wf = true := by decide

theorem test_wf_bool_two_bits : (only { enInv with off := 6, w := 2 }).wf = false := by decide

theorem test_wf_ordinal_too_big : (only { modeE with shape := .enum 4 }).wf = false := by decide

theorem test_wf_step_zero : (only { vsys with shape := .linear { vsysParams with step := 0 } }).wf = false := by decide

theorem test_wf_empty_range : (only { vsys with shape := .linear { vsysParams with maxPhys := 2 } }).wf = false := by decide

theorem test_wf_no_field : { Config.fixture with fields := [] }.wf = false := by decide

theorem test_wf_too_many_fields : { Config.fixture with fields := List.replicate 257 modeE }.wf = false := by decide +kernel

theorem test_wf_part_register_missing : { Config.fixture with partIdAddr := 0x48 }.wf = false := by decide

theorem test_wf_part_slice_outside : { Config.fixture with partIdOffset := 6 }.wf = false := by decide

theorem test_wf_part_number_too_big : { Config.fixture with partIdExpected := 8 }.wf = false := by decide

theorem test_wf_reset_register_missing : { Config.fixture with resetAddr := 0x2F }.wf = false := by decide

theorem test_wf_reset_bit_outside : { Config.fixture with resetBit := 8 }.wf = false := by decide

theorem test_instr_wf_field_missing : (Instr.getLin 7).wf .fixture = false := by decide

theorem test_instr_wf_shape : (Instr.getLin 3).wf .fixture = false ∧ (Instr.getEnum 4).wf .fixture = false ∧
    (Instr.getBool 0).wf .fixture = false ∧ (Instr.setLin 3 0).wf .fixture = false ∧ (Instr.setEnum 0 0).wf .fixture = false ∧
    (Instr.setBool 0 true).wf .fixture = false ∧ (Instr.quant 3 0).wf .fixture = false := by decide

theorem test_instr_wf_slice : (Instr.extract 9 8 0).wf .fixture = false ∧ (Instr.insert 0 0 0 0).wf .fixture = false := by decide

theorem test_instr_wf_raw_fits : (Instr.dequant 0 64).wf .fixture = false ∧ (Instr.dequant 0 63).wf .fixture = true := by decide

/-- The fixture has a field for each entry the document gives (spec R33 to R36). -/
theorem test_fixture_has_given_entries : Config.fixture.holdsGivenEntries = true := by decide +kernel

/-! ## Decoding: a word for each constructor, its bits written out from the spec's encoding of it -/

theorem test_decode_getLin : decode .fixture ⟨0b0001000000000010, .none, .none⟩ = .ok (.getLin 2) := by decide

theorem test_decode_getEnum : decode .fixture ⟨0b0001000000000011, .none, .none⟩ = .ok (.getEnum 3) := by decide

theorem test_decode_getBool : decode .fixture ⟨0b0001000000000101, .none, .none⟩ = .ok (.getBool 5) := by decide

theorem test_decode_setLin : decode .fixture ⟨0b0010000000000110, .phys 10, .none⟩ = .ok (.setLin 6 10) := by decide

theorem test_decode_setEnum : decode .fixture ⟨0b0010000000000011, .ord 2, .none⟩ = .ok (.setEnum 3 2) := by decide

theorem test_decode_setBool : decode .fixture ⟨0b0010000000000100, .flag true, .none⟩ = .ok (.setBool 4 true) := by decide

theorem test_decode_bringup : decode .fixture ⟨0b0011000001101011, .handle 9, .none⟩ = .ok (.bringup 0x6B 9) := by decide

theorem test_decode_reset : decode .fixture ⟨0b0100000000000000, .none, .none⟩ = .ok .reset := by decide

/-- BS5: the largest legal `OFF + W`. -/
theorem test_decode_extract : decode .fixture ⟨0b1000000001001011, .word 0xABCD, .none⟩ = .ok (.extract 4 12 0xABCD) := by decide

/-- BS7. -/
theorem test_decode_insert : decode .fixture ⟨0b1001000000100010, .word 0x00FF, .word 0⟩ = .ok (.insert 2 3 0x00FF 0) := by decide

theorem test_decode_dequant : decode .fixture ⟨0b1010000000000000, .word 63, .none⟩ = .ok (.dequant 0 63) := by decide

theorem test_decode_quant : decode .fixture ⟨0b1011000000000001, .phys 3, .none⟩ = .ok (.quant 1 3) := by decide

/-- X1 to X4. -/
theorem test_decode_reserved_opcodes :
    [0x0000, 0x5000, 0x6000, 0x7000, 0xC000, 0xD000, 0xE000, 0xF000].map (fun w => decode .fixture ⟨w, .none, .none⟩) =
      List.replicate 8 (.error .reservedOpcode) := by decide

/-- X5 to X7. -/
theorem test_decode_reserved_bits :
    [0x7FFF, 0x1100, 0x4001].map (fun w => decode .fixture ⟨w, .none, .none⟩) = List.replicate 3 (.error .reservedBits) := by
  decide

/-- X8, X9. -/
theorem test_decode_field_index : decode .fixture ⟨0x1007, .none, .none⟩ = .error .badFieldIndex ∧
    decode .fixture ⟨0x20FF, .phys 1, .none⟩ = .error .badFieldIndex := by decide

/-- X10, X11. -/
theorem test_decode_shape : decode .fixture ⟨0xA003, .word 0, .none⟩ = .error .shapeMismatch ∧
    decode .fixture ⟨0xB004, .phys 1, .none⟩ = .error .shapeMismatch := by decide

/-- BS6, BS15: the slice is checked before the operands. -/
theorem test_decode_slice : decode .fixture ⟨0x8097, .word 1, .none⟩ = .error .sliceOutOfRange ∧
    decode .fixture ⟨0x90C7, .phys 1, .none⟩ = .error .sliceOutOfRange := by decide

/-- BS16, BS17, Q26, Q30, FA29 to FA31, X12. -/
theorem test_decode_operand_kind : ∀ r ∈ [(⟨0x8007, .phys 1, .none⟩ : Request), ⟨0x9007, .word 0x12, .ord 1⟩, ⟨0xB000, .ord 1, .none⟩,
    ⟨0xA000, .word 64, .none⟩, ⟨0x2002, .ord 1, .none⟩, ⟨0x2004, .phys 1, .none⟩, ⟨0x2003, .phys 1, .none⟩, ⟨0x3000, .word 5, .none⟩],
    decode .fixture r = .error .operandKind := by decide

/-- 95_test_vectors.md section 2.6: GET ignores its operands, and BRINGUP takes bus address 0. -/
theorem test_decode_not_refused : decode .fixture ⟨0x1000, .ord 9, .none⟩ = .ok (.getLin 0) ∧
    decode .fixture ⟨0x3000, .handle 1, .none⟩ = .ok (.bringup 0 1) := by decide

/-- DC7, and R85's own example of a field written by its name. -/
theorem test_assemble : assemble .fixture (.bringup none 1) = some ⟨0x306B, .handle 1, .none⟩ ∧
    assemble .fixture (.set (.name "VSYSMIN") (.phys (mkRat 5 2))) = some ⟨0x2000, .phys (mkRat 5 2), .none⟩ := by decide

/-- The opcode table's words, with zero operands. -/
theorem test_table_words : decodeTableWord 16 0x1003 = some (.getEnum 3) ∧ decodeTableWord 16 0x2004 = some (.setBool 4 false) ∧
    decodeTableWord 16 0x4000 = some .reset ∧ decodeTableWord 16 0x9022 = some (.insert 2 3 0 0) ∧
    decodeTableWord 16 0x4001 = none ∧ decodeTableWord 8 0x40 = none := by decide

/-! ## Single steps -/

/-- The fixture on the quiescent reference device, the link open, with these registers. -/
def bench (regs : Memory) : State := { State.reset with env := .quiescent, linkOpen := true, regs := regs }

/-- One step on a request. -/
def run (s : State) (cmd : Word) (a b : Value) : Host.Outcome State Fault Refusal := step (s.withNext ⟨cmd, a, b⟩)

/-- The response of a step that went on. -/
def reply : Host.Outcome State Fault Refusal → Option Response
  | .next t => t.response
  | .fault _ => none
  | .refused _ => none

/-- The transport operations of a step that went on. -/
def ops : Host.Outcome State Fault Refusal → List TraceEntry
  | .next t => t.trace
  | .fault _ => []
  | .refused _ => []

/-- A register after a step that went on. -/
def reg (a : Nat) : Host.Outcome State Fault Refusal → Option Byte
  | .next t => some (t.peek a)
  | .fault _ => none
  | .refused _ => none

/-- Why a step was refused. -/
def stop : Host.Outcome State Fault Refusal → Option Refusal
  | .next _ => none
  | .fault _ => none
  | .refused r => some r

/-- Whether the link is open after a step that went on. -/
def link : Host.Outcome State Fault Refusal → Option Bool
  | .next t => some t.linkOpen
  | .fault _ => none
  | .refused _ => none

/-- FA1. -/
theorem test_getLin_decodes : reply (run (bench [(0x00, 0xCA)]) 0x1000 .none .none) = some ⟨.ok, .phys 5⟩ ∧
    ops (run (bench [(0x00, 0xCA)]) 0x1000 .none .none) = [.readBits 0x00 .one 6 0 (some 10)] := by decide +kernel

/-- FA6: two bytes, big-endian, with a base. -/
theorem test_getLin_two_bytes :
    reply (run (bench [(0x05, 0x06), (0x06, 0x40)]) 0x1002 .none .none) = some ⟨.ok, .phys (mkRat 94 5)⟩ := by decide +kernel

/-- FA15: an undefined ordinal. -/
theorem test_getEnum_undefined : reply (run (bench [(0x10, 0x30)]) 0x1003 .none .none) = some ⟨.ok, .ord 3⟩ := by decide

/-- FA14. -/
theorem test_getEnum : reply (run (bench [(0x10, 0xEF)]) 0x1003 .none .none) = some ⟨.ok, .ord 2⟩ := by decide

/-- FA19. -/
theorem test_getBool_inverted : reply (run (bench [(0x0F, 0x7F)]) 0x1004 .none .none) = some ⟨.ok, .flag true⟩ := by decide

/-- FA21. -/
theorem test_getBool_plain : reply (run (bench [(0x0F, 0x01)]) 0x1005 .none .none) = some ⟨.ok, .flag true⟩ := by decide

/-- FA7: bits [15:11] of the pair survive. -/
theorem test_setLin_two_bytes : reg 0x01 (run (bench [(0x01, 0xF8)]) 0x2001 (.phys 3) .none) = some 0xF9 ∧
    reg 0x02 (run (bench [(0x01, 0xF8)]) 0x2001 (.phys 3) .none) = some 0x2C := by decide +kernel

/-- FA26: clamped, and bits beside the field survive. -/
theorem test_setLin_clamps : reg 0x20 (run (bench [(0x20, 0xE3)]) 0x2006 (.phys 10) .none) = some 0xFF ∧
    ops (run (bench [(0x20, 0xE3)]) 0x2006 (.phys 10) .none) = [.writeBits 0x20 .one 3 2 7 true] := by decide +kernel

/-- FA17. -/
theorem test_setEnum : reg 0x10 (run (bench [(0x10, 0xFF)]) 0x2003 (.ord 2) .none) = some 0xEF := by decide

/-- FA18. -/
theorem test_setEnum_rejects : reply (run (bench [(0x10, 0xFF)]) 0x2003 (.ord 3) .none) = some ⟨.validationFailure, .none⟩ ∧
    ops (run (bench [(0x10, 0xFF)]) 0x2003 (.ord 3) .none) = [] := by decide

/-- FA22. -/
theorem test_setBool_inverted : reg 0x0F (run (bench [(0x0F, 0xFF)]) 0x2004 (.flag true) .none) = some 0x7F := by decide

/-- HZ1: the device sets bit 7 between the two phases, and the write loses it. -/
theorem test_setBool_lost_update :
    reg 0x0F (run { bench [] with script := [Draw.quiet, { Draw.quiet with before := [.change 0x0F 0x80] }] }
      0x2005 (.flag true) .none) = some 0x01 := by decide

/-- DC1. -/
theorem test_bringup : link (run { bench [(0x00, 0x55)] with linkOpen := false } 0x306B (.handle 1) .none) = some true ∧
    reg 0x00 (run { bench [(0x00, 0x55)] with linkOpen := false } 0x306B (.handle 1) .none) = some 0x00 ∧
    ops (run { bench [(0x00, 0x55)] with linkOpen := false } 0x306B (.handle 1) .none) =
      [.opened 0x6B 1 true, .readBits 0x2D .one 3 3 (some 3), .writeBits 0x09 .one 1 6 1 true] := by decide

/-- DC3: the wrong part. -/
theorem test_bringup_wrong_part :
    reply (run (bench [(0x00, 0x55), (0x2D, 0x21)]) 0x306B (.handle 1) .none) = some ⟨.identificationMismatch, .none⟩ ∧
    reg 0x00 (run (bench [(0x00, 0x55), (0x2D, 0x21)]) 0x306B (.handle 1) .none) = some 0x55 := by decide

/-- DC9. -/
theorem test_reset : reg 0x00 (run (bench [(0x00, 0x55)]) 0x4000 .none .none) = some 0x00 ∧
    ops (run (bench [(0x00, 0x55)]) 0x4000 .none .none) = [.writeBits 0x09 .one 1 6 1 true] := by decide

/-- R142, R144: a device that has not yet reacted has its reset bit set and its other registers as they were. -/
theorem test_reset_in_progress :
    reg 0x09 (run { bench [(0x00, 0x55), (0x09, 0x81)] with script := [⟨[], true, 0, []⟩, ⟨[], true, 0, []⟩] } 0x4000 .none .none)
      = some 0xC1 := by decide

/-- R142, D29: a SET of 1 to a field that lies on the reset bit is the same write as RESET's, and resets the device; one of 0
does not. -/
theorem test_set_of_the_reset_bit :
    reg 0x00 (run { bench [(0x00, 0x55)] with cfg := only rstBit } 0x2000 (.flag true) .none) = some 0x00 ∧
    reg 0x00 (run { bench [(0x00, 0x55)] with cfg := only rstBit } 0x2000 (.flag false) .none) = some 0x55 := by decide

/-- BS4. -/
theorem test_extract_high_byte : reply (run (bench []) 0x8087 (.word 0x1234) .none) = some ⟨.ok, .word 0x0012⟩ := by decide

/-- BS2. -/
theorem test_extract_full_width : reply (run (bench []) 0x800F (.word 0xBEEF) .none) = some ⟨.ok, .word 0xBEEF⟩ := by decide

/-- BS9. -/
theorem test_insert : reply (run (bench []) 0x9032 (.word 0x0019) (.word 5)) = some ⟨.ok, .word 0x0029⟩ := by decide

/-- BS13: the raw value is cut to the slice. -/
theorem test_insert_cuts : reply (run (bench []) 0x9041 (.word 0x00CF) (.word 5)) = some ⟨.ok, .word 0x00DF⟩ := by decide

/-- Q29. -/
theorem test_dequant_top : reply (run (bench []) 0xA000 (.word 63) .none) = some ⟨.ok, .phys (mkRat 73 4)⟩ := by decide +kernel

/-- FP8: decoding in BINARY64 gives the binary64 number 2.8099999999999996, here as its exact value. -/
theorem test_dequant_binary64 :
    reply (run { bench [] with cfg := { Config.fixture with arith := .binary64 } } 0xA002 (.word 1) .none) =
      some ⟨.ok, .phys (mkRat 3163778738227773 1125899906842624)⟩ := by decide +kernel

/-- Q13: truncation, not rounding to nearest. -/
theorem test_quant_truncates : reply (run (bench []) 0xB001 (.phys (mkRat 601 200)) .none) = some ⟨.ok, .word 300⟩ := by decide +kernel

/-- FP1 (BINARY64) and FP2 (BINARY32). -/
theorem test_quant_binary :
    reply (run { bench [] with cfg := { Config.fixture with arith := .binary64 } } 0xB002 (.phys (mkRat 301 100)) .none) =
      some ⟨.ok, .word 20⟩ ∧
    reply (run { bench [] with cfg := { Config.fixture with arith := .binary32 } } 0xB002 (.phys (mkRat 21 5)) .none) =
      some ⟨.ok, .word 139⟩ := by decide +kernel

/-- LC1, LC2. -/
theorem test_link_closed : stop (run { bench [] with linkOpen := false } 0x1000 .none .none) = some .linkClosed ∧
    reply (run { bench [] with linkOpen := false } 0x2000 (.phys (mkRat 12 5)) .none) = some ⟨.validationFailure, .none⟩ := by
  decide +kernel

/-- TF2, TF3: a failed read writes nothing, and a failed write leaves whatever its draw says. -/
theorem test_failed_set :
    reg 0x00 (run { bench [(0x00, 0xC0)] with script := [{ Draw.quiet with ok := false }] } 0x2000 (.phys 5) .none) = some 0xC0 ∧
    reg 0x00 (run { bench [(0x00, 0xC0)] with script := [Draw.quiet, { Draw.quiet with ok := false, residue := 0x77 }] }
      0x2000 (.phys 5) .none) = some 0x77 := by decide +kernel

/-- DC4, DC5. -/
theorem test_failed_bringup :
    link (run { bench [] with script := [{ Draw.quiet with ok := false }] } 0x306B (.handle 1) .none) = some false ∧
    link (run { bench [] with script := [Draw.quiet, { Draw.quiet with ok := false }] } 0x306B (.handle 1) .none) = some true := by
  decide

/-- R171: registers at their power-on values, and the reset bit cleared whatever `DEVICE_POR` says. -/
theorem test_power_on : State.reset.peek 0x2D = 0x19 ∧ State.reset.linkOpen = false ∧
    (State.powerOn { Config.fixture with por := [(0x09, 0xFF)] }).peek 0x09 = 0xBF := by decide

/-! ## Witnesses: a state and operands that meet the hypotheses of each statement, clause by clause -/

/-- The constants of the fixture's field V_B28. -/
def vb28Params : LinearParams := { step := mkRat 1 100, base := mkRat 14 5, minPhys := mkRat 14 5, maxPhys := mkRat 94 5 }

/-- The bench with the link closed. -/
def closedBench : State := { bench [] with linkOpen := false }

/-- A request on the bench. -/
def asked (cmd : Word) : State := (bench []).withNext ⟨cmd, .none, .none⟩

/-- The bench with these draws first. -/
def scripted (ds : List Draw) : State := { bench [] with script := ds }

/-- A draw in which the device does nothing and the phase fails. -/
def failing : Draw := { Draw.quiet with ok := false }

theorem linearAt_vsys : LinearAt .fixture 0 vsys vsysParams := ⟨rfl, rfl⟩

theorem enumAt_modeE : EnumAt .fixture 3 modeE 2 := ⟨rfl, rfl⟩

theorem boolAt_enInv : BoolAt .fixture 4 enInv true := ⟨rfl, rfl⟩

/-- The fixture's fields leave the reset bit alone. -/
theorem keeps_vsys (s : State) (h : s.cfg = .fixture) (raw : Nat) : ¬ s.SetsResetBit vsys raw := by
  simp [State.SetsResetBit, addressed, h, vsys, Config.fixture, ByteWidth.bytes]

theorem keeps_modeE (s : State) (h : s.cfg = .fixture) (raw : Nat) : ¬ s.SetsResetBit modeE raw := by
  simp [State.SetsResetBit, addressed, h, modeE, Config.fixture, ByteWidth.bytes]

theorem keeps_enInv (s : State) (h : s.cfg = .fixture) (raw : Nat) : ¬ s.SetsResetBit enInv raw := by
  simp [State.SetsResetBit, addressed, h, enInv, Config.fixture, ByteWidth.bytes]

/-- The bench with these draws first and only the field on the reset bit. -/
def rstBench (ds : List Draw) : State := { scripted ds with cfg := only rstBit }

theorem boolAt_rstBit : BoolAt (only rstBit) 0 rstBit false := ⟨rfl, rfl⟩

/-- A SET of 1 to the field on the reset bit leaves a 1 there. -/
theorem sets_rstBit (ds : List Draw) : (rstBench ds).SetsResetBit rstBit 1 := by
  simp [State.SetsResetBit, addressed, resetBitOf, rstBench, scripted, bench, only, rstBit, Config.fixture, ByteWidth.bytes]

/-- A draw in which the device does nothing at all. -/
def silent : Draw := ⟨[], true, 0, []⟩

theorem idle_silent : Idle silent := ⟨by simp [silent, IdleEvents], by simp [silent, IdleEvents]⟩

theorem bench_quiescent : (bench []).Quiescent := ⟨rfl, rfl, rfl⟩

theorem idle_failing : Idle failing := ⟨by simp [failing, Draw.quiet, IdleEvents], by simp [failing, Draw.quiet, IdleEvents]⟩

/-- Every constructor, slices and raw values at the ends of their ranges. -/
theorem witness_DecodeOfEncodeIsTheInstruction :
    [Instr.getLin 6, .getEnum 3, .getBool 5, .setLin 0 (mkRat 1 3), .setEnum 3 7, .setBool 4 true, .bringup 0xFF 0, .reset,
      .extract 0 16 0xFFFF, .extract 15 1 0, .insert 0 1 0 0xFFFF, .insert 8 8 1 2, .dequant 0 63, .quant 2 (-1)].all
      (Instr.wf .fixture) = true := by decide

theorem witness_DecodedInstructionIsWellFormed :
    decode .fixture ⟨0x80F0, .word 0x8000, .none⟩ = .ok (.extract 15 1 0x8000) ∧
    decode .fixture ⟨0x1006, .none, .none⟩ = .ok (.getLin 6) := by decide

/-- The lowest and highest reserved opcodes, and one with reserved bits set. -/
theorem witness_ReservedOpcodeIsRefused : (bench []).cfg.wf = true ∧
    (asked 0x0000).stream = [⟨0x0000, .none, .none⟩] ∧ (asked 0xF0FF).stream = [⟨0xF0FF, .none, .none⟩] ∧
    (0x0000#16).toNat / 4096 ∈ [0x0, 0x5, 0x6, 0x7, 0xC, 0xD, 0xE, 0xF] ∧ (0x0000#16).toNat / 256 % 16 = 0 ∧
    (0xF0FF#16).toNat / 4096 ∈ [0x0, 0x5, 0x6, 0x7, 0xC, 0xD, 0xE, 0xF] ∧ (0xF0FF#16).toNat / 256 % 16 = 0 ∧
    (0x5F00#16).toNat / 4096 ∈ [0x0, 0x5, 0x6, 0x7, 0xC, 0xD, 0xE, 0xF] := by decide

theorem witness_ReservedBitsAreRefused : (asked 0x1100).cfg.wf = true ∧ (asked 0x1100).stream = [⟨0x1100, .none, .none⟩] ∧
    (0x1100#16).toNat / 256 % 16 ≠ 0 ∧ (0x4001#16).toNat / 256 = 0x40 ∧ (0x4001#16).toNat % 256 ≠ 0 ∧
    (0x40FF#16).toNat / 256 = 0x40 ∧ (0x40FF#16).toNat % 256 ≠ 0 := by decide

/-- An index at the end of the table, and the last index of the table. -/
theorem witness_FieldIndexIsChecked : (0x1007#16).toNat / 256 ∈ [0x10, 0x20, 0xA0, 0xB0] ∧
    Config.fixture.fields.length ≤ (0x1007#16).toNat % 256 ∧ ¬ Config.fixture.fields.length ≤ (0xB006#16).toNat % 256 ∧
    (0xB006#16).toNat / 256 ∈ [0x10, 0x20, 0xA0, 0xB0] := by decide

/-- A LINEAR, an ENUM and a BOOL descriptor under each of the opcodes. -/
theorem witness_ShapeSelectsTheVariant : Config.fixture.fields[(0x1000#16).toNat % 256]? = some vsys ∧
    Config.fixture.fields[(0x2003#16).toNat % 256]? = some modeE ∧ Config.fixture.fields[(0xA004#16).toNat % 256]? = some enInv ∧
    (0x1000#16).toNat / 256 = 0x10 ∧ (0x2003#16).toNat / 256 = 0x20 ∧ (0xA004#16).toNat / 256 = 0xA0 ∧
    (0xB004#16).toNat / 256 = 0xB0 ∧ vsys.isLinear = true ∧ modeE.isEnum = true ∧ enInv.isBool = true ∧
    enInv.isLinear = false := by decide

theorem witness_OperandKindIsChecked : Config.fixture.fields[(0x2000#16).toNat % 256]? = some vsys ∧
    (0x2000#16).toNat / 256 = 0x20 ∧ (0xA000#16).toNat / 256 = 0xA0 ∧ (0xB000#16).toNat / 256 = 0xB0 ∧ vsys.isLinear = true ∧
    (0x306B#16).toNat / 256 = 0x30 ∧ (0x800F#16).toNat / 256 = 0x80 ∧ (0x90F0#16).toNat / 256 = 0x90 ∧
    (0x800F#16).toNat / 16 % 16 + ((0x800F#16).toNat % 16 + 1) ≤ 16 ∧
    (0x90F0#16).toNat / 16 % 16 + ((0x90F0#16).toNat % 16 + 1) ≤ 16 := by decide

/-- `OFF + W` at 16 and at 17. -/
theorem witness_SliceOperandsAreDecoded : (0x804B#16).toNat / 256 = 0x80 ∧ (0x9097#16).toNat / 256 = 0x90 ∧
    (0x804B#16).toNat / 16 % 16 + ((0x804B#16).toNat % 16 + 1) ≤ 16 ∧
    16 < (0x9097#16).toNat / 16 % 16 + ((0x9097#16).toNat % 16 + 1) ∧
    (⟨0x9097, .word 0, .word 0⟩ : Request).a = .word 0 ∧ (⟨0x9097, .word 0, .word 0⟩ : Request).b = .word 0 := by decide

/-- Slices at the ends of their ranges, one the decoder refuses, and a field that is the first of its name. -/
theorem witness_AssemblerFormsMatchTheEncoder : 15 < 16 ∧ 1 ≤ 1 ∧ 1 ≤ 16 ∧ 16 ≤ 16 ∧ 9 < 16 ∧ 8 ≤ 16 ∧
    Config.fixture.fields[3]? = some modeE ∧
    ∀ j e, j < 3 → Config.fixture.fields[j]? = some e → e.name ≠ modeE.name := by
  refine ⟨by decide, by decide, by decide, by decide, by decide, by decide, rfl, fun j e hj he => ?_⟩
  rcases j with _ | _ | _ | j
  · cases he; decide
  · cases he; decide
  · cases he; decide
  · omega

theorem witness_StepRunsTheDecodedInstruction : (asked 0x4000).cfg.wf = true ∧
    (asked 0x4000).stream = [⟨0x4000, .none, .none⟩] ∧ decode (asked 0x4000).cfg ⟨0x4000, .none, .none⟩ = .ok .reset := by decide

/-- A configuration that passes every check, and one that fails one. -/
theorem witness_IllFormedConfigurationIsRefused : stop (step (asked 0x4000)) = none ∧
    stop (step { asked 0x4000 with cfg := { Config.fixture with resetBit := 8 } }) = some .illFormedConfig := by decide

/-- Slices at both ends of their range. -/
theorem witness_ExtractCompletes : 1 ≤ 1 ∧ 15 + 1 ≤ 16 ∧ 1 ≤ 16 ∧ 0 + 16 ≤ 16 ∧
    reply (exec (.extract 15 1 0x8000) (bench [])) = some ⟨.ok, .word 1⟩ := by decide

theorem witness_InsertCompletes : 1 ≤ 1 ∧ 15 + 1 ≤ 16 ∧ 1 ≤ 16 ∧ 0 + 16 ≤ 16 ∧
    reply (exec (.insert 0 16 0x1234 0xFFFF) (bench [])) = some ⟨.ok, .word 0xFFFF⟩ := by decide

theorem witness_BitSliceUnitLaws : 5 + 3 ≤ 16 ∧ 0 + 16 ≤ 16 ∧ 7 < 16 ∧ (7 < 8 ∨ 5 + 3 ≤ 7) ∧ (0xFF#16).toNat < 2 ^ (8 * 1) ∧
    5 + 3 ≤ 8 * 1 := by decide

/-- Two fields of one register with no bit in common, and two that share one. -/
theorem witness_FieldMaskIsTheSlice : vsys.off + vsys.w ≤ 16 ∧ enInv.off + enInv.w ≤ 16 ∧ 15 < 16 ∧
    fmask vsys &&& fmask enInv = 0 ∧ fmask vsys &&& fmask modeE ≠ 0 := by decide

/-- The largest raw value, and 0. -/
theorem witness_DequantCompletes : LinearAt (bench []).cfg 0 vsys vsysParams ∧ (63#16).toNat < 2 ^ vsys.w ∧
    (0#16).toNat < 2 ^ vsys.w ∧ (bench []).cfg.arith = .exact := ⟨linearAt_vsys, by decide⟩

theorem witness_QuantCompletes : (bench []).cfg.wf = true ∧ LinearAt (bench []).cfg 0 vsys vsysParams ∧
    operandFinite (bench []).cfg.arith (-3) = true ∧ (bench []).cfg.arith = .exact :=
  ⟨by decide, linearAt_vsys, by decide⟩

/-- Just below the first step. -/
theorem witness_TruncationIsTowardZero : 0 < vsysParams.step ∧ mkRat 137 50 < vsysParams.base + vsysParams.step ∧
    (0 : Rat) ≤ mkRat 1 2 ∧ mkRat (-1) 2 < 0 := by decide +kernel

theorem witness_QuantizerSaturates : 0 < vsysParams.step ∧ 1 ≤ vsys.w ∧
    vsysParams.base + ((2 ^ vsys.w - 1 : Nat) : Rat) * vsysParams.step ≤ mkRat 73 4 ∧
    mkRat 137 50 < vsysParams.base + vsysParams.step := by decide +kernel

/-- The base itself, and a value in the last step. -/
theorem witness_RoundTripIsWithinOneStep : 0 < vsysParams.step ∧ vsysParams.base ≤ vsysParams.base ∧
    vsysParams.base < vsysParams.base + ((2 ^ 6 : Nat) : Rat) * vsysParams.step ∧ vsysParams.base ≤ mkRat 184 10 ∧
    mkRat 184 10 < vsysParams.base + ((2 ^ 6 : Nat) : Rat) * vsysParams.step := by decide +kernel

theorem witness_QuantizerIsMonotoneAndExactOnTheGrid : 0 < vsysParams.step ∧ mkRat 11 4 ≤ 3 ∧ 63 < 2 ^ 6 ∧ 0 < 2 ^ 6 := by
  decide +kernel

/-- The fixture's first field, whose constants are numbers of both formats, at 5 and raw value 10. -/
theorem witness_BinaryModeFollowsItsFormulas : BinaryMode .binary64 binary64 ∧ BinaryMode .binary32 binary32 ∧
    ∀ F ∈ [binary64, binary32], fl F 5 = .fin 5 ∧ fl F vsysParams.base = .fin (mkRat 5 2) ∧
      fl F vsysParams.step = .fin (mkRat 1 4) ∧ mkRat 1 4 ≠ 0 ∧ fl F (5 - mkRat 5 2) = .fin (mkRat 5 2) ∧
      fl F (mkRat 5 2 / mkRat 1 4) = .fin 10 ∧ fl F (((10 : Nat) : Rat) * mkRat 1 4) = .fin (mkRat 5 2) ∧
      fl F (mkRat 5 2 + mkRat 5 2) = .fin 5 :=
  ⟨.inl ⟨rfl, rfl⟩, .inr ⟨rfl, rfl⟩, by decide +kernel⟩

/-- Below the lower bound, and at it with the link closed, in both modes. -/
theorem witness_BinaryModeValidatesRoundedNumbers : LinearAt { Config.fixture with arith := .binary64 } 0 vsys vsysParams ∧
    LinearAt { Config.fixture with arith := .binary32 } 0 vsys vsysParams ∧ BinaryMode .binary64 binary64 ∧
    BinaryMode .binary32 binary32 ∧ fl binary64 (mkRat 9 4) = .fin (mkRat 9 4) ∧ fl binary32 (mkRat 9 4) = .fin (mkRat 9 4) ∧
    (∀ F ∈ [binary64, binary32], fl F vsysParams.minPhys = .fin (mkRat 5 2) ∧ fl F vsysParams.maxPhys = .fin 16) ∧
    mkRat 9 4 < mkRat 5 2 ∧ mkRat 5 2 ≤ mkRat 5 2 ∧ mkRat 5 2 ≤ 16 ∧ closedBench.linkOpen = false :=
  ⟨linearAt_vsys, linearAt_vsys, .inl ⟨rfl, rfl⟩, .inr ⟨rfl, rfl⟩, by decide +kernel⟩

/-- 1/10 in binary64, and 2^24 + 1 in binary32, which lies halfway between two of its numbers. -/
theorem witness_RoundingIsToANearestNumber : 1 ≤ binary64.prec ∧ binary64.minExp ≤ binary64.maxExp ∧
    fl binary64 (mkRat 1 10) = .fin (mkRat 3602879701896397 36028797018963968) ∧ (0 : Int) < 2 ^ binary64.prec ∧
    2 ≤ binary32.prec ∧ fl binary32 16777217 = .fin 16777216 ∧ (8388609 : Int) < 2 ^ binary32.prec ∧
    (16777216 : Rat) ≠ (8388609 : Int) * 2 ∧ |(16777217 : Rat) - 16777216| = |(16777217 : Rat) - (8388609 : Int) * 2| := by
  refine ⟨by decide, by decide, by decide +kernel, by decide, by decide, by decide +kernel, by decide, by norm_num, by norm_num⟩

/-- The first operand each mode refuses, above and below zero, and one it does not. -/
theorem witness_NonFiniteOperandIsRefused : LinearAt { Config.fixture with arith := .binary64 } 0 vsys vsysParams ∧
    LinearAt { Config.fixture with arith := .binary32 } 0 vsys vsysParams ∧
    stop (exec (.quant 0 (2 ^ 1024 - 2 ^ 970)) { bench [] with cfg := { Config.fixture with arith := .binary64 } }) =
      some .nonFiniteOperand ∧
    stop (exec (.setLin 0 (-(2 ^ 128 - 2 ^ 103))) { bench [] with cfg := { Config.fixture with arith := .binary32 } }) =
      some .nonFiniteOperand ∧
    stop (exec (.quant 0 (2 ^ 128 - 2 ^ 103 - 1)) { bench [] with cfg := { Config.fixture with arith := .binary32 } }) = none :=
  ⟨linearAt_vsys, linearAt_vsys, by decide +kernel⟩

/-- The last register pair, one past it, and a phase that fails. -/
theorem witness_ReadBitsAnswersTheSlice : 5 + 11 ≤ 8 * ByteWidth.two.bytes ∧
    (0x2D#8).toNat + ByteWidth.two.bytes - 1 ≤ (bench []).cfg.regAddrLimit.toNat ∧ (bench []).nextDraw.ok = true ∧
    (bench []).cfg.regAddrLimit.toNat < (0x2E#8).toNat + ByteWidth.two.bytes - 1 ∧ (scripted [failing]).nextDraw.ok = false := by
  decide

/-- As for a read; the device does nothing at once; and the reset register beside another. -/
theorem witness_MemWriteStoresBigEndian : (scripted [⟨[], true, 0, []⟩]).regsOk = true ∧
    (scripted [⟨[], true, 0, []⟩]).nextDraw.after = [] ∧ (scripted [⟨[], true, 0, []⟩]).nextDraw.ok = true ∧
    (0x2D#8).toNat + ByteWidth.two.bytes - 1 ≤ (bench []).cfg.regAddrLimit.toNat ∧
    (bench []).cfg.regAddrLimit.toNat < (0x2F#8).toNat + ByteWidth.one.bytes - 1 ∧
    (scripted [⟨[], false, 0, []⟩]).nextDraw.ok = false ∧ (scripted [⟨[], false, 0, []⟩]).nextDraw.after = [] ∧
    ¬ addressed 0x2D .two 0x2C ∧ ¬ addressed 0x2D .two 0x2F ∧ (bench []).cfg.resetBit ≤ 7 ∧
    addressed 0x08 .two (bench []).cfg.resetAddr.toNat ∧
    (((scripted [⟨[], true, 0, []⟩]).memWrite 0x08 .two 0x0040).2.peek 0x09).getLsbD (bench []).cfg.resetBit = true := by
  refine ⟨by decide, by decide, by decide, by decide, by decide, by decide, by decide, ?_, ?_, by decide, ?_, by decide⟩ <;>
    simp [addressed, ByteWidth.bytes, bench, State.reset, State.powerOn, Config.fixture]

/-- A device that changes the register between the phases; and a read phase that fails. -/
theorem witness_MaskedWriteLosesUpdatesBetweenItsPhases :
    (scripted [Draw.quiet, ⟨[.change 0x0F 0x80], true, 0, []⟩]).regsOk = true ∧ 0 + 1 ≤ 8 * ByteWidth.one.bytes ∧
    (0x0F#8).toNat + ByteWidth.one.bytes - 1 ≤ (bench []).cfg.regAddrLimit.toNat ∧
    ((scripted [Draw.quiet, ⟨[.change 0x0F 0x80], true, 0, []⟩]).drawAt 0).ok = true ∧
    ((scripted [Draw.quiet, ⟨[.change 0x0F 0x80], true, 0, []⟩]).drawAt 1).ok = true ∧
    ((scripted [Draw.quiet, ⟨[.change 0x0F 0x80], true, 0, []⟩]).drawAt 1).after = [] ∧
    ((scripted [failing]).drawAt 0).ok = false := by decide

theorem witness_GetLinCompletes : (bench []).cfg.wf = true ∧ LinearAt (bench []).cfg 0 vsys vsysParams ∧
    (bench []).linkOpen = true ∧ (bench []).nextDraw.ok = true ∧ (bench []).cfg.arith = .exact ∧ (bench []).resetting = false ∧
    Idle (bench []).nextDraw :=
  ⟨by decide, linearAt_vsys, rfl, rfl, rfl, rfl, idle_quiet⟩

theorem witness_GetEnumCompletes : (bench []).cfg.wf = true ∧ EnumAt (bench []).cfg 3 modeE 2 ∧
    (bench []).linkOpen = true ∧ (bench []).nextDraw.ok = true ∧ (bench []).resetting = false ∧ Idle (bench []).nextDraw :=
  ⟨by decide, enumAt_modeE, rfl, rfl, rfl, idle_quiet⟩

theorem witness_GetBoolCompletes : (bench []).cfg.wf = true ∧ BoolAt (bench []).cfg 4 enInv true ∧
    (bench []).linkOpen = true ∧ (bench []).nextDraw.ok = true ∧ (bench []).resetting = false ∧ Idle (bench []).nextDraw :=
  ⟨by decide, boolAt_enInv, rfl, rfl, rfl, idle_quiet⟩

/-- A GET of each shape, its read failing. -/
theorem witness_GetReportsTransportFailure :
    (∃ decoded, Gets (scripted [failing]).cfg (.getLin 0) vsys decoded) ∧
    (∃ decoded, Gets (scripted [failing]).cfg (.getEnum 3) modeE decoded) ∧
    (∃ decoded, Gets (scripted [failing]).cfg (.getBool 4) enInv decoded) ∧
    (scripted [failing]).linkOpen = true ∧ (scripted [failing]).nextDraw.ok = false :=
  ⟨⟨_, vsysParams, linearAt_vsys, rfl⟩, ⟨_, 2, enumAt_modeE, rfl⟩, ⟨_, true, boolAt_enInv, rfl⟩, rfl, rfl⟩

/-- Both ends of the field's range; and a LINEAR field on the reset bit. -/
theorem witness_SetLinCompletes : (bench []).cfg.wf = true ∧ (bench []).regsOk = true ∧
    LinearAt (bench []).cfg 0 vsys vsysParams ∧ operandFinite (bench []).cfg.arith 16 = true ∧
    validLin (bench []).cfg.arith vsysParams 16 = true ∧ validLin (bench []).cfg.arith vsysParams (mkRat 5 2) = true ∧
    (bench []).linkOpen = true ∧ ((bench []).drawAt 0).ok = true ∧ ((bench []).drawAt 1).ok = true ∧
    (bench []).cfg.arith = .exact ∧ (bench []).resetting = false ∧ Idle ((bench []).drawAt 0) ∧ Idle ((bench []).drawAt 1) ∧
    (∀ raw, ¬ (bench []).SetsResetBit vsys raw) ∧ { bench [] with cfg := only rstLin }.cfg.wf = true ∧
    { bench [] with cfg := only rstLin }.Quiescent ∧
    validLin .exact rstParams 1 = true ∧ { bench [] with cfg := only rstLin }.SetsResetBit rstLin (qnt .exact rstParams 1 1) :=
  ⟨by decide, rfl, linearAt_vsys, rfl, by decide, by decide, rfl, rfl, rfl, rfl, rfl, idle_quiet, idle_quiet,
    keeps_vsys _ rfl, by decide, ⟨rfl, rfl, rfl⟩, by decide,
    by unfold State.SetsResetBit addressed resetBitOf; decide +kernel⟩

/-- The largest defined ordinal; and an ENUM field on the reset bit. -/
theorem witness_SetEnumCompletes : (bench []).cfg.wf = true ∧ (bench []).regsOk = true ∧ EnumAt (bench []).cfg 3 modeE 2 ∧
    2 ≤ 2 ∧ (bench []).linkOpen = true ∧ ((bench []).drawAt 0).ok = true ∧ ((bench []).drawAt 1).ok = true ∧
    (bench []).resetting = false ∧ Idle ((bench []).drawAt 0) ∧ Idle ((bench []).drawAt 1) ∧
    (∀ raw, ¬ (bench []).SetsResetBit modeE raw) ∧ { bench [] with cfg := only rstEnum }.cfg.wf = true ∧
    { bench [] with cfg := only rstEnum }.Quiescent ∧ { bench [] with cfg := only rstEnum }.SetsResetBit rstEnum 1 :=
  ⟨by decide, rfl, enumAt_modeE, by decide, rfl, rfl, rfl, rfl, idle_quiet, idle_quiet, keeps_modeE _ rfl, by decide,
    ⟨rfl, rfl, rfl⟩, by unfold State.SetsResetBit addressed resetBitOf; decide⟩

/-- A BOOL field on the reset bit, on a device that does not react at once and on the quiescent one. -/
theorem witness_SetBoolCompletes : (bench []).cfg.wf = true ∧ (bench []).regsOk = true ∧ BoolAt (bench []).cfg 4 enInv true ∧
    (bench []).linkOpen = true ∧ ((bench []).drawAt 0).ok = true ∧ ((bench []).drawAt 1).ok = true ∧
    (bench []).resetting = false ∧ Idle ((bench []).drawAt 0) ∧ Idle ((bench []).drawAt 1) ∧
    (∀ raw, ¬ (bench []).SetsResetBit enInv raw) ∧ (rstBench []).cfg.wf = true ∧ (rstBench []).regsOk = true ∧
    BoolAt (rstBench []).cfg 0 rstBit false ∧ (rstBench []).Quiescent ∧ (rstBench []).SetsResetBit rstBit 1 ∧
    Idle ((rstBench [silent, silent]).drawAt 0) ∧ Idle ((rstBench [silent, silent]).drawAt 1) ∧
    ((rstBench [silent, silent]).drawAt 1).after = [] ∧ (rstBench [silent, silent]).SetsResetBit rstBit 1 :=
  ⟨by decide, rfl, boolAt_enInv, rfl, rfl, rfl, rfl, idle_quiet, idle_quiet, keeps_enInv _ rfl, by decide, rfl,
    boolAt_rstBit, ⟨rfl, rfl, rfl⟩, sets_rstBit _, idle_silent, idle_silent, rfl, sets_rstBit _⟩

/-- Just below the range and above it, and the first undefined ordinal. -/
theorem witness_InvalidSetChangesNothing : LinearAt closedBench.cfg 0 vsys vsysParams ∧
    operandFinite closedBench.cfg.arith (mkRat 12 5) = true ∧ closedBench.cfg.arith = .exact ∧
    validLin closedBench.cfg.arith vsysParams (mkRat 12 5) = false ∧
    validLin closedBench.cfg.arith vsysParams (mkRat 161 10) = false ∧ EnumAt closedBench.cfg 3 modeE 2 ∧ 2 < 3 :=
  ⟨linearAt_vsys, rfl, rfl, by decide, by decide, enumAt_modeE, by decide⟩

theorem witness_ClosedLinkIsRefused : closedBench.linkOpen = false ∧
    (∃ decoded, Gets closedBench.cfg (.getLin 0) vsys decoded) ∧ Sets closedBench.cfg (.setEnum 3 2) modeE 2 ∧
    LinearAt closedBench.cfg 0 vsys vsysParams ∧ operandFinite closedBench.cfg.arith (mkRat 12 5) = true ∧
    validLin closedBench.cfg.arith vsysParams (mkRat 12 5) = false ∧ EnumAt closedBench.cfg 3 modeE 2 ∧ 2 < 3 :=
  ⟨rfl, ⟨_, vsysParams, linearAt_vsys, rfl⟩, ⟨2, enumAt_modeE, by decide, rfl⟩, linearAt_vsys, rfl, by decide, enumAt_modeE,
    by decide⟩

/-- A device that changes another bit of the register before the read phase; the SET then succeeds. -/
theorem witness_SetIsolatesItsBits :
    (scripted [⟨[.change 0x10 0xC1], true, 0, []⟩]).cfg.wf = true ∧ (scripted [⟨[.change 0x10 0xC1], true, 0, []⟩]).regsOk = true ∧
    (scripted [⟨[.change 0x10 0xC1], true, 0, []⟩]).resetting = false ∧
    Sets (scripted [⟨[.change 0x10 0xC1], true, 0, []⟩]).cfg (.setEnum 3 2) modeE 2 ∧
    IdleEvents ((scripted [⟨[.change 0x10 0xC1], true, 0, []⟩]).drawAt 0).after ∧
    Idle ((scripted [⟨[.change 0x10 0xC1], true, 0, []⟩]).drawAt 1) ∧
    reply (exec (.setEnum 3 2) (scripted [⟨[.change 0x10 0xC1], true, 0, []⟩])) = some ⟨.ok, .none⟩ ∧
    (fmask modeE).getLsbD 6 = false ∧ ¬ (scripted [⟨[.change 0x10 0xC1], true, 0, []⟩]).atPhase.SetsResetBit modeE 2 ∧
    Sets (rstBench [silent, silent]).cfg (.setBool 0 true) rstBit 1 ∧ Idle ((rstBench [silent, silent]).drawAt 1) ∧
    ((rstBench [silent, silent]).drawAt 1).after = [] :=
  ⟨by decide, rfl, rfl, ⟨2, enumAt_modeE, by decide, rfl⟩, by simp [scripted, State.nextDraw, IdleEvents], idle_quiet, by decide,
    by decide, keeps_modeE _ (by simp [scripted, bench, State.reset, State.powerOn]) _, ⟨false, boolAt_rstBit, rfl⟩, idle_silent,
    rfl⟩

theorem witness_GetAfterSetGivesTheValueSet : (bench []).cfg.wf = true ∧ (bench []).regsOk = true ∧
    (bench []).linkOpen = true ∧ (bench []).Quiescent ∧ LinearAt (bench []).cfg 0 vsys vsysParams ∧
    operandFinite (bench []).cfg.arith 16 = true ∧ validLin (bench []).cfg.arith vsysParams 16 = true ∧
    EnumAt (bench []).cfg 3 modeE 2 ∧ 2 ≤ 2 ∧ BoolAt (bench []).cfg 4 enInv true ∧
    (∀ raw, ¬ (bench []).SetsResetBit vsys raw) ∧ (∀ raw, ¬ (bench []).SetsResetBit modeE raw) ∧
    (∀ raw, ¬ (bench []).SetsResetBit enInv raw) ∧ (rstBench []).Quiescent ∧ BoolAt (rstBench []).cfg 0 rstBit false ∧
    (rstBench []).SetsResetBit rstBit 1 :=
  ⟨by decide, rfl, rfl, bench_quiescent, linearAt_vsys, rfl, by decide, enumAt_modeE, by decide, boolAt_enInv,
    keeps_vsys _ rfl, keeps_modeE _ rfl, keeps_enInv _ rfl, ⟨rfl, rfl, rfl⟩, boolAt_rstBit, sets_rstBit _⟩

/-- The read phase failing, and the write phase failing. -/
theorem witness_FailedSetTouchesOnlyItsBytes : (scripted [failing]).cfg.wf = true ∧ (scripted [failing]).regsOk = true ∧
    (scripted [failing]).resetting = false ∧ (scripted [failing]).linkOpen = true ∧
    Sets (scripted [failing]).cfg (.setEnum 3 2) modeE 2 ∧ Idle ((scripted [failing]).drawAt 0) ∧
    ((scripted [failing]).drawAt 0).ok = false ∧ Idle ((scripted [Draw.quiet, failing]).drawAt 0) ∧
    ((scripted [Draw.quiet, failing]).drawAt 0).ok = true ∧ ((scripted [Draw.quiet, failing]).drawAt 1).ok = false ∧
    Idle ((scripted [Draw.quiet, failing]).drawAt 1) :=
  ⟨by decide, rfl, rfl, rfl, ⟨2, enumAt_modeE, by decide, rfl⟩, idle_failing, rfl, idle_quiet, rfl, rfl, idle_failing⟩

theorem witness_AccessorsIssueOneOperation : (bench []).cfg.wf = true ∧
    (∃ t, exec (.getEnum 3) (bench []) = .next t) ∧ (∃ decoded, Gets (bench []).cfg (.getEnum 3) modeE decoded) ∧
    (∃ t, exec (.setEnum 3 0) (bench []) = .next t) ∧ Sets (bench []).cfg (.setEnum 3 0) modeE 0 :=
  ⟨by decide, ⟨_, rfl⟩, ⟨_, 2, enumAt_modeE, rfl⟩, ⟨_, rfl⟩, 2, enumAt_modeE, by decide, rfl⟩

/-- The fixture's own part number. -/
theorem witness_BringupCompletesOnTheRightPart : (bench []).cfg.wf = true ∧ (bench []).Quiescent ∧
    (bench []).rightPart = true ∧ (bench []).cfg.por.lookup 0 = some 0 ∧ 0 ≠ (bench []).cfg.resetAddr.toNat :=
  ⟨by decide, bench_quiescent, by decide, by decide, by decide⟩

theorem witness_BringupRejectsTheWrongPart : (bench [(0x2D, 0x21)]).cfg.wf = true ∧ (bench [(0x2D, 0x21)]).Quiescent ∧
    (bench [(0x2D, 0x21)]).rightPart = false :=
  ⟨by decide, ⟨rfl, rfl, rfl⟩, by decide⟩

/-- A device that does not react at once, and the quiescent one. -/
theorem witness_ResetCompletes : (bench []).Quiescent ∧ ((bench []).drawAt 1).ok = true ∧
    (bench []).cfg.por.lookup 0 = some 0 ∧ 0 ≠ (bench []).cfg.resetAddr.toNat ∧
    (scripted [⟨[], true, 0, []⟩, ⟨[], true, 0, []⟩]).cfg.wf = true ∧
    (scripted [⟨[], true, 0, []⟩, ⟨[], true, 0, []⟩]).regsOk = true ∧
    (scripted [⟨[], true, 0, []⟩, ⟨[], true, 0, []⟩]).linkOpen = true ∧
    ((scripted [⟨[], true, 0, []⟩, ⟨[], true, 0, []⟩]).drawAt 0).ok = true ∧
    ((scripted [⟨[], true, 0, []⟩, ⟨[], true, 0, []⟩]).drawAt 1).ok = true ∧
    ((scripted [⟨[], true, 0, []⟩, ⟨[], true, 0, []⟩]).drawAt 0).after = [] ∧
    ((scripted [⟨[], true, 0, []⟩, ⟨[], true, 0, []⟩]).drawAt 1).before = [] ∧
    ((scripted [⟨[], true, 0, []⟩, ⟨[], true, 0, []⟩]).drawAt 1).after = [] := ⟨bench_quiescent, by decide⟩

/-- Each phase of the reset write failing, of RESET and of BRINGUP. -/
theorem witness_ResetReportsTransportFailure : (scripted [failing]).regsOk = true ∧ (scripted [failing]).linkOpen = true ∧
    ((scripted [failing]).drawAt 0).ok = false ∧ ((scripted [Draw.quiet, failing]).drawAt 1).ok = false ∧
    (scripted [failing]).resetting = false ∧ Idle ((scripted [failing]).drawAt 0) ∧ Idle ((scripted [failing]).drawAt 1) ∧
    (scripted [failing]).cfg.wf = true ∧ (scripted [silent, silent, failing, silent]).rightPart = true ∧
    (∀ k, k < 4 → Idle ((scripted [silent, silent, failing, silent]).drawAt k)) ∧
    ((scripted [silent, silent, failing, silent]).drawAt 0).ok = true ∧
    ((scripted [silent, silent, failing, silent]).drawAt 1).ok = true ∧
    ((scripted [silent, silent, failing, silent]).drawAt 2).ok = false ∧
    ((scripted [silent, silent, silent, failing]).drawAt 3).ok = false :=
  ⟨rfl, rfl, rfl, rfl, rfl, idle_failing, idle_quiet, by decide, by decide, fun k hk => by
    rcases k with _ | _ | _ | _ | k
    · exact idle_silent
    · exact idle_silent
    · exact idle_failing
    · exact idle_silent
    · omega, rfl, rfl, rfl, rfl⟩

/-- A reset that ends, a power loss, and the end of no reset. -/
theorem witness_DeviceResetRestoresDefaults : { bench [] with resetting := true }.resetting = true ∧
    (bench []).cfg.resetBit ≤ 7 ∧ (bench []).cfg.por.lookup 0x2D = some 0x19 ∧ 0x2D ≠ (bench []).cfg.resetAddr.toNat ∧
    (bench []).cfg.por.lookup (bench []).cfg.resetAddr.toNat = some 0 ∧ 7 < 8 ∧ 7 ≠ (bench []).cfg.resetBit ∧
    (bench []).resetting = false := by decide

theorem witness_PowerOnStateIsAsStated : Config.fixture.resetBit ≤ 7 ∧ Config.fixture.por.lookup 0x2D = some 0x19 ∧
    0x2D ≠ Config.fixture.resetAddr.toNat := by decide

/-- A state that meets the invariant, from which a step goes on. -/
theorem witness_StepKeepsInvariant : (asked 0x4000).Inv ∧ ∃ t, step (asked 0x4000) = .next t :=
  ⟨⟨by decide, rfl, (fun r h => by cases h), by decide⟩, _, rfl⟩

theorem witness_NoStepChangesTheConfiguration : ∃ t, step (asked 0x4000) = .next t := ⟨_, rfl⟩

/-- A step with a request, and one with none. -/
theorem witness_OneRequestOneResponse : (∃ t, step (asked 0x4000) = .next t) ∧ ∃ t, step (bench []) = .next t :=
  ⟨⟨_, rfl⟩, _, rfl⟩

/-- One request for each status but OK: a rejected SET, a wrong part and a failed read. -/
theorem witness_StatusIsAFunctionOfTheTrace :
    reply (run (bench []) 0x2003 (.ord 3) .none) = some ⟨.validationFailure, .none⟩ ∧
    reply (run (bench [(0x2D, 0x21)]) 0x306B (.handle 0) .none) = some ⟨.identificationMismatch, .none⟩ ∧
    reply (run (scripted [failing]) 0x1003 .none .none) = some ⟨.transportFailure, .none⟩ := by decide

theorem witness_StatusesAreRaisedAsTabled : reply (exec (.setEnum 3 3) (bench [])) = some ⟨.validationFailure, .none⟩ ∧
    reply (exec .reset (scripted [failing])) = some ⟨.transportFailure, .none⟩ ∧
    reply (exec (.bringup 0 0) (bench [(0x2D, 0x21)])) = some ⟨.identificationMismatch, .none⟩ := by decide

theorem witness_ResultKindsAreAsTabled : reply (exec (.getBool 4) (bench [])) = some ⟨.ok, .flag true⟩ ∧
    reply (exec (.setBool 4 true) (scripted [failing])) = some ⟨.transportFailure, .none⟩ := by decide

theorem witness_OnlyBringupChangesTheLink : (∃ t, step (asked 0x4000) = .next t) ∧
    (asked 0x4000).stream = [⟨0x4000, .none, .none⟩] ∧ (0x4000#16).toNat / 4096 ≠ 3 :=
  ⟨⟨_, rfl⟩, by decide, by decide⟩

theorem witness_EarlierCommandsDoNotMatter : ∃ t, exec (.getEnum 3) (bench []) = .next t := ⟨_, rfl⟩

end Sys2Proof.Tests
end

section
namespace Sys2Proof.Proofs
open Sys2Proof.Machine

/-- The state a request runs in, with the requests after it named (spec R70). -/
theorem accept_of_request {s : State} {r : Request} {rest : List Request} (hs : s.stream = r :: rest) :
    s.accept = { s with stream := rest, response := none, trace := [] } := by
  rw [State.accept, hs, List.tail_cons]

/-- Settles O11, by the step lemma for a waiting request (`step_of_request`): its decoded branch runs the instruction on
the accepted state. -/
theorem stepRunsTheDecodedInstruction : Obligations.StepRunsTheDecodedInstruction := by
  intro s r rest i hwf hs hdec
  rw [step_of_request hwf hs, hdec, ← accept_of_request hs]

end Sys2Proof.Proofs
end

section
/-! What a command leaves and answers, whatever instruction it is: the state some transport operations made, with one
response. -/

namespace Sys2Proof.Machine

/-- `u` is what at most `k` transport operations make of `s`: nothing that belongs to the caller has changed, a canonical
register file is still canonical, and the trace has at most `k` more entries. -/
structure State.AfterOps (k : Nat) (s u : State) : Prop where
  cfg    : u.cfg = s.cfg
  stream : u.stream = s.stream
  index  : u.index = s.index
  regsOk : s.regsOk = true → u.regsOk = true
  trace  : u.trace.length ≤ s.trace.length + k

theorem State.AfterOps.refl (s : State) : s.AfterOps 0 s := ⟨rfl, rfl, rfl, id, le_rfl⟩

theorem State.AfterOps.trans {j k : Nat} {s u v : State} (h₁ : s.AfterOps j u) (h₂ : u.AfterOps k v) :
    s.AfterOps (j + k) v where
  cfg := h₂.cfg.trans h₁.cfg
  stream := h₂.stream.trans h₁.stream
  index := h₂.index.trans h₁.index
  regsOk := h₂.regsOk ∘ h₁.regsOk
  trace := by
    have := h₁.trace
    have := h₂.trace
    omega

theorem State.AfterOps.mono {j k : Nat} {s u : State} (h : s.AfterOps j u) (hjk : j ≤ k) : s.AfterOps k u :=
  { h with trace := h.trace.trans (by omega) }

theorem State.afterOps_readBits (s : State) (a : Byte) (n : ByteWidth) (w off : Nat) :
    s.AfterOps 1 (s.readBits a n w off).2 :=
  ⟨by simp, by simp, by simp, fun h => State.readBits_regsOk h a n w off, by simp⟩

theorem State.afterOps_writeBits (s : State) (a : Byte) (n : ByteWidth) (w off : Nat) (raw : Word) :
    s.AfterOps 1 (s.writeBits a n w off raw).2 :=
  ⟨by simp, by simp, by simp, fun h => State.writeBits_regsOk h a n w off raw, by simp⟩

theorem State.afterOps_openLink (s : State) (busAddr : Byte) (h : Handle) : s.AfterOps 1 (s.openLink busAddr h).2 :=
  ⟨by simp, by simp, by simp, fun hs => State.openLink_regsOk hs busAddr h, by simp⟩

/-- `t` is the end of a command that ran from `s`: at most `k` transport operations, and one response, whose failure
carries no result. -/
def State.AnswersAfter (k : Nat) (s t : State) : Prop :=
  ∃ u r, s.AfterOps k u ∧ r.honest = true ∧ t = u.answer r

/-- A command that answers after `k` more operations than `j` already issued answers after all of them. -/
theorem State.AfterOps.answersAfter {j k : Nat} {s u t : State} (h : s.AfterOps j u) (ht : u.AnswersAfter k t) :
    s.AnswersAfter (j + k) t := by
  obtain ⟨v, r, hv, hr, rfl⟩ := ht
  exact ⟨v, r, h.trans hv, hr, rfl⟩

theorem State.AnswersAfter.mono {j k : Nat} {s t : State} (h : s.AnswersAfter j t) (hjk : j ≤ k) : s.AnswersAfter k t := by
  obtain ⟨u, r, hu, hr, rfl⟩ := h
  exact ⟨u, r, hu.mono hjk, hr, rfl⟩

theorem State.respond_answersAfter (s : State) (v : Value) : s.AnswersAfter 0 (s.respond v) :=
  ⟨s, _, .refl s, rfl, s.respond_eq_answer v⟩

theorem State.raise_answersAfter (s : State) (e : Status) : s.AnswersAfter 0 (s.raise e) :=
  ⟨s, _, .refl s, by simp [Response.honest], s.raise_eq_answer e⟩

theorem State.getField_answersAfter (s : State) (d : Descriptor) (w : Nat) (decoded : Nat → Value) :
    s.AnswersAfter 1 (s.getField d w decoded) := by
  refine ⟨_, _, s.afterOps_readBits d.addr d.bw w d.off, ?_, s.getField_eq d w decoded⟩
  cases (s.readBits d.addr d.bw w d.off).1 <;> rfl

theorem State.setField_answersAfter (s : State) (d : Descriptor) (w raw : Nat) :
    s.AnswersAfter 1 (s.setField d w raw) :=
  ⟨_, _, s.afterOps_writeBits d.addr d.bw w d.off _, by simp [Response.honest], s.setField_eq d w raw⟩

theorem State.triggerReset_answersAfter (s : State) : s.AnswersAfter 1 s.triggerReset :=
  ⟨_, _, s.afterOps_writeBits s.cfg.resetAddr .one 1 s.cfg.resetBit 1, by simp [Response.honest], s.triggerReset_eq⟩

/-- Identification reads the part number and, on the right part, writes the reset (spec R140). -/
theorem State.identify_answersAfter (s : State) : s.AnswersAfter 2 s.identify := by
  have hread := s.afterOps_readBits s.cfg.partIdAddr .one s.cfg.partIdWidth s.cfg.partIdOffset
  obtain ⟨-, he⟩ | ⟨p, -, ⟨-, he⟩ | ⟨-, he⟩⟩ := s.identify_cases <;> rw [he]
  · exact (hread.answersAfter (State.raise_answersAfter _ _)).mono (by decide)
  · exact (hread.answersAfter (State.raise_answersAfter _ _)).mono (by decide)
  · exact hread.answersAfter (State.triggerReset_answersAfter _)

/-- Bring-up issues at most three operations: open, read and reset write (spec R140). -/
theorem State.bringUp_answersAfter (s : State) (busAddr : Byte) (h : Handle) :
    s.AnswersAfter 3 (s.bringUp busAddr h) := by
  have hopen := s.afterOps_openLink busAddr h
  rw [State.bringUp_eq]
  split
  · exact hopen.answersAfter (State.identify_answersAfter _)
  · exact (hopen.answersAfter (State.raise_answersAfter _ _)).mono (by decide)

/-- Every instruction that goes on answers after at most three transport operations. -/
theorem exec_answersAfter {i : Instr} {s t : State} (h : exec i s = .next t) : s.AnswersAfter 3 t := by
  obtain ⟨v, rfl, -⟩ | ⟨rfl, -⟩ | ⟨d, w, decoded, -, rfl, -⟩ | ⟨d, w, raw, -, rfl, -⟩ | ⟨-, rfl, -⟩ |
    ⟨busAddr, hd, rfl, -⟩ := exec_cases h
  · exact (s.respond_answersAfter v).mono (by decide)
  · exact (s.raise_answersAfter _).mono (by decide)
  · exact (s.getField_answersAfter d w decoded).mono (by decide)
  · exact (s.setField_answersAfter d w raw).mono (by decide)
  · exact s.triggerReset_answersAfter.mono (by decide)
  · exact s.bringUp_answersAfter busAddr hd

/-- A step that goes on waits, or answers its next request from the accepted state. -/
theorem step_waits_or_answers {s t : State} (h : step s = .next t) :
    (s.stream = [] ∧ t = s) ∨ ∃ r rest, s.stream = r :: rest ∧ s.accept.AnswersAfter 3 t := by
  obtain hwait | ⟨r, rest, i, hs, -, hexec⟩ := step_cases h
  · exact .inl hwait
  · exact .inr ⟨r, rest, hs, exec_answersAfter hexec⟩

end Sys2Proof.Machine
end

section
namespace Sys2Proof.Proofs
open Sys2Proof.Machine

/-- Settles O52: a step that waits changes nothing, and a command that answers after at most three transport operations
from an empty trace has every part of the invariant. -/
theorem stepKeepsInvariant : Obligations.StepKeepsInvariant := by
  intro s t hinv h
  obtain ⟨-, rfl⟩ | ⟨r, rest, -, u, resp, hu, hresp, rfl⟩ := step_waits_or_answers h
  · exact hinv
  · exact {
      config := by simpa [hu.cfg] using hinv.config
      regs := by simpa using hu.regsOk (by simpa using hinv.regs)
      response := by simpa using hresp
      trace := by simpa using hu.trace }

/-- Settles O54: neither the transport operations of a command nor its answer change the configuration. -/
theorem noStepChangesTheConfiguration : Obligations.NoStepChangesTheConfiguration := by
  intro s t h
  obtain ⟨-, rfl⟩ | ⟨r, rest, -, u, resp, hu, -, rfl⟩ := step_waits_or_answers h
  · rfl
  · simp [hu.cfg]

/-- Settles O55: the accepted state has lost the next request alone, and the answer alone advances the index. -/
theorem oneRequestOneResponse : Obligations.OneRequestOneResponse := by
  intro s t h
  obtain hwait | ⟨r, rest, hs, u, resp, hu, -, rfl⟩ := step_waits_or_answers h
  · exact .inl hwait
  · exact .inr ⟨r, rest, resp, hs, by simp [hu.stream, hs], by simp, by simp [hu.index]⟩

end Sys2Proof.Proofs
end

section
/-! The reasons for which a command is refused, and which refusal is the configuration's. -/

namespace Sys2Proof.Machine

/-- A command that needs the link is refused only because it is closed. -/
theorem State.ifLinkOpen_refused {s t : State} {r : Refusal} (h : s.ifLinkOpen t = .refused r) : r = .linkClosed := by
  unfold State.ifLinkOpen at h
  split at h
  · cases h
  · exact (Host.Outcome.refused.inj h).symm

/-- An instruction is refused for a decoder's reason, for the closed link, or for an operand with no finite value. -/
theorem exec_refused_cases {i : Instr} {s : State} {r : Refusal} (h : exec i s = .refused r) :
    (∃ e, r = .decode e) ∨ r = .linkClosed ∨ r = .nonFiniteOperand := by
  cases i with
  | getLin f =>
    simp only [exec, execGetLin] at h
    split at h
    · cases h
      exact .inl ⟨_, rfl⟩
    · exact .inr (.inl (State.ifLinkOpen_refused h))
  | getEnum f =>
    simp only [exec, execGetEnum] at h
    split at h
    · cases h
      exact .inl ⟨_, rfl⟩
    · exact .inr (.inl (State.ifLinkOpen_refused h))
  | getBool f =>
    simp only [exec, execGetBool] at h
    split at h
    · cases h
      exact .inl ⟨_, rfl⟩
    · exact .inr (.inl (State.ifLinkOpen_refused h))
  | setLin f v =>
    simp only [exec, execSetLin] at h
    split at h
    · cases h
      exact .inl ⟨_, rfl⟩
    · split at h
      · split at h
        · exact .inr (.inl (State.ifLinkOpen_refused h))
        · cases h
      · cases h
        exact .inr (.inr rfl)
  | setEnum f n =>
    simp only [exec, execSetEnum] at h
    split at h
    · cases h
      exact .inl ⟨_, rfl⟩
    · split at h
      · exact .inr (.inl (State.ifLinkOpen_refused h))
      · cases h
  | setBool f b =>
    simp only [exec, execSetBool] at h
    split at h
    · cases h
      exact .inl ⟨_, rfl⟩
    · exact .inr (.inl (State.ifLinkOpen_refused h))
  | bringup busAddr hd => cases h
  | reset => exact .inr (.inl (State.ifLinkOpen_refused h))
  | extract off w x =>
    simp only [exec, execExtract] at h
    split at h
    · cases h
    · cases h
      exact .inl ⟨_, rfl⟩
  | insert off w x r =>
    simp only [exec, execInsert] at h
    split at h
    · cases h
    · cases h
      exact .inl ⟨_, rfl⟩
  | dequant f raw =>
    simp only [exec, execDequant] at h
    split at h
    · cases h
      exact .inl ⟨_, rfl⟩
    · split at h
      · cases h
      · cases h
        exact .inl ⟨_, rfl⟩
  | quant f v =>
    simp only [exec, execQuant] at h
    split at h
    · cases h
      exact .inl ⟨_, rfl⟩
    · split at h
      · cases h
      · cases h
        exact .inr (.inr rfl)

/-- No instruction is refused for its configuration: `step` has checked it before. -/
theorem exec_ne_illFormedConfig (i : Instr) (s : State) : exec i s ≠ .refused .illFormedConfig := by
  intro h
  obtain ⟨e, he⟩ | he | he := exec_refused_cases h <;> cases he

/-- The refusal of a step for its configuration is the well-formedness check and nothing else (spec R31). -/
theorem step_refused_illFormedConfig_iff (s : State) : step s = .refused .illFormedConfig ↔ ¬ s.cfg.wf = true := by
  refine ⟨fun h hw => ?_, fun hw => step_of_ill_formed (by simpa using hw)⟩
  cases hs : s.stream with
  | nil =>
    rw [step_of_no_request hw hs] at h
    cases h
  | cons r rest =>
    rw [step_of_request hw hs] at h
    cases hd : decode s.cfg r with
    | error e =>
      rw [hd] at h
      cases h
    | ok i =>
      rw [hd] at h
      exact exec_ne_illFormedConfig i s.accept h

end Sys2Proof.Machine
end

section
namespace Sys2Proof.Proofs
open Sys2Proof.Machine

/-- Settles O12, by the checks that make up well-formedness (`Config.wf_iff`). -/
theorem illFormedConfigurationIsRefused : Obligations.IllFormedConfigurationIsRefused := by
  intro s
  rw [step_refused_illFormedConfig_iff, Config.wf_iff]

end Sys2Proof.Proofs
end

section
/-! No operation of a command reads the caller's side of the state: the index, the coming requests and the last response
(spec R20, R22). Each commutes with replacing them. -/

namespace Sys2Proof.Machine

/-- The state with another index, other coming requests and another last response. -/
def State.withPorts (s : State) (j : Nat) (q : List Request) (r : Option Response) : State :=
  { s with index := j, stream := q, response := r }

/-- The state a command ends in, had it started at index `j` with the coming requests `q`. -/
def State.endedFrom (s : State) (j : Nat) (q : List Request) : State := { s with index := j + 1, stream := q }

/-- The outcome of a command with the state it goes on to, where it goes on, changed by `g`. -/
def onNext (g : State → State) : Host.Outcome State Fault Refusal → Host.Outcome State Fault Refusal
  | .next t => .next (g t)
  | .fault e => .fault e
  | .refused e => .refused e

@[simp] theorem onNext_next (g : State → State) (t : State) : onNext g (.next t) = .next (g t) := rfl
@[simp] theorem onNext_refused (g : State → State) (e : Refusal) : onNext g (.refused e) = .refused e := rfl

section
variable (s : State) (j : Nat) (q : List Request) (r : Option Response)

/-! ## What a command reads -/

@[simp] theorem State.withPorts_cfg : (s.withPorts j q r).cfg = s.cfg := rfl
@[simp] theorem State.withPorts_linkOpen : (s.withPorts j q r).linkOpen = s.linkOpen := rfl
@[simp] theorem State.withPorts_resetting : (s.withPorts j q r).resetting = s.resetting := rfl
@[simp] theorem State.withPorts_hasReg (a : Nat) : (s.withPorts j q r).hasReg a = s.hasReg a := rfl
@[simp] theorem State.withPorts_holds (a : Byte) (n : ByteWidth) : (s.withPorts j q r).holds a n = s.holds a n := rfl
@[simp] theorem State.withPorts_load (a : Byte) (n : ByteWidth) : (s.withPorts j q r).load a n = s.load a n := rfl
@[simp] theorem State.withPorts_nextDraw : (s.withPorts j q r).nextDraw = s.nextDraw := rfl
@[simp] theorem State.withPorts_linearField (f : Byte) : (s.withPorts j q r).linearField f = s.linearField f := rfl
@[simp] theorem State.withPorts_enumField (f : Byte) : (s.withPorts j q r).enumField f = s.enumField f := rfl
@[simp] theorem State.withPorts_boolField (f : Byte) : (s.withPorts j q r).boolField f = s.boolField f := rfl

/-! ## Registers and the device -/

@[simp] theorem State.withPorts_toDefaults : (s.withPorts j q r).toDefaults = s.toDefaults.withPorts j q r := rfl
@[simp] theorem State.withPorts_setLink (b : Bool) : (s.withPorts j q r).setLink b = (s.setLink b).withPorts j q r := rfl
@[simp] theorem State.withPorts_record (e : TraceEntry) :
    (s.withPorts j q r).record e = (s.record e).withPorts j q r := rfl

@[simp] theorem State.withPorts_poke (a : Nat) (b : Byte) :
    (s.withPorts j q r).poke a b = (s.poke a b).withPorts j q r := by
  unfold State.poke
  rw [State.withPorts_hasReg]
  split <;> rfl

@[simp] theorem State.withPorts_store (a : Byte) (n : ByteWidth) (v : Word) :
    (s.withPorts j q r).store a n v = (s.store a n v).withPorts j q r := by
  cases n <;> simp [State.store]

@[simp] theorem State.withPorts_startReset (b : Bool) :
    (s.withPorts j q r).startReset b = (s.startReset b).withPorts j q r := by
  cases b <;> rfl

@[simp] theorem State.withPorts_applyEvent (e : DeviceEvent) :
    (s.withPorts j q r).applyEvent e = (s.applyEvent e).withPorts j q r := by
  cases e with
  | change a b => exact s.withPorts_poke j q r a.toNat b
  | resetEnds =>
    by_cases h : s.resetting = true <;> simp [State.applyEvent, h]
  | powerLoss => rfl

@[simp] theorem State.withPorts_device (es : List DeviceEvent) :
    (s.withPorts j q r).device es = (s.device es).withPorts j q r := by
  induction es generalizing s with
  | nil => rfl
  | cons e es ih => rw [State.device_cons, State.withPorts_applyEvent, ih, State.device_cons]

@[simp] theorem State.withPorts_afterDraw : (s.withPorts j q r).afterDraw = s.afterDraw.withPorts j q r := by
  obtain ⟨_, _, _, _, _, _, _, _, script, env, _⟩ := s
  cases script with
  | cons d ds => rfl
  | nil => cases env <;> rfl

@[simp] theorem State.withPorts_atPhase : (s.withPorts j q r).atPhase = s.atPhase.withPorts j q r := by
  simp [State.atPhase]

/-! ## Bus phases and transport operations -/

@[simp] theorem State.withPorts_memRead (a : Byte) (n : ByteWidth) :
    (s.withPorts j q r).memRead a n = ((s.memRead a n).1, (s.memRead a n).2.withPorts j q r) := by
  simp [State.memRead]

@[simp] theorem State.withPorts_memWrite (a : Byte) (n : ByteWidth) (v : Word) :
    (s.withPorts j q r).memWrite a n v = ((s.memWrite a n v).1, (s.memWrite a n v).2.withPorts j q r) := by
  refine Prod.ext (by simp [State.memWrite_fst]) ?_
  by_cases hh : s.holds a n = true
  · by_cases hok : s.nextDraw.ok = true <;> simp [State.memWrite_snd, hh, hok]
  · simp [State.memWrite_snd, hh]

@[simp] theorem State.withPorts_readBits (a : Byte) (n : ByteWidth) (w off : Nat) :
    (s.withPorts j q r).readBits a n w off = ((s.readBits a n w off).1, (s.readBits a n w off).2.withPorts j q r) := by
  simp [State.readBits]

@[simp] theorem State.withPorts_writeBits (a : Byte) (n : ByteWidth) (w off : Nat) (raw : Word) :
    (s.withPorts j q r).writeBits a n w off raw =
      ((s.writeBits a n w off raw).1, (s.writeBits a n w off raw).2.withPorts j q r) := by
  have hread : ((s.withPorts j q r).memRead a n).1 = (s.memRead a n).1 := by simp
  cases h : (s.memRead a n).1 with
  | none =>
    rw [h] at hread
    simp [State.writeBits_of_read_failed h, State.writeBits_of_read_failed hread]
  | some v =>
    rw [h] at hread
    simp [State.writeBits_of_read h, State.writeBits_of_read hread]

@[simp] theorem State.withPorts_resetWrite :
    (s.withPorts j q r).resetWrite = (s.resetWrite.1, s.resetWrite.2.withPorts j q r) :=
  s.withPorts_writeBits ..

@[simp] theorem State.withPorts_openLink (busAddr : Byte) (h : Handle) :
    (s.withPorts j q r).openLink busAddr h =
      ((s.openLink busAddr h).1, (s.openLink busAddr h).2.withPorts j q r) := by
  simp [State.openLink]

/-! ## Commands -/

/-- The answer overwrites the last response and advances the index it finds. -/
@[simp] theorem State.withPorts_answer (p : Response) :
    (s.withPorts j q r).answer p = (s.answer p).endedFrom j q := rfl

@[simp] theorem State.withPorts_respond (v : Value) :
    (s.withPorts j q r).respond v = (s.respond v).endedFrom j q := rfl

@[simp] theorem State.withPorts_raise (e : Status) :
    (s.withPorts j q r).raise e = (s.raise e).endedFrom j q := rfl

@[simp] theorem State.withPorts_getField (d : Descriptor) (w : Nat) (decoded : Nat → Value) :
    (s.withPorts j q r).getField d w decoded = (s.getField d w decoded).endedFrom j q := by
  simp [State.getField_eq]

@[simp] theorem State.withPorts_setField (d : Descriptor) (w raw : Nat) :
    (s.withPorts j q r).setField d w raw = (s.setField d w raw).endedFrom j q := by
  simp [State.setField_eq]

@[simp] theorem State.withPorts_triggerReset :
    (s.withPorts j q r).triggerReset = s.triggerReset.endedFrom j q := by
  simp [State.triggerReset_eq]

@[simp] theorem State.withPorts_identify : (s.withPorts j q r).identify = s.identify.endedFrom j q := by
  simp only [State.identify, State.withPorts_cfg, State.withPorts_readBits]
  generalize s.readBits s.cfg.partIdAddr .one s.cfg.partIdWidth s.cfg.partIdOffset = read
  obtain ⟨_ | p, t⟩ := read
  · rfl
  · by_cases hp : p.toNat = s.cfg.partIdExpected <;> simp [hp]

@[simp] theorem State.withPorts_bringUp (busAddr : Byte) (h : Handle) :
    (s.withPorts j q r).bringUp busAddr h = (s.bringUp busAddr h).endedFrom j q := by
  simp only [State.bringUp_eq, State.withPorts_nextDraw, State.withPorts_openLink]
  split <;> simp

/-- A command that needs the link has the varied outcome from the varied state. -/
@[simp] theorem State.withPorts_ifLinkOpen (t : State) :
    (s.withPorts j q r).ifLinkOpen (t.endedFrom j q) = onNext (·.endedFrom j q) (s.ifLinkOpen t) := by
  by_cases h : s.linkOpen = true <;> simp [State.ifLinkOpen, h]

/-- The outcome of an instruction from the varied state is that from the first with its end varied the same way: it goes on
from the one exactly where it goes on from the other, and is refused for the same reason. -/
theorem exec_withPorts (i : Instr) :
    exec i (s.withPorts j q r) = onNext (·.endedFrom j q) (exec i s) := by
  cases i with
  | getLin f =>
    simp only [exec, execGetLin, State.withPorts_linearField]
    cases s.linearField f <;> simp
  | getEnum f =>
    simp only [exec, execGetEnum, State.withPorts_enumField]
    cases s.enumField f <;> simp
  | getBool f =>
    simp only [exec, execGetBool, State.withPorts_boolField]
    cases s.boolField f <;> simp
  | setLin f v =>
    simp only [exec, execSetLin, State.withPorts_linearField, State.withPorts_cfg]
    rcases s.linearField f with e | ⟨d, p⟩
    · rfl
    · by_cases hfin : operandFinite s.cfg.arith v = true
      · by_cases hvalid : validLin s.cfg.arith p v = true <;> simp [hfin, hvalid]
      · simp [hfin]
  | setEnum f n =>
    simp only [exec, execSetEnum, State.withPorts_enumField]
    rcases s.enumField f with e | ⟨d, maxOrd⟩
    · rfl
    · by_cases hvalid : validEnum maxOrd n = true <;> simp [hvalid]
  | setBool f b =>
    simp only [exec, execSetBool, State.withPorts_boolField]
    cases s.boolField f <;> simp
  | bringup busAddr h => simp [exec, execBringup]
  | reset => simp [exec, execReset]
  | extract off w x =>
    simp only [exec, execExtract]
    cases sliceFits off w <;> simp
  | insert off w x r =>
    simp only [exec, execInsert]
    cases sliceFits off w <;> simp
  | dequant f raw =>
    simp only [exec, execDequant, State.withPorts_linearField]
    rcases s.linearField f with e | ⟨d, p⟩
    · rfl
    · by_cases hraw : raw.toNat < 2 ^ d.w <;> simp [hraw]
  | quant f v =>
    simp only [exec, execQuant, State.withPorts_linearField, State.withPorts_cfg]
    rcases s.linearField f with e | ⟨d, p⟩
    · rfl
    · by_cases hfin : operandFinite s.cfg.arith v = true <;> simp [hfin]

end

end Sys2Proof.Machine
end

section
namespace Sys2Proof.Proofs
open Sys2Proof.Machine

/-- Settles O60: an instruction's outcome commutes with replacing the index, the coming requests and the last response
(`exec_withPorts`). -/
theorem earlierCommandsDoNotMatter : Obligations.EarlierCommandsDoNotMatter := by
  intro s t i j q r h
  refine ⟨t.endedFrom j q, ?_, rfl⟩
  have hvaried := exec_withPorts s j q r i
  rwa [h, onNext_next] at hvaried

end Sys2Proof.Proofs
end

section
/-! Rules for the bus phases and the transport operations (spec R52 to R58): where the bytes of an access exist, what a write
leaves by how it ends, and what is independent of the link flag. -/

namespace Sys2Proof.Machine

/-- Every byte of an access exists exactly where its last address is within `REG_ADDR_LIMIT` (spec R58). -/
theorem State.holds_iff (s : State) (a : Byte) (n : ByteWidth) :
    s.holds a n = true ↔ a.toNat + n.bytes - 1 ≤ s.cfg.regAddrLimit.toNat := by
  simp [State.holds, State.hasReg]

/-- An access does not complete where its last byte does not exist or its phase fails (spec R58, R151). -/
theorem State.holds_and_ok_eq_false {s : State} {a : Byte} {n : ByteWidth}
    (h : s.cfg.regAddrLimit.toNat < a.toNat + n.bytes - 1 ∨ s.nextDraw.ok = false) :
    (s.holds a n && s.nextDraw.ok) = false := by
  obtain hlimit | hok := h
  · have hholds : s.holds a n = false := by
      rw [← Bool.not_eq_true, State.holds_iff]
      omega
    rw [hholds, Bool.false_and]
  · rw [hok, Bool.and_false]

/-! ## The end of a write with no reaction of the device (spec R53, R58) -/

section
variable {s : State} {a : Byte} {n : ByteWidth}

/-- A write that completes leaves its value stored, and a reset running where it wrote one. -/
theorem State.memWrite_snd_of_ok (ha : s.holds a n = true) (hok : s.nextDraw.ok = true) (hafter : s.nextDraw.after = [])
    (v : Word) : (s.memWrite a n v).2 = (s.atPhase.store a n v).startReset (writesReset s.cfg a n v) := by
  simp [State.memWrite_snd, ha, hok, hafter]

/-- A write that fails at existing bytes leaves its draw's residue in them. -/
theorem State.memWrite_snd_of_failed (ha : s.holds a n = true) (hok : s.nextDraw.ok = false)
    (hafter : s.nextDraw.after = []) (v : Word) :
    (s.memWrite a n v).2 = s.atPhase.store a n s.nextDraw.residue := by
  simp [State.memWrite_snd, ha, hok, hafter]

/-- A write to bytes that do not all exist leaves what its phase found. -/
theorem State.memWrite_snd_of_missing (ha : s.holds a n = false) (hafter : s.nextDraw.after = []) (v : Word) :
    (s.memWrite a n v).2 = s.atPhase := by
  simp [State.memWrite_snd, ha, hafter]

/-- However a write ends, no register outside the bytes it addresses has changed. -/
theorem State.memWrite_sameOutside (hs : s.regsOk = true) (hafter : s.nextDraw.after = []) (v : Word) :
    s.atPhase.SameOutside (s.memWrite a n v).2 a n := by
  intro k hk
  have hp := State.atPhase_regsOk hs
  cases ha : s.holds a n with
  | false => rw [State.memWrite_snd_of_missing ha hafter]
  | true =>
    cases hok : s.nextDraw.ok with
    | false => rw [State.memWrite_snd_of_failed ha hok hafter, State.store_peek_outside hp a n _ hk]
    | true =>
      rw [State.memWrite_snd_of_ok ha hok hafter, State.startReset_peek, State.store_peek_outside hp a n v hk]

/-- A write that does not complete starts no reset, and ends none (log entry 4). -/
theorem State.memWrite_resetting_of_not_ok (h : (s.holds a n && s.nextDraw.ok) = false) (hafter : s.nextDraw.after = [])
    (v : Word) : (s.memWrite a n v).2.resetting = s.atPhase.resetting := by
  cases ha : s.holds a n with
  | false => rw [State.memWrite_snd_of_missing ha hafter]
  | true =>
    rw [ha, Bool.true_and] at h
    rw [State.memWrite_snd_of_failed ha h hafter, State.store_resetting]

/-- After a write that completes a reset runs exactly where one ran before or the write left a 1 in the reset bit. -/
theorem State.memWrite_resetting_of_ok (hs : s.regsOk = true) (ha : s.holds a n = true) (hok : s.nextDraw.ok = true)
    (hafter : s.nextDraw.after = []) (hb : s.cfg.resetBit ≤ 7) (v : Word) :
    (s.memWrite a n v).2.resetting = true ↔ s.atPhase.resetting = true ∨
      (addressed a n s.cfg.resetAddr.toNat ∧
        ((s.memWrite a n v).2.peek s.cfg.resetAddr.toNat).getLsbD s.cfg.resetBit = true) := by
  have hreset := State.store_writesReset (State.atPhase_regsOk hs) ((s.atPhase_holds a n).trans ha)
    (by rwa [State.atPhase_cfg]) v
  rw [State.atPhase_cfg] at hreset
  rw [State.memWrite_snd_of_ok ha hok hafter, State.startReset_resetting, State.startReset_peek, State.store_resetting,
    Bool.or_eq_true, hreset]

end

/-! ## The link flag and the device -/

/-- Writing a register does not read the link flag. -/
theorem State.setLink_poke (s : State) (b : Bool) (a : Nat) (x : Byte) :
    (s.setLink b).poke a x = (s.poke a x).setLink b := by
  unfold State.poke
  rw [State.setLink_hasReg]
  split <;> rfl

theorem State.setLink_applyEvent (s : State) (b : Bool) (e : DeviceEvent) :
    (s.setLink b).applyEvent e = (s.applyEvent e).setLink b := by
  cases e with
  | change a x => exact s.setLink_poke b a.toNat x
  | resetEnds =>
    by_cases h : s.resetting = true <;> simp only [State.applyEvent, State.setLink_resetting, h, if_true] <;> rfl
  | powerLoss => rfl

/-- The device does not see the link flag (spec R39). -/
theorem State.setLink_device (s : State) (b : Bool) (es : List DeviceEvent) :
    (s.setLink b).device es = (s.device es).setLink b := by
  induction es generalizing s with
  | nil => rfl
  | cons e es ih => rw [State.device_cons, State.setLink_applyEvent, ih, State.device_cons]

/-- `Open` leaves the registers to the device. -/
theorem State.openLink_peek (s : State) (busAddr : Byte) (h : Handle) (k : Nat) :
    (s.openLink busAddr h).2.peek k = (s.atPhase.device s.nextDraw.after).peek k := by
  simp [State.openLink, State.setLink_device]

end Sys2Proof.Machine
end

section
namespace Sys2Proof.Proofs
open Sys2Proof.Machine

/-- Settles O28: the slice of the loaded value as arithmetic (`extractBits_toNat`), and the registers a read leaves. -/
theorem readBitsAnswersTheSlice : Obligations.ReadBitsAnswersTheSlice := by
  intro s a n w off hslice
  refine ⟨fun hlimit hok => ⟨extractBits (s.atPhase.load a n) off w, ?_, ?_⟩, fun hfail => ?_, fun k => ?_⟩
  · rw [State.readBits_fst, (s.holds_iff a n).mpr hlimit, hok]
    rfl
  · have hw : w ≤ 16 := by cases n <;> simp only [ByteWidth.bytes] at hslice <;> omega
    rw [extractBits_toNat _ _ hw, State.load_toNat, sliceOf]
  · rw [State.readBits_fst, State.holds_and_ok_eq_false hfail]
    rfl
  · rw [State.readBits_snd, State.record_peek]

/-- Settles O29, by what a write leaves in each of its three ends: completed, failed, or at a byte that does not exist. -/
theorem memWriteStoresBigEndian : Obligations.MemWriteStoresBigEndian := by
  intro s a n v hs hafter
  have hp := State.atPhase_regsOk hs
  refine ⟨fun hlimit hok => ?_, fun hfail => ?_, State.memWrite_sameOutside hs hafter v, fun hlimit k => ?_⟩
  · have ha := (s.holds_iff a n).mpr hlimit
    have hpa := (s.atPhase_holds a n).trans ha
    refine ⟨by rw [State.memWrite_fst, ha, hok]; rfl, ?_, ?_,
      fun hb => State.memWrite_resetting_of_ok hs ha hok hafter hb v⟩
    · rintro rfl
      simp [State.memWrite_snd_of_ok ha hok hafter, State.store_one_peek hp hpa]
    · rintro rfl
      have hv := v.isLt
      simp only [State.memWrite_snd_of_ok ha hok hafter, State.startReset_peek, State.store_two_peek hp hpa]
      simp [Nat.shiftRight_eq_div_pow]
      omega
  · have hfalse := State.holds_and_ok_eq_false hfail
    exact ⟨(s.memWrite_fst a n v).trans hfalse, State.memWrite_resetting_of_not_ok hfalse hafter v⟩
  · have ha : s.holds a n = false := by
      rw [← Bool.not_eq_true, State.holds_iff]
      omega
    rw [State.memWrite_snd_of_missing ha hafter]

/-- Settles O30: the write stores the value the read found with its slice replaced, whatever registers it finds
(`State.store_insert_testBit`). -/
theorem maskedWriteLosesUpdatesBetweenItsPhases : Obligations.MaskedWriteLosesUpdatesBetweenItsPhases := by
  intro s a n w off raw hs _ hlimit
  have ha := (s.holds_iff a n).mpr hlimit
  refine ⟨fun h0 => ⟨?_, fun k => ?_⟩, fun h0 h1 hafter => ⟨?_, fun k hk => ?_⟩⟩
  · rw [State.writeBits_fst, h0, Bool.and_false, Bool.false_and]
  · rw [State.writeBits_snd_of_read_failed h0, State.record_peek, State.memRead_snd]
  · rw [State.writeBits_fst, ha, h0, h1]
    rfl
  · have hfound : (s.memRead a n).2.atPhase.regsOk = true := State.atPhase_regsOk (State.memRead_regsOk hs a n)
    have hholds : (s.memRead a n).2.atPhase.holds a n = true := (State.holds_congr (by simp) a n).trans ha
    rw [State.writeBits_snd_of_ok ha h0 h1, hafter, State.device_nil, State.record_regValue, State.startReset_regValue,
      State.store_insert_testBit hfound hholds _ raw hk, State.load_toNat]

/-- Settles O31: `Open` sets the flag and adds its entry, and the device does not see the flag (`State.openLink_peek`). -/
theorem openSetsTheLinkFlag : Obligations.OpenSetsTheLinkFlag := fun s busAddr h =>
  ⟨s.openLink_fst busAddr h, s.openLink_linkOpen busAddr h, s.openLink_trace busAddr h, s.openLink_peek busAddr h⟩

end Sys2Proof.Proofs
end

section
/-! The decoder gives an instruction of its command word's own opcode (spec R72, R82). -/

namespace Sys2Proof

/-- The opcode of a command word built from an opcode and an argument is that opcode. -/
theorem op_commandWord (op : BitVec 4) (arg : Byte) (a b : Value) :
    (Request.mk (commandWord op arg) a b).op = op := by
  refine BitVec.eq_of_toNat_eq ?_
  rw [Request.op_toNat, commandWord_toNat]
  have := arg.isLt
  omega

section
variable {cfg : Config} {r : Request} {i : Instr}

theorem op_encode_of_decodeGet (h : decodeGet cfg r = .ok i) : (encode i).op = 0x1 := by
  unfold decodeGet at h
  split at h
  · cases h
  · split at h <;> cases h <;> exact op_commandWord ..

theorem op_encode_of_decodeSet (h : decodeSet cfg r = .ok i) : (encode i).op = 0x2 := by
  unfold decodeSet at h
  split at h
  · cases h
  · split at h <;> cases h <;> exact op_commandWord ..

theorem op_encode_of_decodeBringup (h : decodeBringup r = .ok i) : (encode i).op = 0x3 := by
  unfold decodeBringup at h
  split at h <;> cases h
  exact op_commandWord ..

theorem op_encode_of_decodeReset (h : decodeReset r = .ok i) : (encode i).op = 0x4 := by
  unfold decodeReset at h
  split at h <;> cases h
  exact op_commandWord ..

theorem op_encode_of_decodeExtract (h : decodeExtract r = .ok i) : (encode i).op = 0x8 := by
  unfold decodeExtract at h
  split at h
  · cases h
  · split at h <;> cases h
    exact op_commandWord ..

theorem op_encode_of_decodeInsert (h : decodeInsert r = .ok i) : (encode i).op = 0x9 := by
  unfold decodeInsert at h
  split at h
  · cases h
  · split at h <;> cases h
    exact op_commandWord ..

theorem op_encode_of_decodeDequant (h : decodeDequant cfg r = .ok i) : (encode i).op = 0xA := by
  unfold decodeDequant at h
  split at h
  · cases h
  · split at h
    · split at h <;> cases h
      exact op_commandWord ..
    · cases h
    · cases h

theorem op_encode_of_decodeQuant (h : decodeQuant cfg r = .ok i) : (encode i).op = 0xB := by
  unfold decodeQuant at h
  split at h
  · cases h
  · split at h <;> cases h
    exact op_commandWord ..

/-- Decoding keeps the opcode: what a word decodes to encodes with that word's opcode. -/
theorem op_encode_of_decode (h : decode cfg r = .ok i) : (encode i).op = r.op := by
  refine BitVec.eq_of_toNat_eq ?_
  unfold decode at h
  split at h
  · cases h
  · split at h <;> rename_i hop
    · rw [hop, op_encode_of_decodeGet h]; rfl
    · rw [hop, op_encode_of_decodeSet h]; rfl
    · rw [hop, op_encode_of_decodeBringup h]; rfl
    · rw [hop, op_encode_of_decodeReset h]; rfl
    · rw [hop, op_encode_of_decodeExtract h]; rfl
    · rw [hop, op_encode_of_decodeInsert h]; rfl
    · rw [hop, op_encode_of_decodeDequant h]; rfl
    · rw [hop, op_encode_of_decodeQuant h]; rfl
    · cases h

/-- Only a word of opcode 0x3 decodes to BRINGUP (spec R72). -/
theorem opcode_of_decode_bringup {busAddr : Byte} {hd : Handle} (h : decode cfg r = .ok (.bringup busAddr hd)) :
    r.cmd.toNat / 4096 = 3 := by
  rw [← r.op_toNat, ← op_encode_of_decode h]
  exact congrArg BitVec.toNat (op_commandWord 0x3 busAddr (.handle hd) .none)

end

end Sys2Proof
end

section
/-! The link flag after a command (spec R39, R57): of the transport operations, only `Open` touches it. -/

namespace Sys2Proof.Machine

theorem State.getField_linkOpen (s : State) (d : Descriptor) (w : Nat) (decoded : Nat → Value) :
    (s.getField d w decoded).linkOpen = s.linkOpen := by
  rw [State.getField_eq, State.answer_linkOpen, State.readBits_linkOpen]

theorem State.setField_linkOpen (s : State) (d : Descriptor) (w raw : Nat) :
    (s.setField d w raw).linkOpen = s.linkOpen := by
  rw [State.setField_eq, State.answer_linkOpen, State.writeBits_linkOpen]

theorem State.triggerReset_linkOpen (s : State) : s.triggerReset.linkOpen = s.linkOpen := by
  rw [State.triggerReset_eq, State.answer_linkOpen, State.resetWrite, State.writeBits_linkOpen]

/-- An instruction that goes on and is no BRINGUP leaves the link flag. -/
theorem exec_linkOpen {i : Instr} {s t : State} (h : exec i s = .next t) (hi : ∀ busAddr hd, i ≠ .bringup busAddr hd) :
    t.linkOpen = s.linkOpen := by
  obtain ⟨v, rfl, -⟩ | ⟨rfl, -⟩ | ⟨d, w, decoded, -, rfl, -⟩ | ⟨d, w, raw, -, rfl, -⟩ | ⟨-, rfl, -⟩ |
    ⟨busAddr, hd, -, rfl⟩ := exec_cases h
  · exact s.respond_linkOpen v
  · exact s.raise_linkOpen _
  · exact s.getField_linkOpen d w decoded
  · exact s.setField_linkOpen d w raw
  · exact s.triggerReset_linkOpen
  · exact absurd rfl (hi busAddr hd)

end Sys2Proof.Machine
end

section
namespace Sys2Proof.Proofs
open Sys2Proof.Machine

/-- Settles O59: the request decodes to an instruction of its own opcode (`opcode_of_decode_bringup`), and none but BRINGUP
touches the flag (`exec_linkOpen`). -/
theorem onlyBringupChangesTheLink : Obligations.OnlyBringupChangesTheLink := by
  intro s t r rest hstep hs hop
  obtain ⟨hnil, -⟩ | ⟨r', rest', i, hs', hdec, hexec⟩ := step_cases hstep
  · cases hs.symm.trans hnil
  · obtain ⟨rfl, rfl⟩ := List.cons.inj (hs.symm.trans hs')
    refine (exec_linkOpen hexec fun busAddr hd hi => hop ?_).trans s.accept_linkOpen
    rw [hi] at hdec
    exact opcode_of_decode_bringup hdec

end Sys2Proof.Proofs
end

section
/-! The fields of a command word that an opcode and an argument make up, and the slice in an argument (spec R71, R74). -/

namespace Sys2Proof

/-- A command word's upper byte is its opcode above the zero reserved bits. -/
theorem commandWord_div (op : BitVec 4) (arg : Byte) : (commandWord op arg).toNat / 256 = op.toNat * 16 := by
  rw [commandWord_toNat]
  have := arg.isLt
  omega

theorem arg_commandWord (op : BitVec 4) (arg : Byte) (a b : Value) : (Request.mk (commandWord op arg) a b).arg = arg := by
  refine BitVec.eq_of_toNat_eq ?_
  rw [Request.arg_toNat, commandWord_toNat]
  have := arg.isLt
  omega

theorem Request.arg_eq_ofNat (r : Request) : r.arg = BitVec.ofNat 8 (r.cmd.toNat % 256) := by
  rw [← r.arg_toNat, BitVec.ofNat_toNat, BitVec.setWidth_eq]

/-- A command word is its three fields (spec R71). -/
theorem Request.cmd_eq {q r : Request} (hop : q.op = r.op) (hrsv : q.rsv = r.rsv) (harg : q.arg = r.arg) : q.cmd = r.cmd := by
  refine BitVec.eq_of_toNat_eq ?_
  have hop := congrArg BitVec.toNat hop
  have hrsv := congrArg BitVec.toNat hrsv
  have harg := congrArg BitVec.toNat harg
  rw [Request.op_toNat, Request.op_toNat] at hop
  rw [Request.rsv_toNat, Request.rsv_toNat] at hrsv
  rw [Request.arg_toNat, Request.arg_toNat] at harg
  omega

/-- The encoder leaves the reserved bits zero (spec R71). -/
theorem rsv_encode (i : Instr) : (encode i).rsv = 0 :=
  (encode i).rsv_eq_zero.mpr (by cases i <;> exact Laws.ReservedZero.of_commandWord ..)

/-- The argument of every slice that `ARG` can carry, inside 16 bits or not. -/
theorem sliceArg_toNat_of_lt {off w : Nat} (hoff : off < 16) (h1 : 1 ≤ w) (hw : w ≤ 16) :
    (sliceArg off w).toNat = 16 * off + (w - 1) := by
  have hw' : w - 1 < 2 ^ 4 := by omega
  rw [sliceArg, BitVec.toNat_append, BitVec.toNat_ofNat, BitVec.toNat_ofNat, Nat.mod_eq_of_lt hw', Nat.mod_eq_of_lt hoff,
    ← Nat.shiftLeft_add_eq_or_of_lt hw', Nat.shiftLeft_eq, mul_comm]

theorem sliceOff_commandWord (op : BitVec 4) {off w : Nat} (hoff : off < 16) (h1 : 1 ≤ w) (hw : w ≤ 16) (a b : Value) :
    (Request.mk (commandWord op (sliceArg off w)) a b).sliceOff = off := by
  rw [Request.sliceOff_eq, commandWord_toNat, sliceArg_toNat_of_lt hoff h1 hw]
  omega

theorem sliceWidth_commandWord (op : BitVec 4) {off w : Nat} (hoff : off < 16) (h1 : 1 ≤ w) (hw : w ≤ 16) (a b : Value) :
    (Request.mk (commandWord op (sliceArg off w)) a b).sliceWidth = w := by
  rw [Request.sliceWidth_eq, commandWord_toNat, sliceArg_toNat_of_lt hoff h1 hw]
  omega

/-- `ARG` is the slice read from it, written back. -/
theorem sliceArg_slice (r : Request) : sliceArg r.sliceOff r.sliceWidth = r.arg := by
  refine BitVec.eq_of_toNat_eq ?_
  rw [r.sliceOff_eq, r.sliceWidth_eq, r.arg_toNat, sliceArg_toNat_of_lt (by omega) (by omega) (by omega)]
  omega

end Sys2Proof
end

section
/-! What the decoder of each opcode gives, an equation per shape and operand kind (spec R76, R79, R82). -/

namespace Sys2Proof

theorem fieldAt_of_length_le {cfg : Config} {f : Byte} (h : cfg.fields.length ≤ f.toNat) :
    fieldAt cfg f = .error .badFieldIndex := by
  rw [fieldAt, List.getElem?_eq_none h]

theorem exists_fieldAt_of_lt {cfg : Config} {f : Byte} (h : f.toNat < cfg.fields.length) : ∃ d, fieldAt cfg f = .ok d :=
  ⟨_, Machine.fieldAt_eq (List.getElem?_eq_getElem h)⟩

theorem Config.fieldIs_iff {cfg : Config} {f : Byte} {p : Descriptor → Bool} :
    cfg.fieldIs f p = true ↔ ∃ d, fieldAt cfg f = .ok d ∧ p d = true := by
  unfold Config.fieldIs fieldAt
  cases cfg.fields[f.toNat]? <;> simp

theorem Descriptor.isLinear_iff {d : Descriptor} : d.isLinear = true ↔ ∃ p, d.shape = .linear p := by
  unfold Descriptor.isLinear
  cases d.shape <;> simp

theorem Descriptor.isEnum_iff {d : Descriptor} : d.isEnum = true ↔ ∃ maxOrd, d.shape = .enum maxOrd := by
  unfold Descriptor.isEnum
  cases d.shape <;> simp

theorem Descriptor.isBool_iff {d : Descriptor} : d.isBool = true ↔ ∃ inverted, d.shape = .bool inverted := by
  unfold Descriptor.isBool
  cases d.shape <;> simp

theorem Instr.wf_extract_iff {cfg : Config} {off w : Nat} {x : Word} :
    (Instr.extract off w x).wf cfg = true ↔ 1 ≤ w ∧ off + w ≤ 16 := by
  simp [Instr.wf]

theorem Instr.wf_insert_iff {cfg : Config} {off w : Nat} {x r : Word} :
    (Instr.insert off w x r).wf cfg = true ↔ 1 ≤ w ∧ off + w ≤ 16 := by
  simp [Instr.wf]

section
variable {cfg : Config} {r : Request} {f : Byte} {d : Descriptor}

/-! ## GET -/

theorem decodeGet_of_linear (harg : r.arg = f) (hf : fieldAt cfg f = .ok d) (hd : d.isLinear = true) :
    decodeGet cfg r = .ok (.getLin f) := by
  obtain ⟨p, hs⟩ := Descriptor.isLinear_iff.mp hd
  simp [decodeGet, harg, hf, hs]

theorem decodeGet_of_enum (harg : r.arg = f) (hf : fieldAt cfg f = .ok d) (hd : d.isEnum = true) :
    decodeGet cfg r = .ok (.getEnum f) := by
  obtain ⟨maxOrd, hs⟩ := Descriptor.isEnum_iff.mp hd
  simp [decodeGet, harg, hf, hs]

theorem decodeGet_of_bool (harg : r.arg = f) (hf : fieldAt cfg f = .ok d) (hd : d.isBool = true) :
    decodeGet cfg r = .ok (.getBool f) := by
  obtain ⟨inverted, hs⟩ := Descriptor.isBool_iff.mp hd
  simp [decodeGet, harg, hf, hs]

/-! ## SET -/

theorem decodeSet_of_linear {v : Rat} (harg : r.arg = f) (hf : fieldAt cfg f = .ok d) (hd : d.isLinear = true)
    (ha : r.a = .phys v) : decodeSet cfg r = .ok (.setLin f v) := by
  obtain ⟨p, hs⟩ := Descriptor.isLinear_iff.mp hd
  simp [decodeSet, harg, hf, hs, ha]

theorem decodeSet_of_enum {n : Nat} (harg : r.arg = f) (hf : fieldAt cfg f = .ok d) (hd : d.isEnum = true)
    (ha : r.a = .ord n) : decodeSet cfg r = .ok (.setEnum f n) := by
  obtain ⟨maxOrd, hs⟩ := Descriptor.isEnum_iff.mp hd
  simp [decodeSet, harg, hf, hs, ha]

theorem decodeSet_of_bool {b : Bool} (harg : r.arg = f) (hf : fieldAt cfg f = .ok d) (hd : d.isBool = true)
    (ha : r.a = .flag b) : decodeSet cfg r = .ok (.setBool f b) := by
  obtain ⟨inverted, hs⟩ := Descriptor.isBool_iff.mp hd
  simp [decodeSet, harg, hf, hs, ha]

theorem decodeSet_operandKind_iff (harg : r.arg = f) (hf : fieldAt cfg f = .ok d) :
    decodeSet cfg r = .error .operandKind ↔
      ¬ ((d.isLinear = true ∧ ∃ v, r.a = .phys v) ∨ (d.isEnum = true ∧ ∃ n, r.a = .ord n) ∨
        (d.isBool = true ∧ ∃ b, r.a = .flag b)) := by
  refine ⟨?_, fun hno => ?_⟩
  · rintro herr (⟨hd, v, ha⟩ | ⟨hd, n, ha⟩ | ⟨hd, b, ha⟩)
    · simp [decodeSet_of_linear harg hf hd ha] at herr
    · simp [decodeSet_of_enum harg hf hd ha] at herr
    · simp [decodeSet_of_bool harg hf hd ha] at herr
  · simp only [decodeSet, harg, hf]
    split
    · next p v hs ha => exact absurd (.inl ⟨Descriptor.isLinear_iff.mpr ⟨p, hs⟩, v, ha⟩) hno
    · next maxOrd n hs ha => exact absurd (.inr (.inl ⟨Descriptor.isEnum_iff.mpr ⟨maxOrd, hs⟩, n, ha⟩)) hno
    · next inverted b hs ha => exact absurd (.inr (.inr ⟨Descriptor.isBool_iff.mpr ⟨inverted, hs⟩, b, ha⟩)) hno
    · rfl

/-! ## BRINGUP and RESET -/

theorem decodeBringup_of_handle {busAddr : Byte} {h : Handle} (harg : r.arg = busAddr) (ha : r.a = .handle h) :
    decodeBringup r = .ok (.bringup busAddr h) := by
  simp [decodeBringup, harg, ha]

theorem decodeBringup_operandKind_iff : decodeBringup r = .error .operandKind ↔ ¬ ∃ h, r.a = .handle h := by
  unfold decodeBringup
  cases r.a <;> simp

/-! ## EXTRACT and INSERT -/

theorem decodeExtract_of_word {off w : Nat} {x : Word} (hoff : r.sliceOff = off) (hw : r.sliceWidth = w)
    (h : off + w ≤ 16) (ha : r.a = .word x) : decodeExtract r = .ok (.extract off w x) := by
  simp [decodeExtract, hoff, hw, ha, h]

theorem decodeInsert_of_words {off w : Nat} {x v : Word} (hoff : r.sliceOff = off) (hw : r.sliceWidth = w)
    (h : off + w ≤ 16) (ha : r.a = .word x) (hb : r.b = .word v) : decodeInsert r = .ok (.insert off w x v) := by
  simp [decodeInsert, hoff, hw, ha, hb, h]

theorem decodeExtract_of_slice_gt (h : 16 < r.sliceOff + r.sliceWidth) : decodeExtract r = .error .sliceOutOfRange :=
  if_pos h

theorem decodeInsert_of_slice_gt (h : 16 < r.sliceOff + r.sliceWidth) : decodeInsert r = .error .sliceOutOfRange :=
  if_pos h

theorem decodeExtract_operandKind_iff (h : r.sliceOff + r.sliceWidth ≤ 16) :
    decodeExtract r = .error .operandKind ↔ ¬ ∃ x, r.a = .word x := by
  rw [decodeExtract, if_neg (by omega)]
  cases r.a <;> simp

theorem decodeInsert_operandKind_iff (h : r.sliceOff + r.sliceWidth ≤ 16) :
    decodeInsert r = .error .operandKind ↔ ¬ ((∃ x, r.a = .word x) ∧ ∃ v, r.b = .word v) := by
  rw [decodeInsert, if_neg (by omega)]
  split
  · next x v ha hb => simp [ha, hb]
  · next hno =>
    simp only [true_iff]
    rintro ⟨⟨x, ha⟩, v, hb⟩
    exact hno x v ha hb

/-! ## DEQUANT and QUANT -/

theorem decodeDequant_of_linear {raw : Word} (harg : r.arg = f) (hf : fieldAt cfg f = .ok d) (hd : d.isLinear = true)
    (ha : r.a = .word raw) (hraw : raw.toNat < 2 ^ d.w) : decodeDequant cfg r = .ok (.dequant f raw) := by
  obtain ⟨p, hs⟩ := Descriptor.isLinear_iff.mp hd
  simp [decodeDequant, harg, hf, hs, ha, hraw]

theorem decodeDequant_of_not_linear (harg : r.arg = f) (hf : fieldAt cfg f = .ok d) (hd : d.isLinear = false) :
    decodeDequant cfg r = .error .shapeMismatch := by
  cases hs : d.shape with
  | linear p => exact absurd (Descriptor.isLinear_iff.mpr ⟨p, hs⟩) (by simp [hd])
  | enum maxOrd => simp [decodeDequant, harg, hf, hs]
  | bool inverted => simp [decodeDequant, harg, hf, hs]

theorem decodeDequant_operandKind_iff (harg : r.arg = f) (hf : fieldAt cfg f = .ok d) (hd : d.isLinear = true) :
    decodeDequant cfg r = .error .operandKind ↔ ¬ ∃ x, r.a = .word x ∧ x.toNat < 2 ^ d.w := by
  obtain ⟨p, hs⟩ := Descriptor.isLinear_iff.mp hd
  simp only [decodeDequant, harg, hf, hs]
  cases r.a <;> simp

theorem decodeQuant_of_linear {v : Rat} (harg : r.arg = f) (hf : fieldAt cfg f = .ok d) (hd : d.isLinear = true)
    (ha : r.a = .phys v) : decodeQuant cfg r = .ok (.quant f v) := by
  obtain ⟨p, hs⟩ := Descriptor.isLinear_iff.mp hd
  simp [decodeQuant, harg, hf, hs, ha]

theorem decodeQuant_of_not_linear (harg : r.arg = f) (hf : fieldAt cfg f = .ok d) (hd : d.isLinear = false) :
    decodeQuant cfg r = .error .shapeMismatch := by
  cases hs : d.shape with
  | linear p => exact absurd (Descriptor.isLinear_iff.mpr ⟨p, hs⟩) (by simp [hd])
  | enum maxOrd => simp [decodeQuant, harg, hf, hs]
  | bool inverted => simp [decodeQuant, harg, hf, hs]

theorem decodeQuant_operandKind_iff (harg : r.arg = f) (hf : fieldAt cfg f = .ok d) (hd : d.isLinear = true) :
    decodeQuant cfg r = .error .operandKind ↔ ¬ ∃ v, r.a = .phys v := by
  obtain ⟨p, hs⟩ := Descriptor.isLinear_iff.mp hd
  simp only [decodeQuant, harg, hf, hs]
  cases r.a <;> simp

end

end Sys2Proof
end

section
namespace Sys2Proof.Proofs

/-- Settles O1: per instruction, its command word has its opcode and argument, and the decoder of that opcode reads them back;
well-formedness gives the field's shape, the slice's bound and the raw value's. -/
theorem decodeOfEncodeIsTheInstruction : Obligations.DecodeOfEncodeIsTheInstruction := by
  intro cfg i hwf
  cases i with
  | getLin f =>
    obtain ⟨d, hf, hd⟩ := Config.fieldIs_iff.mp hwf
    exact (decode_get (commandWord_div 0x1 f)).trans (decodeGet_of_linear (arg_commandWord ..) hf hd)
  | getEnum f =>
    obtain ⟨d, hf, hd⟩ := Config.fieldIs_iff.mp hwf
    exact (decode_get (commandWord_div 0x1 f)).trans (decodeGet_of_enum (arg_commandWord ..) hf hd)
  | getBool f =>
    obtain ⟨d, hf, hd⟩ := Config.fieldIs_iff.mp hwf
    exact (decode_get (commandWord_div 0x1 f)).trans (decodeGet_of_bool (arg_commandWord ..) hf hd)
  | setLin f v =>
    obtain ⟨d, hf, hd⟩ := Config.fieldIs_iff.mp hwf
    exact (decode_set (commandWord_div 0x2 f)).trans (decodeSet_of_linear (arg_commandWord ..) hf hd rfl)
  | setEnum f n =>
    obtain ⟨d, hf, hd⟩ := Config.fieldIs_iff.mp hwf
    exact (decode_set (commandWord_div 0x2 f)).trans (decodeSet_of_enum (arg_commandWord ..) hf hd rfl)
  | setBool f b =>
    obtain ⟨d, hf, hd⟩ := Config.fieldIs_iff.mp hwf
    exact (decode_set (commandWord_div 0x2 f)).trans (decodeSet_of_bool (arg_commandWord ..) hf hd rfl)
  | bringup busAddr h =>
    exact (decode_bringup (commandWord_div 0x3 busAddr)).trans (decodeBringup_of_handle (arg_commandWord ..) rfl)
  | reset => exact (decode_reset (commandWord_div 0x4 0)).trans (if_pos (arg_commandWord ..))
  | extract off w x =>
    obtain ⟨h1, h⟩ := Instr.wf_extract_iff.mp hwf
    exact (decode_extract (commandWord_div 0x8 _)).trans (decodeExtract_of_word
      (sliceOff_commandWord _ (by omega) h1 (by omega) ..) (sliceWidth_commandWord _ (by omega) h1 (by omega) ..) h rfl)
  | insert off w x r =>
    obtain ⟨h1, h⟩ := Instr.wf_insert_iff.mp hwf
    exact (decode_insert (commandWord_div 0x9 _)).trans (decodeInsert_of_words
      (sliceOff_commandWord _ (by omega) h1 (by omega) ..) (sliceWidth_commandWord _ (by omega) h1 (by omega) ..) h rfl rfl)
  | dequant f raw =>
    obtain ⟨d, hf, hd⟩ := Config.fieldIs_iff.mp hwf
    obtain ⟨hlin, hraw⟩ : d.isLinear = true ∧ raw.toNat < 2 ^ d.w := by simpa using hd
    exact (decode_dequant (commandWord_div 0xA f)).trans (decodeDequant_of_linear (arg_commandWord ..) hf hlin rfl hraw)
  | quant f v =>
    obtain ⟨d, hf, hd⟩ := Config.fieldIs_iff.mp hwf
    exact (decode_quant (commandWord_div 0xB f)).trans (decodeQuant_of_linear (arg_commandWord ..) hf hd rfl)

end Sys2Proof.Proofs
end

section
/-! What the decoder gives is an instruction the configuration can express, with the argument of its command word
(spec R73, R74, R79). -/

namespace Sys2Proof

section
variable {cfg : Config} {r : Request} {i : Instr}

theorem wf_and_arg_of_decodeGet (h : decodeGet cfg r = .ok i) : i.wf cfg = true ∧ (encode i).arg = r.arg := by
  unfold decodeGet at h
  split at h
  · cases h
  · next d hf =>
    split at h <;> cases h
    · next p hs => exact ⟨Config.fieldIs_iff.mpr ⟨d, hf, Descriptor.isLinear_iff.mpr ⟨p, hs⟩⟩, arg_commandWord ..⟩
    · next m hs => exact ⟨Config.fieldIs_iff.mpr ⟨d, hf, Descriptor.isEnum_iff.mpr ⟨m, hs⟩⟩, arg_commandWord ..⟩
    · next b hs => exact ⟨Config.fieldIs_iff.mpr ⟨d, hf, Descriptor.isBool_iff.mpr ⟨b, hs⟩⟩, arg_commandWord ..⟩

theorem wf_and_arg_of_decodeSet (h : decodeSet cfg r = .ok i) : i.wf cfg = true ∧ (encode i).arg = r.arg := by
  unfold decodeSet at h
  split at h
  · cases h
  · next d hf =>
    split at h <;> cases h
    · next p v hs _ => exact ⟨Config.fieldIs_iff.mpr ⟨d, hf, Descriptor.isLinear_iff.mpr ⟨p, hs⟩⟩, arg_commandWord ..⟩
    · next m n hs _ => exact ⟨Config.fieldIs_iff.mpr ⟨d, hf, Descriptor.isEnum_iff.mpr ⟨m, hs⟩⟩, arg_commandWord ..⟩
    · next b c hs _ => exact ⟨Config.fieldIs_iff.mpr ⟨d, hf, Descriptor.isBool_iff.mpr ⟨b, hs⟩⟩, arg_commandWord ..⟩

theorem wf_and_arg_of_decodeBringup (h : decodeBringup r = .ok i) : i.wf cfg = true ∧ (encode i).arg = r.arg := by
  unfold decodeBringup at h
  split at h <;> cases h
  exact ⟨rfl, arg_commandWord ..⟩

theorem wf_and_arg_of_decodeReset (h : decodeReset r = .ok i) : i.wf cfg = true ∧ (encode i).arg = r.arg := by
  unfold decodeReset at h
  split at h <;> cases h
  next harg => exact ⟨rfl, (arg_commandWord ..).trans harg.symm⟩

theorem wf_and_arg_of_decodeExtract (h : decodeExtract r = .ok i) : i.wf cfg = true ∧ (encode i).arg = r.arg := by
  unfold decodeExtract at h
  split at h
  · cases h
  · next hle =>
    split at h <;> cases h
    exact ⟨Instr.wf_extract_iff.mpr ⟨Nat.succ_pos _, Nat.not_lt.mp hle⟩, (arg_commandWord ..).trans (sliceArg_slice r)⟩

theorem wf_and_arg_of_decodeInsert (h : decodeInsert r = .ok i) : i.wf cfg = true ∧ (encode i).arg = r.arg := by
  unfold decodeInsert at h
  split at h
  · cases h
  · next hle =>
    split at h <;> cases h
    exact ⟨Instr.wf_insert_iff.mpr ⟨Nat.succ_pos _, Nat.not_lt.mp hle⟩, (arg_commandWord ..).trans (sliceArg_slice r)⟩

theorem wf_and_arg_of_decodeDequant (h : decodeDequant cfg r = .ok i) : i.wf cfg = true ∧ (encode i).arg = r.arg := by
  unfold decodeDequant at h
  split at h
  · cases h
  · next d hf =>
    split at h
    · next p raw hs _ =>
      split at h <;> cases h
      next hraw =>
        have hd : d.isLinear = true := Descriptor.isLinear_iff.mpr ⟨p, hs⟩
        exact ⟨Config.fieldIs_iff.mpr ⟨d, hf, by simp [hd, hraw]⟩, arg_commandWord ..⟩
    · cases h
    · cases h

theorem wf_and_arg_of_decodeQuant (h : decodeQuant cfg r = .ok i) : i.wf cfg = true ∧ (encode i).arg = r.arg := by
  unfold decodeQuant at h
  split at h
  · cases h
  · next d hf =>
    split at h <;> cases h
    next p v hs _ => exact ⟨Config.fieldIs_iff.mpr ⟨d, hf, Descriptor.isLinear_iff.mpr ⟨p, hs⟩⟩, arg_commandWord ..⟩

theorem wf_and_arg_of_decode (h : decode cfg r = .ok i) : i.wf cfg = true ∧ (encode i).arg = r.arg := by
  unfold decode at h
  split at h
  · cases h
  · split at h
    · exact wf_and_arg_of_decodeGet h
    · exact wf_and_arg_of_decodeSet h
    · exact wf_and_arg_of_decodeBringup h
    · exact wf_and_arg_of_decodeReset h
    · exact wf_and_arg_of_decodeExtract h
    · exact wf_and_arg_of_decodeInsert h
    · exact wf_and_arg_of_decodeDequant h
    · exact wf_and_arg_of_decodeQuant h
    · cases h

/-- Only a request whose reserved bits are zero decodes (spec R81). -/
theorem rsv_of_decode (h : decode cfg r = .ok i) : r.rsv = 0 := by
  by_contra hrsv
  rw [decode, if_pos hrsv] at h
  cases h

end

end Sys2Proof
end

section
/-! A request the decoder refuses (spec R12, R73, R82). -/

namespace Sys2Proof

/-- A request that does not decode is refused for the decoder's reason. -/
theorem step_of_decode_error {s : Machine.State} {r : Request} {rest : List Request} {e : DecodeError}
    (hw : s.cfg.wf = true) (hs : s.stream = r :: rest) (he : decode s.cfg r = .error e) :
    Machine.step s = .refused (.decode e) := by
  rw [Machine.step_of_request hw hs, he]

theorem decodeReset_of_arg_ne {r : Request} (h : r.arg ≠ 0) : decodeReset r = .error .reservedBits :=
  if_neg h

section
variable {cfg : Config} {r : Request} {d : Descriptor}

/-! Past the lookup, no check gives the reason of a bad index. -/

theorem decodeGet_ne_badFieldIndex (hf : fieldAt cfg r.arg = .ok d) : decodeGet cfg r ≠ .error .badFieldIndex := by
  simp only [decodeGet, hf]
  split <;> simp

theorem decodeSet_ne_badFieldIndex (hf : fieldAt cfg r.arg = .ok d) : decodeSet cfg r ≠ .error .badFieldIndex := by
  simp only [decodeSet, hf]
  split <;> simp

theorem decodeDequant_ne_badFieldIndex (hf : fieldAt cfg r.arg = .ok d) : decodeDequant cfg r ≠ .error .badFieldIndex := by
  simp only [decodeDequant, hf]
  split
  · split <;> simp
  · simp
  · simp

theorem decodeQuant_ne_badFieldIndex (hf : fieldAt cfg r.arg = .ok d) : decodeQuant cfg r ≠ .error .badFieldIndex := by
  simp only [decodeQuant, hf]
  split <;> simp

end

end Sys2Proof
end

section
namespace Sys2Proof.Proofs
open Sys2Proof.Machine

/-- Settles O2: the instruction's command word and the request's agree in opcode, reserved bits and argument. -/
theorem decodedInstructionIsWellFormed : Obligations.DecodedInstructionIsWellFormed := by
  intro cfg r i h
  obtain ⟨hwf, harg⟩ := wf_and_arg_of_decode h
  exact ⟨hwf, Request.cmd_eq (op_encode_of_decode h) ((rsv_encode i).trans (rsv_of_decode h).symm) harg⟩

/-- Settles O4: the reserved bits are checked first, and where they are zero the opcode is none of the eight. -/
theorem reservedOpcodeIsRefused : Obligations.ReservedOpcodeIsRefused := by
  intro s r rest hw hs hop
  by_cases hrsv : r.cmd.toNat / 256 % 16 = 0
  · have hnot : ∀ op ∈ [0x0, 0x5, 0x6, 0x7, 0xC, 0xD, 0xE, 0xF], op ∉ [0x1, 0x2, 0x3, 0x4, 0x8, 0x9, 0xA, 0xB] := by decide
    exact ⟨_, step_of_decode_error hw hs (decode_reserved hrsv (hnot _ hop)), fun _ => rfl⟩
  · exact ⟨_, step_of_decode_error hw hs (decode_reservedBits hrsv), fun h => absurd h hrsv⟩

/-- Settles O5: the reserved bits are checked whatever the opcode, and RESET checks its argument. -/
theorem reservedBitsAreRefused : Obligations.ReservedBitsAreRefused := by
  intro s r rest hw hs
  refine ⟨fun hrsv => step_of_decode_error hw hs (decode_reservedBits hrsv), fun hop harg => step_of_decode_error hw hs ?_⟩
  rw [decode_reset hop]
  refine decodeReset_of_arg_ne fun h => harg ?_
  rw [← r.arg_toNat, h]; rfl

/-- Settles O6: the lookup fails exactly from the table's length on, and no other check gives its reason. -/
theorem fieldIndexIsChecked : Obligations.FieldIndexIsChecked := by
  intro cfg r hop
  simp only [List.mem_cons, List.not_mem_nil, or_false] at hop
  rw [← r.arg_toNat]
  rcases le_or_gt cfg.fields.length r.arg.toNat with hle | hlt
  · refine iff_of_true ?_ hle
    have hf := fieldAt_of_length_le hle
    rcases hop with hop | hop | hop | hop
    · rw [decode_get hop, decodeGet, hf]
    · rw [decode_set hop, decodeSet, hf]
    · rw [decode_dequant hop, decodeDequant, hf]
    · rw [decode_quant hop, decodeQuant, hf]
  · refine iff_of_false ?_ hlt.not_ge
    obtain ⟨d, hf⟩ := exists_fieldAt_of_lt hlt
    rcases hop with hop | hop | hop | hop
    · exact decode_get hop ▸ decodeGet_ne_badFieldIndex hf
    · exact decode_set hop ▸ decodeSet_ne_badFieldIndex hf
    · exact decode_dequant hop ▸ decodeDequant_ne_badFieldIndex hf
    · exact decode_quant hop ▸ decodeQuant_ne_badFieldIndex hf

/-- Settles O7: the decoder of each opcode, by the shape of the descriptor the lookup finds. -/
theorem shapeSelectsTheVariant : Obligations.ShapeSelectsTheVariant := by
  intro cfg r d hd
  have hf : fieldAt cfg (BitVec.ofNat 8 (r.cmd.toNat % 256)) = .ok d := fieldAt_eq (by simpa using hd)
  have harg := r.arg_eq_ofNat
  refine ⟨fun hop => ?_, fun hop => ?_, fun hop hlin => ?_⟩
  · rw [decode_get hop]
    exact ⟨decodeGet_of_linear harg hf, decodeGet_of_enum harg hf, decodeGet_of_bool harg hf⟩
  · rw [decode_set hop]
    exact ⟨fun v => decodeSet_of_linear harg hf, fun n => decodeSet_of_enum harg hf, fun b => decodeSet_of_bool harg hf⟩
  · rcases hop with hop | hop
    · exact (decode_dequant hop).trans (decodeDequant_of_not_linear harg hf hlin)
    · exact (decode_quant hop).trans (decodeQuant_of_not_linear harg hf hlin)

/-- Settles O8, by the operand check of each opcode's decoder. -/
theorem operandKindIsChecked : Obligations.OperandKindIsChecked := by
  intro cfg r
  refine ⟨fun d hd => ?_, fun hop => decode_bringup (cfg := cfg) hop ▸ decodeBringup_operandKind_iff, fun hslice => ?_⟩
  · have hf : fieldAt cfg r.arg = .ok d := fieldAt_eq (by rwa [r.arg_toNat])
    exact ⟨fun hop => decode_set (cfg := cfg) hop ▸ decodeSet_operandKind_iff rfl hf,
      fun hop hlin => decode_dequant (cfg := cfg) hop ▸ decodeDequant_operandKind_iff rfl hf hlin,
      fun hop hlin => decode_quant (cfg := cfg) hop ▸ decodeQuant_operandKind_iff rfl hf hlin⟩
  · rw [← r.sliceOff_eq, ← r.sliceWidth_eq] at hslice
    exact ⟨fun hop => decode_extract (cfg := cfg) hop ▸ decodeExtract_operandKind_iff hslice,
      fun hop => decode_insert (cfg := cfg) hop ▸ decodeInsert_operandKind_iff hslice⟩

/-- Settles O9: the slice is the argument's two halves, and its check comes before the operands'. -/
theorem sliceOperandsAreDecoded : Obligations.SliceOperandsAreDecoded := by
  intro cfg r
  rw [← r.sliceOff_eq, ← r.sliceWidth_eq]
  refine ⟨?_, fun hle x v ha => ⟨fun hop => ?_, fun hop hb => ?_⟩⟩
  · rintro (hop | hop) hgt
    · exact (decode_extract hop).trans (decodeExtract_of_slice_gt hgt)
    · exact (decode_insert hop).trans (decodeInsert_of_slice_gt hgt)
  · exact (decode_extract hop).trans (decodeExtract_of_word rfl rfl hle ha)
  · exact (decode_insert hop).trans (decodeInsert_of_words rfl rfl hle ha hb)

end Sys2Proof.Proofs
end

section
/-! The assembler's command words and field references (spec R85, R86). -/

namespace Sys2Proof

/-- An assembler form's word, written as a sum, is the command word of its opcode and argument. -/
theorem add_setWidth_eq_commandWord {base : Word} {op : BitVec 4} (h : base.toNat = op.toNat * 4096) (arg : Byte) :
    base + arg.setWidth 16 = commandWord op arg := by
  refine BitVec.eq_of_toNat_eq ?_
  rw [BitVec.toNat_add, BitVec.toNat_setWidth, commandWord_toNat, h]
  omega

/-- A slice form's word, written as a number, is the command word of its opcode and slice. -/
theorem ofNat_eq_commandWord_sliceArg {base off w : Nat} {op : BitVec 4} (h : base = op.toNat * 4096) (hoff : off < 16)
    (h1 : 1 ≤ w) (hw : w ≤ 16) : BitVec.ofNat 16 (base + 16 * off + (w - 1)) = commandWord op (sliceArg off w) := by
  refine BitVec.eq_of_toNat_eq ?_
  rw [BitVec.toNat_ofNat, commandWord_toNat, sliceArg_toNat_of_lt hoff h1 hw, h]
  omega

/-- A name stands for the first descriptor that has it (log entry 18). -/
theorem fieldIndex_name {cfg : Config} {k : Nat} {d : Descriptor} (hd : cfg.fields[k]? = some d)
    (hfirst : ∀ j e, j < k → cfg.fields[j]? = some e → e.name ≠ d.name) :
    fieldIndex cfg (.name d.name) = fieldIndex cfg (.index (BitVec.ofNat 8 k)) := by
  obtain ⟨hk, rfl⟩ := List.getElem?_eq_some_iff.mp hd
  have hfind : cfg.fields.findIdx? (fun e => e.name == cfg.fields[k].name) = some k := by
    refine List.findIdx?_eq_some_iff_getElem.mpr ⟨hk, by simp, fun j hj => ?_⟩
    simpa using hfirst j _ hj (List.getElem?_eq_getElem (hj.trans hk))
  rw [fieldIndex, fieldIndex, hfind, Option.map_some]

/-- An assembler line depends on its field reference by the index alone. -/
theorem assemble_congr_field {cfg : Config} {f g : FieldRef} (h : fieldIndex cfg f = fieldIndex cfg g) :
    assemble cfg (.get f) = assemble cfg (.get g) ∧ (∀ v, assemble cfg (.set f v) = assemble cfg (.set g v)) ∧
      (∀ x, assemble cfg (.dequant f x) = assemble cfg (.dequant g x)) ∧
      ∀ v, assemble cfg (.quant f v) = assemble cfg (.quant g v) := by
  simp [assemble, h]

/-- The forms with a field written by index, each with the word of its opcode. -/
theorem assemble_index (cfg : Config) (f : Byte) :
    assemble cfg (.get (.index f)) = some { cmd := commandWord 0x1 f, a := .none, b := .none } ∧
      (∀ v, assemble cfg (.set (.index f) v) = some { cmd := commandWord 0x2 f, a := v, b := .none }) ∧
      (∀ x, assemble cfg (.dequant (.index f) x) = some { cmd := commandWord 0xA f, a := .word x, b := .none }) ∧
      ∀ v, assemble cfg (.quant (.index f) v) = some { cmd := commandWord 0xB f, a := .phys v, b := .none } := by
  refine ⟨?_, fun v => ?_, fun x => ?_, fun v => ?_⟩
  · rw [← add_setWidth_eq_commandWord (base := 0x1000) rfl]; rfl
  · rw [← add_setWidth_eq_commandWord (base := 0x2000) rfl]; rfl
  · rw [← add_setWidth_eq_commandWord (base := 0xA000) rfl]; rfl
  · rw [← add_setWidth_eq_commandWord (base := 0xB000) rfl]; rfl

theorem assemble_bringup (cfg : Config) (busAddr : Option Byte) (h : Handle) :
    assemble cfg (.bringup busAddr h) = some (encode (.bringup (busAddr.getD cfg.defaultBusAddr) h)) := by
  rw [encode, ← add_setWidth_eq_commandWord (base := 0x3000) rfl]; rfl

theorem assemble_extract (cfg : Config) {off w : Nat} (hoff : off < 16) (h1 : 1 ≤ w) (hw : w ≤ 16) (x : Word) :
    assemble cfg (.extract off w x) = some (encode (.extract off w x)) := by
  rw [assemble, if_pos ⟨hoff, h1, hw⟩, encode, ofNat_eq_commandWord_sliceArg (base := 0x8000) (op := 0x8) rfl hoff h1 hw]

theorem assemble_insert (cfg : Config) {off w : Nat} (hoff : off < 16) (h1 : 1 ≤ w) (hw : w ≤ 16) (x r : Word) :
    assemble cfg (.insert off w x r) = some (encode (.insert off w x r)) := by
  rw [assemble, if_pos ⟨hoff, h1, hw⟩, encode, ofNat_eq_commandWord_sliceArg (base := 0x9000) (op := 0x9) rfl hoff h1 hw]

end Sys2Proof
end

section
/-! What each of the shared operations answers (spec R77). -/

namespace Sys2Proof.Machine

/-- A GET answers a transport failure, or a decoded raw value. -/
theorem State.getField_response (s : State) (d : Descriptor) (w : Nat) (decoded : Nat → Value) :
    (s.getField d w decoded).response = some ⟨.transportFailure, .none⟩ ∨
      ∃ raw, (s.getField d w decoded).response = some ⟨.ok, decoded raw⟩ := by
  rw [State.getField_eq, State.answer_response]
  cases (s.readBits d.addr d.bw w d.off).1 with
  | none => exact .inl rfl
  | some raw => exact .inr ⟨raw.toNat, rfl⟩

theorem State.setField_response (s : State) (d : Descriptor) (w raw : Nat) :
    ∃ e, (s.setField d w raw).response = some ⟨e, .none⟩ := by
  rw [State.setField_eq]
  exact ⟨_, State.answer_response _ _⟩

theorem State.triggerReset_response (s : State) : ∃ e, s.triggerReset.response = some ⟨e, .none⟩ := by
  rw [State.triggerReset_eq]
  exact ⟨_, State.answer_response _ _⟩

theorem State.bringUp_response (s : State) (busAddr : Byte) (h : Handle) :
    ∃ e, (s.bringUp busAddr h).response = some ⟨e, .none⟩ := by
  obtain ⟨-, he⟩ | ⟨-, -, he⟩ | ⟨p, -, -, ⟨-, he⟩ | ⟨-, he⟩⟩ := s.bringUp_cases busAddr h <;> rw [he]
  · exact ⟨_, State.raise_response _ _⟩
  · exact ⟨_, State.raise_response _ _⟩
  · exact ⟨_, State.raise_response _ _⟩
  · exact State.triggerReset_response _

end Sys2Proof.Machine
end

section
namespace Sys2Proof.Proofs
open Sys2Proof.Machine

/-- Settles O10: the forms' words are the encoder's, and a line depends on its field by the index alone. -/
theorem assemblerFormsMatchTheEncoder : Obligations.AssemblerFormsMatchTheEncoder := by
  intro cfg
  refine ⟨fun f v n b busAddr h off w x r => ?_, fun k d hd hfirst => assemble_congr_field (fieldIndex_name hd hfirst)⟩
  obtain ⟨hget, hset, hdequant, hquant⟩ := assemble_index cfg f
  exact ⟨hget, hset _, hset _, hset _, assemble_bringup cfg (some busAddr) h, assemble_bringup cfg none h, rfl,
    fun hoff h1 hw => assemble_extract cfg hoff h1 hw x, fun hoff h1 hw => assemble_insert cfg hoff h1 hw x r,
    hdequant x, hquant v⟩

/-- Settles O58, by every way an instruction goes on (`exec_cases`) and what each answers. -/
theorem resultKindsAreAsTabled : Obligations.ResultKindsAreAsTabled := by
  intro s t i h
  obtain ⟨v, rfl, hv⟩ | ⟨rfl, -⟩ | ⟨d, w, decoded, -, rfl, hi⟩ | ⟨d, w, raw, -, rfl, hi⟩ | ⟨-, rfl, rfl⟩ |
    ⟨busAddr, hd, rfl, rfl⟩ := exec_cases h
  · refine ⟨_, s.respond_response v, fun hne => absurd rfl hne, fun _ => ?_⟩
    obtain ⟨⟨f, raw, rfl⟩, hq⟩ | ⟨⟨off, w, x, rfl⟩ | ⟨off, w, x, r, rfl⟩ | ⟨f, q, rfl⟩, hx⟩ := hv
    · exact hq
    · exact hx
    · exact hx
    · exact hx
  · exact ⟨_, s.raise_response _, fun _ => rfl, fun hok => absurd hok (by decide)⟩
  · obtain hfail | ⟨raw, hok⟩ := s.getField_response d w decoded
    · exact ⟨_, hfail, fun _ => rfl, fun hok => absurd hok (by decide)⟩
    · refine ⟨_, hok, fun hne => absurd rfl hne, fun _ => ?_⟩
      obtain ⟨⟨f, rfl⟩, hkind⟩ | ⟨⟨f, rfl⟩, hkind⟩ | ⟨⟨f, rfl⟩, hkind⟩ := hi
      · exact hkind raw
      · exact hkind raw
      · exact hkind raw
  · obtain ⟨e, he⟩ := s.setField_response d w raw
    refine ⟨_, he, fun _ => rfl, fun _ => ?_⟩
    obtain ⟨f, v, rfl⟩ | ⟨f, n, rfl⟩ | ⟨f, b, rfl⟩ := hi <;> rfl
  · obtain ⟨e, he⟩ := s.triggerReset_response
    exact ⟨_, he, fun _ => rfl, fun _ => rfl⟩
  · obtain ⟨e, he⟩ := s.bringUp_response busAddr hd
    exact ⟨_, he, fun _ => rfl, fun _ => rfl⟩

end Sys2Proof.Proofs
end

section
/-! The bit-slice unit (spec R90 to R93): when EXTRACT and INSERT go on, and its laws bit by bit. -/

namespace Sys2Proof.Machine

theorem exec_extract_of_fits {off w : Nat} (h1 : 1 ≤ w) (h : off + w ≤ 16) (x : Word) (s : State) :
    exec (.extract off w x) s = .next (s.respond (.word (extractBits x off w))) :=
  if_pos (sliceFits_eq.mpr ⟨h1, h⟩)

theorem exec_insert_of_fits {off w : Nat} (h1 : 1 ≤ w) (h : off + w ≤ 16) (x r : Word) (s : State) :
    exec (.insert off w x r) s = .next (s.respond (.word (insertBits x off w r))) :=
  if_pos (sliceFits_eq.mpr ⟨h1, h⟩)

/-- Cutting a raw value to a slice's width is the remainder by its power of two. -/
theorem and_mask_toNat (r : Word) {w : Nat} (hw : w ≤ 16) : (r &&& mask w).toNat = r.toNat % 2 ^ w := by
  simpa [extractBits, sliceOf] using extractBits_toNat r 0 hw

/-- Putting a slice back where it was read changes nothing. -/
theorem insertBits_extractBits (x : Word) (off w : Nat) : insertBits x off w (extractBits x off w) = x := by
  refine BitVec.eq_of_getLsbD_eq fun k hk => ?_
  rw [insertBits_getLsbD _ _ _ _ hk]
  split
  · next hin =>
    obtain ⟨hoff, hlt⟩ := hin
    have hw : k - off < w := by omega
    have h16 : k - off < 16 := by omega
    rw [extractBits_getLsbD, Nat.add_sub_cancel' hoff, decide_eq_true hw, decide_eq_true h16, Bool.and_true,
      Bool.and_true]
  · rfl

/-- Two field masks meet exactly at a bit position that lies in both slices. -/
theorem fmask_and_eq_zero_iff (d e : Descriptor) :
    fmask d &&& fmask e = 0 ↔ ∀ k < 16, ¬ ((d.off ≤ k ∧ k < d.off + d.w) ∧ (e.off ≤ k ∧ k < e.off + e.w)) := by
  rw [BitVec.eq_of_getLsbD_eq_iff]
  refine forall₂_congr fun k hk => ?_
  rw [BitVec.getLsbD_and, fmask_getLsbD d hk, fmask_getLsbD e hk, BitVec.ofNat_eq_ofNat, BitVec.getLsbD_zero,
    ← Bool.decide_and, decide_eq_false_iff_not]

end Sys2Proof.Machine
end

section
namespace Sys2Proof.Proofs
open Sys2Proof.Machine

/-- Settles O13: the slice fits, and EXTRACT is the arithmetic slice (`extractBits_toNat`). -/
theorem extractCompletes : Obligations.ExtractCompletes := fun s off w x h1 h =>
  ⟨extractBits x off w, extractBits_toNat x off (by omega), exec_extract_of_fits h1 h x s⟩

/-- Settles O14: the slice fits, and INSERT is known bit by bit (`insertBits_getLsbD`). -/
theorem insertCompletes : Obligations.InsertCompletes := fun s off w x r h1 h =>
  ⟨insertBits x off w r, fun _ hk => insertBits_getLsbD x r off w hk, exec_insert_of_fits h1 h x r s⟩

/-- Settles O15, law by law: what INSERT put in reads back cut to the slice, and each bit of INSERT is the raw value's
inside the slice and the register value's outside it. -/
theorem bitSliceUnitLaws : Obligations.BitSliceUnitLaws := by
  intro x r off w h
  refine ⟨?_, fun k hk hout => ?_, insertBits_extractBits x off w, fun n hx hn => insertBits_lt r hx hn⟩
  · rw [extract_insertBits x r h, and_mask_toNat r (by omega)]
  · rw [insertBits_getLsbD _ _ _ _ hk, if_neg (by omega)]

/-- Settles O16: the mask bit by bit (`fmask_getLsbD`), and no slice inside sixteen bits has a bit the masks do not. -/
theorem fieldMaskIsTheSlice : Obligations.FieldMaskIsTheSlice := by
  intro d e hd he
  refine ⟨fun k hk => ?_, ?_⟩
  · rw [fmask_getLsbD d hk, decide_eq_true_iff]
  · rw [fmask_and_eq_zero_iff, not_exists]
    exact ⟨fun h k hboth => h k (by omega) hboth, fun h k _ => h k⟩

end Sys2Proof.Proofs
end

section
/-! The quantizer in EXACT mode (spec R101 to R103, R113 to R115), from the operands that reach each raw value. -/

namespace Sys2Proof.Machine

theorem one_le_rawMax {w : Nat} (hw : 1 ≤ w) : 1 ≤ rawMax w :=
  Nat.le_sub_one_of_lt (Nat.one_lt_two_pow (by omega))

theorem qntExact_le (p : LinearParams) (w : Nat) (v : Rat) : qntExact p w v ≤ rawMax w := clampRaw_le w _

section
variable {p : LinearParams} (hs : 0 < p.step)
include hs

/-- The EXACT quantizer reaches a raw value other than 0 exactly from that value's own step on. -/
theorem le_qntExact_iff {w k : Nat} (h1 : 1 ≤ k) (hk : k ≤ rawMax w) (v : Rat) :
    k ≤ qntExact p w v ↔ p.base + (k : Rat) * p.step ≤ v := by
  have hpos : 0 < (k : Rat) * p.step := mul_pos (by exact_mod_cast h1) hs
  rw [qntExact_eq p w v hs]
  split
  · exact iff_of_false (by omega) (by linarith)
  · calc k ≤ min ⌊(v - p.base) / p.step⌋.toNat (rawMax w)
        ↔ (k : Int) ≤ ⌊(v - p.base) / p.step⌋ := by omega
      _ ↔ (k : Rat) ≤ (v - p.base) / p.step := by rw [Int.le_floor, Int.cast_natCast]
      _ ↔ p.base + (k : Rat) * p.step ≤ v := by rw [le_div_iff₀ hs, le_sub_iff_add_le']

theorem qntExact_eq_rawMax_iff {w : Nat} (hw : 1 ≤ rawMax w) (v : Rat) :
    qntExact p w v = rawMax w ↔ p.base + (rawMax w : Rat) * p.step ≤ v := by
  rw [← le_qntExact_iff hs hw le_rfl]
  exact ⟨fun h => h.ge, (qntExact_le p w v).antisymm⟩

theorem qntExact_eq_zero_iff {w : Nat} (hw : 1 ≤ rawMax w) (v : Rat) : qntExact p w v = 0 ↔ v < p.base + p.step := by
  have h := le_qntExact_iff hs le_rfl hw v
  rw [Nat.cast_one, one_mul] at h
  rw [← not_le, ← h]
  omega

/-- The EXACT quantizer gives the raw value spec R101 and R102 describe; a field of no bits has the raw value 0 alone. -/
theorem quantized_qntExact (w : Nat) (v : Rat) : Quantized p w v (qntExact p w v) := by
  have hle := qntExact_le p w v
  refine ⟨hle, fun h => ?_, fun h => ?_, fun hlo hup => ⟨?_, ?_⟩⟩
  · obtain h0 | h1 := Nat.eq_zero_or_pos (rawMax w)
    · omega
    · exact (qntExact_eq_zero_iff hs h1 v).mpr h
  · obtain h0 | h1 := Nat.eq_zero_or_pos (rawMax w)
    · exact (Nat.le_zero.mp (h0 ▸ hle)).trans h0.symm
    · exact (qntExact_eq_rawMax_iff hs h1 v).mpr h
  · obtain h0 | h1 := Nat.eq_zero_or_pos (qntExact p w v)
    · simpa [h0] using hlo
    · exact (le_qntExact_iff hs h1 hle v).mp le_rfl
  · obtain hlt | heq := hle.lt_or_eq
    · have hnext := (le_qntExact_iff hs (Nat.succ_pos _) hlt v).not.mp (by omega)
      simpa using hnext
    · rw [heq, rawMax, ← Nat.cast_add_one, Nat.sub_add_cancel Nat.one_le_two_pow]
      exact hup

theorem qntExact_mono (w : Nat) {v v' : Rat} (h : v ≤ v') : qntExact p w v ≤ qntExact p w v' := by
  obtain h0 | h1 := Nat.eq_zero_or_pos (qntExact p w v)
  · omega
  · have hle := qntExact_le p w v
    exact (le_qntExact_iff hs h1 hle v').mpr (((le_qntExact_iff hs h1 hle v).mp le_rfl).trans h)

/-- A decoded value lies at the start of its own step. -/
theorem qntExact_deqExact {w raw : Nat} (h : raw < 2 ^ w) : qntExact p w (deqExact p raw) = raw := by
  have hraw : (raw : Rat) * p.step < ((2 ^ w : Nat) : Rat) * p.step := by gcongr
  have hpos : 0 ≤ (raw : Rat) * p.step := by positivity
  have hin := (quantized_qntExact hs w (deqExact p raw)).within (by rw [deqExact]; linarith)
    (by rw [deqExact]; linarith)
  generalize qntExact p w (deqExact p raw) = k at hin
  rw [deqExact, add_comm _ p.base, add_le_add_iff_left, add_lt_add_iff_left, mul_le_mul_iff_of_pos_right hs,
    mul_lt_mul_iff_of_pos_right hs] at hin
  norm_cast at hin
  omega

end

end Sys2Proof.Machine
end

section
/-! The commands that read a LINEAR field's constants, once the lookup has found them (spec R110, R111, R124). -/

namespace Sys2Proof.Machine

section
variable {s : State} {f : Byte} {d : Descriptor} {p : LinearParams} (h : LinearAt s.cfg f d p)
include h

theorem exec_dequant_of_fits {raw : Word} (hraw : raw.toNat < 2 ^ d.w) :
    exec (.dequant f raw) s = .next (s.respond (.phys (deq s.cfg.arith p raw.toNat))) := by
  rw [exec, execDequant, State.linearField_ok.mpr h]
  exact if_pos hraw

theorem exec_quant_of_finite {v : Rat} (hv : operandFinite s.cfg.arith v = true) :
    exec (.quant f v) s = .next (s.respond (.word (BitVec.ofNat 16 (qnt s.cfg.arith p d.w v)))) := by
  rw [exec, execQuant, State.linearField_ok.mpr h]
  exact if_pos hv

/-- QUANT is refused exactly where the mode gives its operand no finite value (spec R112; log entry 14). -/
theorem exec_quant_refused_iff (v : Rat) :
    exec (.quant f v) s = .refused .nonFiniteOperand ↔ ¬ operandFinite s.cfg.arith v = true := by
  rw [exec, execQuant, State.linearField_ok.mpr h]
  simp

theorem exec_setLin_of_finite {v : Rat} (hv : operandFinite s.cfg.arith v = true) :
    exec (.setLin f v) s = if validLin s.cfg.arith p v then s.ifLinkOpen (s.setField d d.w (qnt s.cfg.arith p d.w v))
      else .next (s.raise .validationFailure) := by
  rw [exec, execSetLin, State.linearField_ok.mpr h]
  exact if_pos hv

/-- SET.LIN is refused for its operand exactly where the mode gives that no finite value (spec R112; log entry 14). -/
theorem exec_setLin_refused_iff (v : Rat) :
    exec (.setLin f v) s = .refused .nonFiniteOperand ↔ ¬ operandFinite s.cfg.arith v = true := by
  by_cases hv : operandFinite s.cfg.arith v = true
  · refine iff_of_false (fun hr => ?_) (not_not_intro hv)
    rw [exec_setLin_of_finite h hv] at hr
    split at hr
    · cases State.ifLinkOpen_refused hr
    · cases hr
  · refine iff_of_true ?_ hv
    rw [exec, execSetLin, State.linearField_ok.mpr h]
    exact if_neg hv

end

end Sys2Proof.Machine
end

section
/-! The codec of a BINARY mode is that of its format, and what it computes where no result is infinite (spec R112). -/

namespace Sys2Proof.Machine

theorem clampRaw_eq (w : Nat) (q : Int) : clampRaw w q = (clamp q 0 (2 ^ w - 1)).toNat := by
  rw [clampRaw, rawMax, Nat.cast_sub Nat.one_le_two_pow, Nat.cast_pow, Nat.cast_ofNat, Nat.cast_one]

section
variable {m : Arith} {F : FloatFormat} (h : BinaryMode m F)
include h

theorem qnt_of_binaryMode (p : LinearParams) (w : Nat) (v : Rat) : qnt m p w v = qntFloat F m p w v := by
  obtain ⟨rfl, rfl⟩ | ⟨rfl, rfl⟩ := h <;> rfl

theorem deq_of_binaryMode (p : LinearParams) (raw : Nat) : deq m p raw = deqFloat F m p raw := by
  obtain ⟨rfl, rfl⟩ | ⟨rfl, rfl⟩ := h <;> rfl

theorem validLin_of_binaryMode (p : LinearParams) (v : Rat) : validLin m p v = validFloat F p v := by
  obtain ⟨rfl, rfl⟩ | ⟨rfl, rfl⟩ := h <;> rfl

theorem operandFinite_of_binaryMode (v : Rat) : operandFinite m v = finiteFloat F v := by
  obtain ⟨rfl, rfl⟩ | ⟨rfl, rfl⟩ := h <;> rfl

end

section
variable {F : FloatFormat} {p : LinearParams} {v V B S LO HI : Rat}

theorem finiteFloat_of_fin (hv : fl F v = .fin V) : finiteFloat F v = true := by
  rw [finiteFloat, hv]

theorem qntFloat_of_fin {D Q : Rat} (hv : fl F v = .fin V) (hb : fl F p.base = .fin B) (hs : fl F p.step = .fin S)
    (hS : S ≠ 0) (hd : fl F (V - B) = .fin D) (hq : fl F (D / S) = .fin Q) (m : Arith) (w : Nat) :
    qntFloat F m p w v = clampRaw w (trunc Q) := by
  have hsub : Fp.sub F (.fin V) (.fin B) = .fin D := by rw [Fp.sub, Fp.neg, Fp.add, ← sub_eq_add_neg, hd]
  have hdiv : Fp.div F (.fin D) (.fin S) = .fin Q := by rw [Fp.div, if_neg hS, hq]
  rw [qntFloat, hv, hb, hs, hsub, hdiv, Fp.toRaw]

theorem deqFloat_of_fin {raw : Nat} {P R : Rat} (hb : fl F p.base = .fin B) (hs : fl F p.step = .fin S)
    (hp : fl F ((raw : Rat) * S) = .fin P) (hr : fl F (P + B) = .fin R) (m : Arith) : deqFloat F m p raw = R := by
  rw [deqFloat, hb, hs, Fp.mulNat, hp, Fp.add, hr, Fp.toPhysical]

theorem validFloat_of_fin (hv : fl F v = .fin V) (hlo : fl F p.minPhys = .fin LO) (hhi : fl F p.maxPhys = .fin HI) :
    validFloat F p v = true ↔ LO ≤ V ∧ V ≤ HI := by
  rw [validFloat, hv, hlo, hhi, Fp.le, Fp.le, Bool.and_eq_true, decide_eq_true_iff, decide_eq_true_iff]

end

end Sys2Proof.Machine
end

section
namespace Sys2Proof.Proofs
open Sys2Proof.Machine

/-- Settles O17: the raw value fits, and DEQUANT answers `deq` of the mode, in EXACT mode `deqExact`. -/
theorem dequantCompletes : Obligations.DequantCompletes := by
  intro s f raw d p h hraw
  refine ⟨_, rfl, fun he => ?_, exec_dequant_of_fits h hraw⟩
  rw [he]
  rfl

/-- Settles O18: the clamp keeps the raw value inside the field's bits, of which a well-formed field has at most 16. -/
theorem quantCompletes : Obligations.QuantCompletes := by
  intro s f v d p hwf h hv
  have hfits : qnt s.cfg.arith p d.w v < 2 ^ d.w := Nat.lt_of_le_pred (Nat.two_pow_pos _) (qnt_le _ p d.w v)
  have hw : d.w ≤ 16 := by
    obtain ⟨-, -, hslice⟩ := State.wf_field_holds hwf h.1
    have : d.bw.bytes ≤ 2 := by cases d.bw <;> decide
    omega
  have hy : (BitVec.ofNat 16 (qnt s.cfg.arith p d.w v)).toNat = qnt s.cfg.arith p d.w v := by
    rw [BitVec.toNat_ofNat, Nat.mod_eq_of_lt (hfits.trans_le (Nat.pow_le_pow_right (by decide) hw))]
  refine ⟨_, hy, hy.trans_lt hfits, fun he => ?_, exec_quant_of_finite h hv⟩
  rw [hy, he]
  exact quantized_qntExact (Config.wf_linear hwf h).1 d.w v

/-- Settles O19, by the two cases of `trunc`, and the quantizer below its first step. -/
theorem truncationIsTowardZero : Obligations.TruncationIsTowardZero :=
  ⟨fun _ => ⟨trunc_of_nonneg, trunc_of_neg⟩, fun _ w v hs hv => (quantized_qntExact hs w v).below hv⟩

/-- Settles O20: each encode function ends in `clampRaw`. -/
theorem encodersClampToTheWidth : Obligations.EncodersClampToTheWidth :=
  ⟨qnt_le, clampRaw_natCast, fun _ _ => clampRaw_le 1 _⟩

/-- Settles O21: a field of at least one bit has a raw value above 0, and both ends are reached exactly from their steps. -/
theorem quantizerSaturates : Obligations.QuantizerSaturates := fun _ _ v hs hw =>
  ⟨qntExact_eq_rawMax_iff hs (one_le_rawMax hw) v, qntExact_eq_zero_iff hs (one_le_rawMax hw) v⟩

/-- Settles O22: the value lies in the step of its raw value, which starts at the decoded one. -/
theorem roundTripIsWithinOneStep : Obligations.RoundTripIsWithinOneStep := by
  intro p w v hs hlo hup
  obtain ⟨hle, hlt⟩ := (quantized_qntExact hs w v).within hlo hup
  rw [deq, qnt, deqExact]
  exact ⟨by linarith, by linarith⟩

/-- Settles O23: a greater operand reaches every raw value that a smaller one does, and a decoded value
starts its own step. -/
theorem quantizerIsMonotoneAndExactOnTheGrid : Obligations.QuantizerIsMonotoneAndExactOnTheGrid := fun _ w hs =>
  ⟨fun _ _ => qntExact_mono hs w, fun _ => qntExact_deqExact hs⟩

/-- Settles O24: no intermediate result is infinite or no number, so every operation is the rounded rational one. -/
theorem binaryModeFollowsItsFormulas : Obligations.BinaryModeFollowsItsFormulas := by
  intro m F p w raw v V B S D Q P R hm hv hb hs hS hd hq hp hr
  rw [qnt_of_binaryMode hm, deq_of_binaryMode hm, qntFloat_of_fin hv hb hs hS hd hq, clampRaw_eq]
  exact ⟨rfl, deqFloat_of_fin hb hs hp hr m⟩

/-- Settles O25: validation compares the three rounded numbers, and the link is checked after it. -/
theorem binaryModeValidatesRoundedNumbers : Obligations.BinaryModeValidatesRoundedNumbers := by
  intro s F f v V LO HI d p h hm hv hlo hhi
  have hvalid := validFloat_of_fin hv hlo hhi
  rw [← validLin_of_binaryMode hm] at hvalid
  rw [exec_setLin_of_finite h ((operandFinite_of_binaryMode hm v).trans (finiteFloat_of_fin hv))]
  refine ⟨fun hout => ?_, fun hlov hvhi hlink => ?_⟩
  · rw [if_neg (hvalid.not.mpr fun hin => hout.elim (not_lt.mpr hin.1) (not_lt.mpr hin.2))]
    rfl
  · rw [if_pos (hvalid.mpr ⟨hlov, hvhi⟩), State.ifLinkOpen, hlink]
    rfl

end Sys2Proof.Proofs
end

section
/-! Rounding into a format (spec R112, K1; log entry 5): the integer nearest to the scaled operand, the exponent it is scaled
by, and where the result overflows. -/

namespace Sys2Proof.Machine

/-! ## The nearest integer -/

/-- `roundEven` is at most one half away, and even where it is one half away. -/
theorem roundEven_cases (x : Rat) :
    |x - roundEven x| < 1 / 2 ∨ |x - roundEven x| = 1 / 2 ∧ roundEven x % 2 = 0 := by
  have h12 : mkRat 1 2 = (1 / 2 : Rat) := by norm_num [Rat.mkRat_eq_div]
  have hlo : ((x.floor : Int) : Rat) ≤ x := Int.floor_le x
  have hup : x < (x.floor : Int) + 1 := Int.lt_floor_add_one x
  unfold roundEven
  simp only [h12]
  split
  · left
    rw [abs_of_nonneg] <;> linarith
  · split
    · left
      push_cast
      rw [abs_of_nonpos] <;> linarith
    · have hr : x - x.floor = 1 / 2 := by linarith
      split
      · right
        exact ⟨by rw [hr]; norm_num, by assumption⟩
      · right
        refine ⟨?_, by omega⟩
        push_cast
        rw [abs_of_nonpos] <;> linarith

theorem abs_sub_roundEven_le (x : Rat) : |x - roundEven x| ≤ 1 / 2 :=
  (roundEven_cases x).elim le_of_lt fun h => h.1.le

/-- An integer magnitude that bounds the operand from below bounds its rounding. -/
theorem le_abs_roundEven {x : Rat} {k : Int} (h : (k : Rat) ≤ |x|) : k ≤ |roundEven x| := by
  have hx := abs_sub_roundEven_le x
  have htri := abs_sub_abs_le_abs_sub x (roundEven x)
  have hlt : (k : Rat) < ((|roundEven x| + 1 : Int) : Rat) := by push_cast; linarith
  exact Int.lt_add_one_iff.mp (by exact_mod_cast hlt)

theorem abs_roundEven_le {x : Rat} {k : Int} (h : |x| ≤ k) : |roundEven x| ≤ k := by
  have hx := abs_sub_roundEven_le x
  have htri := abs_sub_abs_le_abs_sub (roundEven x : Rat) x
  rw [abs_sub_comm] at htri
  have hlt : ((|roundEven x| : Int) : Rat) < ((k + 1 : Int) : Rat) := by push_cast; linarith
  exact Int.lt_add_one_iff.mp (by exact_mod_cast hlt)

/-- A magnitude rounds up to an even integer from one half below it on: the integer beneath is odd. -/
theorem le_abs_roundEven_iff_of_even {k : Int} (hk : k % 2 = 0) (x : Rat) :
    k ≤ |roundEven x| ↔ (k : Rat) - 1 / 2 ≤ |x| := by
  refine ⟨fun h => ?_, fun h => ?_⟩
  · have hx := abs_sub_roundEven_le x
    have htri := abs_sub_abs_le_abs_sub (roundEven x : Rat) x
    rw [abs_sub_comm] at htri
    have hcast : (k : Rat) ≤ |(roundEven x : Rat)| := by exact_mod_cast h
    linarith
  · by_contra hlt
    have hle : |roundEven x| ≤ k - 1 := by omega
    have hcast : |(roundEven x : Rat)| ≤ (k : Rat) - 1 := by exact_mod_cast hle
    have htri := abs_sub_abs_le_abs_sub x (roundEven x)
    obtain hx | ⟨hx, heven⟩ := roundEven_cases x
    · linarith
    · have heq : |(roundEven x : Rat)| = (k : Rat) - 1 := by linarith
      have heq : |roundEven x| = k - 1 := by exact_mod_cast heq
      obtain habs | habs := abs_choice (roundEven x) <;> omega

/-- Where another integer is as near, `roundEven` is even. -/
theorem roundEven_even_of_tie {x : Rat} {k : Int} (hne : roundEven x ≠ k) (heq : |x - roundEven x| = |x - k|) :
    roundEven x % 2 = 0 := by
  obtain hlt | ⟨-, heven⟩ := roundEven_cases x
  · have hdist : (1 : Int) ≤ |roundEven x - k| := Int.one_le_abs (sub_ne_zero.mpr hne)
    have hdist : (1 : Rat) ≤ |(roundEven x : Rat) - k| := by exact_mod_cast hdist
    have htri := abs_sub_le (roundEven x : Rat) x k
    rw [abs_sub_comm (roundEven x : Rat) x] at htri
    linarith
  · exact heven

/-- A step to a greater power of two makes up for a factor of at most two. -/
theorem mul_zpow_le_mul_zpow {a c : Rat} {i j : Int} (hij : i < j) (hc : 0 ≤ c) (h : a ≤ 2 * c) :
    a * 2 ^ i ≤ c * 2 ^ j :=
  calc a * 2 ^ i ≤ 2 * c * 2 ^ i := by gcongr
    _ = c * 2 ^ (i + 1) := by rw [zpow_add_one₀ two_ne_zero]; ring
    _ ≤ c * 2 ^ j := mul_le_mul_of_nonneg_left (zpow_le_zpow_right₀ one_le_two hij) hc

theorem mul_zpow_lt_mul_zpow {a c : Rat} {i j : Int} (hij : i < j) (hc : 0 ≤ c) (h : a < 2 * c) :
    a * 2 ^ i < c * 2 ^ j :=
  (mul_lt_mul_of_pos_right h (zpow_pos two_pos i)).trans_le (mul_zpow_le_mul_zpow hij hc le_rfl)

theorem abs_eq_abs_div_mul (x : Rat) (e : Int) : |x| = |x / 2 ^ e| * 2 ^ e := by
  rw [abs_div, abs_of_pos (zpow_pos two_pos e : (0 : Rat) < 2 ^ e), div_mul_cancel₀ _ (zpow_pos two_pos e).ne']

/-! ## The exponent and the significand -/

/-- The exponent of the unit in the last place that a format has for a number. -/
def FloatFormat.ulpExp (F : FloatFormat) (x : Rat) : Int := max (ilog2 |x| - ((F.prec : Int) - 1)) F.minExp

/-- The significand a number is rounded to, before overflow is checked. -/
def FloatFormat.significand (F : FloatFormat) (x : Rat) : Int := roundEven (x / 2 ^ F.ulpExp x)

/-- The rounded magnitude is above the largest number of the format. -/
def FloatFormat.Overflows (F : FloatFormat) (x : Rat) : Prop :=
  ((2 ^ F.prec - 1 : Nat) : Rat) * 2 ^ F.maxExp < |(F.significand x : Rat) * 2 ^ F.ulpExp x|

theorem fl_of_overflows {F : FloatFormat} {x : Rat} (hx : x ≠ 0) (h : F.Overflows x) : ∃ neg, fl F x = .inf neg := by
  obtain ⟨_, rfl, hfl⟩ := fl_eq F hx
  exact ⟨_, hfl.trans (if_pos h)⟩

theorem fl_of_not_overflows {F : FloatFormat} {x : Rat} (hx : x ≠ 0) (h : ¬ F.Overflows x) :
    fl F x = .fin ((F.significand x : Rat) * 2 ^ F.ulpExp x) := by
  obtain ⟨_, rfl, hfl⟩ := fl_eq F hx
  exact hfl.trans (if_neg h)

theorem fl_zero (F : FloatFormat) : fl F 0 = .fin 0 := if_pos rfl

section
variable (F : FloatFormat) {x : Rat} (hx : x ≠ 0)
include hx

/-- The scaled operand is below the first significand that does not fit. -/
theorem FloatFormat.abs_scaled_lt : |x / 2 ^ F.ulpExp x| < (2 : Rat) ^ F.prec := by
  have hlog : ilog2 |x| + 1 ≤ F.prec + F.ulpExp x := by
    have := le_max_left (ilog2 |x| - ((F.prec : Int) - 1)) F.minExp
    rw [FloatFormat.ulpExp]
    omega
  rw [abs_div, abs_of_pos (zpow_pos two_pos _ : (0 : Rat) < 2 ^ F.ulpExp x), div_lt_iff₀ (zpow_pos two_pos _)]
  calc |x| < (2 : Rat) ^ (ilog2 |x| + 1) := (ilog2_spec (abs_pos.mpr hx)).2
    _ ≤ (2 : Rat) ^ ((F.prec : Int) + F.ulpExp x) := zpow_le_zpow_right₀ one_le_two hlog
    _ = 2 ^ F.prec * 2 ^ F.ulpExp x := by rw [zpow_add₀ two_ne_zero, zpow_natCast]

/-- Above the smallest exponent the significand is normalized: the scaled operand uses every bit. -/
theorem FloatFormat.le_two_mul_abs_scaled (h : F.minExp < F.ulpExp x) :
    (2 : Rat) ^ F.prec ≤ 2 * |x / 2 ^ F.ulpExp x| := by
  have hlog : (F.prec : Int) + F.ulpExp x = 1 + ilog2 |x| := by
    rw [FloatFormat.ulpExp] at h ⊢
    omega
  rw [abs_div, abs_of_pos (zpow_pos two_pos _ : (0 : Rat) < 2 ^ F.ulpExp x), ← mul_div_assoc,
    le_div_iff₀ (zpow_pos two_pos _)]
  calc (2 : Rat) ^ F.prec * 2 ^ F.ulpExp x = 2 * 2 ^ ilog2 |x| := by
        rw [← zpow_natCast, ← zpow_add₀ two_ne_zero, hlog, zpow_add₀ two_ne_zero, zpow_one]
    _ ≤ 2 * |x| := by gcongr; exact (ilog2_spec (abs_pos.mpr hx)).1

theorem FloatFormat.abs_significand_le : |F.significand x| ≤ 2 ^ F.prec :=
  abs_roundEven_le (by exact_mod_cast (F.abs_scaled_lt hx).le)

end

section
variable {F : FloatFormat} {x : Rat} (hx : x ≠ 0) (hp : 1 ≤ F.prec)
include hx hp

theorem FloatFormat.le_two_mul_abs_significand (h : F.minExp < F.ulpExp x) : 2 ^ F.prec ≤ 2 * |F.significand x| := by
  have hscaled := F.le_two_mul_abs_scaled hx h
  obtain ⟨k, hk⟩ := Nat.exists_eq_add_of_le' hp
  rw [hk, pow_succ'] at hscaled ⊢
  have hle : (2 : Int) ^ k ≤ |F.significand x| := le_abs_roundEven (by push_cast; linarith)
  linarith

/-- A result overflows where its exponent is above the largest, or its significand does not fit at the largest. -/
theorem FloatFormat.overflows_iff (he : F.minExp ≤ F.maxExp) :
    F.Overflows x ↔ F.maxExp < F.ulpExp x ∨ F.maxExp = F.ulpExp x ∧ 2 ^ F.prec ≤ |F.significand x| := by
  have hprec : (2 : Rat) ≤ 2 ^ F.prec := le_self_pow₀ one_le_two (by omega)
  rw [FloatFormat.Overflows, Nat.cast_sub Nat.one_le_two_pow, Nat.cast_pow, Nat.cast_ofNat, Nat.cast_one, abs_mul,
    abs_of_pos (zpow_pos two_pos _ : (0 : Rat) < 2 ^ F.ulpExp x)]
  obtain hlt | heq | hgt := lt_trichotomy (F.ulpExp x) F.maxExp
  · refine iff_of_false (not_lt.mpr ?_) (by omega)
    have hsig : |(F.significand x : Rat)| ≤ 2 ^ F.prec := by exact_mod_cast F.abs_significand_le hx
    exact mul_zpow_le_mul_zpow hlt (by linarith) (by linarith)
  · rw [← heq, mul_lt_mul_iff_of_pos_right (zpow_pos two_pos _)]
    simp only [lt_irrefl, true_and, false_or]
    rw [← Int.sub_one_lt_iff]
    norm_cast
  · refine iff_of_true ?_ (.inl hgt)
    have hsig : (2 : Rat) ^ F.prec ≤ 2 * |(F.significand x : Rat)| := by
      exact_mod_cast F.le_two_mul_abs_significand hx hp (he.trans_lt hgt)
    exact mul_zpow_lt_mul_zpow hgt (abs_nonneg _) (by linarith)

/-- A result overflows from halfway between the largest number and the power of two above it on. -/
theorem FloatFormat.overflows_iff_le_abs (he : F.minExp ≤ F.maxExp) :
    F.Overflows x ↔ ((2 : Rat) ^ F.prec - 1 / 2) * 2 ^ F.maxExp ≤ |x| := by
  have hprec : (2 : Rat) ≤ 2 ^ F.prec := le_self_pow₀ one_le_two (by omega)
  rw [F.overflows_iff hx hp he, abs_eq_abs_div_mul x (F.ulpExp x)]
  obtain hlt | heq | hgt := lt_trichotomy (F.ulpExp x) F.maxExp
  · refine iff_of_false (by omega) (not_le.mpr ?_)
    exact mul_zpow_lt_mul_zpow hlt (by linarith) (by linarith [F.abs_scaled_lt hx])
  · rw [← heq, mul_le_mul_iff_of_pos_right (zpow_pos two_pos _)]
    simp only [lt_irrefl, true_and, false_or]
    have heven : (2 : Int) ^ F.prec % 2 = 0 := Int.emod_eq_zero_of_dvd (dvd_pow_self 2 (by omega))
    simpa [FloatFormat.significand] using le_abs_roundEven_iff_of_even heven (x / 2 ^ F.ulpExp x)
  · refine iff_of_true (.inl hgt) ?_
    have hscaled := F.le_two_mul_abs_scaled hx (he.trans_lt hgt)
    exact mul_zpow_le_mul_zpow hgt (abs_nonneg _) (by linarith)

end

/-- A format gives an operand a finite value exactly below the overflow threshold (spec R112). -/
theorem finiteFloat_iff {F : FloatFormat} (hp : 1 ≤ F.prec) (he : F.minExp ≤ F.maxExp) (x : Rat) :
    finiteFloat F x = true ↔ |x| < ((2 : Rat) ^ F.prec - 1 / 2) * 2 ^ F.maxExp := by
  by_cases hx : x = 0
  · have hprec : (1 : Rat) ≤ 2 ^ F.prec := one_le_pow₀ one_le_two
    rw [hx, abs_zero]
    exact iff_of_true (finiteFloat_of_fin (fl_zero F)) (mul_pos (by linarith) (zpow_pos two_pos _))
  · rw [← not_le, ← F.overflows_iff_le_abs hx hp he]
    by_cases h : F.Overflows x
    · obtain ⟨neg, hfl⟩ := fl_of_overflows hx h
      exact iff_of_false (by simp [finiteFloat, hfl]) (not_not_intro h)
    · exact iff_of_true (finiteFloat_of_fin (fl_of_not_overflows hx h)) h

/-- The overflow threshold between two powers of two. -/
theorem overflowThreshold_eq (p e : Nat) :
    ((2 : Rat) ^ p - 1 / 2) * 2 ^ ((e + 1 : Nat) : Int) = 2 ^ (p + (e + 1)) - 2 ^ e := by
  rw [zpow_natCast]
  ring

theorem overflowThreshold_binary64 :
    ((2 : Rat) ^ binary64.prec - 1 / 2) * 2 ^ binary64.maxExp = 2 ^ (1024 : Nat) - 2 ^ (970 : Nat) :=
  overflowThreshold_eq 53 970

theorem overflowThreshold_binary32 :
    ((2 : Rat) ^ binary32.prec - 1 / 2) * 2 ^ binary32.maxExp = 2 ^ (128 : Nat) - 2 ^ (103 : Nat) :=
  overflowThreshold_eq 24 103

end Sys2Proof.Machine
end

section
/-! The number a format rounds to is a nearest number of the format (spec R112, K1; log entry 5). -/

namespace Sys2Proof.Machine

/-- `y` is the number of the format with significand `m` and exponent `e`. -/
def FloatFormat.Writes (F : FloatFormat) (m e : Int) (y : Rat) : Prop :=
  -2 ^ F.prec < m ∧ m < 2 ^ F.prec ∧ F.minExp ≤ e ∧ e ≤ F.maxExp ∧ y = (m : Rat) * (2 : Rat) ^ e

/-- A multiple of a power of two is a multiple of every smaller one. -/
theorem exists_mul_zpow_eq (m : Int) {a b : Int} (h : a ≤ b) : ∃ k : Int, (m : Rat) * 2 ^ b = (k : Rat) * 2 ^ a := by
  obtain ⟨n, rfl⟩ := Int.le.dest h
  refine ⟨m * 2 ^ n, ?_⟩
  rw [zpow_add₀ two_ne_zero, zpow_natCast]
  push_cast
  ring

/-- The rounded multiple is at least as near as any other one between zero and the operand. -/
theorem abs_sub_roundEven_mul_le {x : Rat} {k e : Int} (h : (k : Rat) * 2 ^ e ≤ |x|) :
    |x - (roundEven (x / 2 ^ e) : Rat) * 2 ^ e| ≤ |x| - (k : Rat) * 2 ^ e := by
  obtain hx | hx := le_total 0 x
  · refine (roundEven_mul x e k).trans_eq ?_
    rw [abs_of_nonneg hx] at h ⊢
    exact abs_of_nonneg (sub_nonneg.mpr h)
  · refine (roundEven_mul x e (-k)).trans_eq ?_
    rw [abs_of_nonpos hx] at h ⊢
    rw [abs_of_nonpos] <;> push_cast <;> linarith

/-- Where another multiple of the unit in the last place is as near, the significand is even. -/
theorem FloatFormat.significand_even_of_tie {F : FloatFormat} {x : Rat} {k : Int}
    (hne : (F.significand x : Rat) * 2 ^ F.ulpExp x ≠ (k : Rat) * 2 ^ F.ulpExp x)
    (htie : |x - (F.significand x : Rat) * 2 ^ F.ulpExp x| = |x - (k : Rat) * 2 ^ F.ulpExp x|) :
    F.significand x % 2 = 0 := by
  have hpos : (2 : Rat) ^ F.ulpExp x ≠ 0 := (zpow_pos two_pos _).ne'
  have hscale (c : Rat) : |x - c * 2 ^ F.ulpExp x| = |x / 2 ^ F.ulpExp x - c| * 2 ^ F.ulpExp x := by
    rw [abs_eq_abs_div_mul _ (F.ulpExp x), sub_div, mul_div_cancel_right₀ _ hpos]
  rw [hscale, hscale] at htie
  refine roundEven_even_of_tie (fun h => hne ?_) (mul_right_cancel₀ hpos htie)
  rw [FloatFormat.significand, h]

section
variable {F : FloatFormat} {x : Rat} (hx : x ≠ 0)
include hx

/-- The rounded number as one of the format: where rounding has carried the significand to `2 ^ prec`, half of it at the next
exponent. -/
theorem FloatFormat.exists_writes (hp : 1 ≤ F.prec) (he : F.minExp ≤ F.maxExp) (h : ¬ F.Overflows x) :
    ∃ m e, F.Writes m e ((F.significand x : Rat) * 2 ^ F.ulpExp x) ∧
      (2 ≤ F.prec → F.significand x % 2 = 0 → m % 2 = 0) := by
  rw [F.overflows_iff hx hp he, not_or, not_lt, not_and, not_le] at h
  obtain ⟨hexp, hfits⟩ := h
  have hmin : F.minExp ≤ F.ulpExp x := le_max_right _ _
  obtain hlt | heq := (F.abs_significand_le hx).lt_or_eq
  · obtain ⟨hlo, hup⟩ := abs_lt.mp hlt
    exact ⟨_, _, ⟨hlo, hup, hmin, hexp, rfl⟩, fun _ heven => heven⟩
  · have hmax : F.ulpExp x ≠ F.maxExp := fun hmax => (hfits hmax.symm).ne heq
    obtain ⟨k, hk⟩ := Nat.exists_eq_add_of_le' hp
    have hpos : (0 : Int) < 2 ^ k := by positivity
    obtain ⟨c, hc, hck⟩ : ∃ c : Int, F.significand x = 2 * c ∧ |c| = 2 ^ k := by
      rw [hk, pow_succ'] at heq
      obtain hs | hs := eq_or_eq_neg_of_abs_eq heq
      · exact ⟨2 ^ k, hs, abs_of_pos hpos⟩
      · exact ⟨-2 ^ k, by rw [hs]; ring, by rw [abs_neg, abs_of_pos hpos]⟩
    have hcP : |c| < 2 ^ F.prec := by rw [hck, hk, pow_succ']; omega
    obtain ⟨hlo, hup⟩ := abs_lt.mp hcP
    refine ⟨c, F.ulpExp x + 1, ⟨hlo, hup, by omega, by omega, ?_⟩, fun hprec _ => ?_⟩
    · rw [hc, zpow_add₀ two_ne_zero, zpow_one]
      push_cast
      ring
    · have hdvd : (2 : Int) ∣ |c| := hck ▸ dvd_pow_self 2 (by omega)
      exact Int.emod_eq_zero_of_dvd ((dvd_abs 2 c).mp hdvd)

/-- A number of the format is a multiple of the unit in the last place, or the rounded one is nearer: a number of a smaller
exponent lies closer to zero than a multiple that the operand reaches, the one whose significand is half of `2 ^ prec`. -/
theorem FloatFormat.multiple_or_nearer (hp : 1 ≤ F.prec) {m e : Int} (hm : |m| < 2 ^ F.prec) (he : F.minExp ≤ e) :
    (∃ k : Int, (m : Rat) * 2 ^ e = (k : Rat) * 2 ^ F.ulpExp x) ∨
      |x - (F.significand x : Rat) * 2 ^ F.ulpExp x| < |x - (m : Rat) * 2 ^ e| := by
  obtain hle | hlt := le_or_gt (F.ulpExp x) e
  · exact .inl (exists_mul_zpow_eq m hle)
  · refine .inr ?_
    obtain ⟨k, hk⟩ := Nat.exists_eq_add_of_le' hp
    have hscaled := F.le_two_mul_abs_scaled hx (he.trans_lt hlt)
    rw [hk, pow_succ', mul_le_mul_iff_of_pos_left two_pos] at hscaled
    have hreach : ((2 ^ k : Int) : Rat) * 2 ^ F.ulpExp x ≤ |x| := by
      rw [abs_eq_abs_div_mul x (F.ulpExp x)]
      push_cast
      gcongr
    have hfine : |(m : Rat) * 2 ^ e| < ((2 ^ k : Int) : Rat) * 2 ^ F.ulpExp x := by
      have hm : |(m : Rat)| < 2 * ((2 ^ k : Int) : Rat) := by rw [hk, pow_succ'] at hm; exact_mod_cast hm
      rw [abs_mul, abs_of_pos (zpow_pos two_pos e : (0 : Rat) < 2 ^ e)]
      exact mul_zpow_lt_mul_zpow hlt (by positivity) hm
    calc |x - (F.significand x : Rat) * 2 ^ F.ulpExp x| ≤ |x| - ((2 ^ k : Int) : Rat) * 2 ^ F.ulpExp x :=
          abs_sub_roundEven_mul_le hreach
      _ < |x| - |(m : Rat) * 2 ^ e| := by gcongr
      _ ≤ |x - (m : Rat) * 2 ^ e| := abs_sub_abs_le_abs_sub _ _

end

end Sys2Proof.Machine
end

section
namespace Sys2Proof.Proofs
open Sys2Proof.Machine

/-- Settles O26: every number of the format is a multiple of the unit in the last place the operand is rounded at, of which
the rounded one is nearest and even at a tie, or is farther away (`multiple_or_nearer`). -/
theorem roundingIsToANearestNumber : Obligations.RoundingIsToANearestNumber := by
  intro F x y hp he hfl
  by_cases hx : x = 0
  · subst hx
    obtain rfl : 0 = y := Fp.fin.inj ((fl_zero F).symm.trans hfl)
    have hzero : F.Writes 0 F.minExp 0 := ⟨by simp, by simp, le_rfl, he, by simp⟩
    refine ⟨⟨_, _, hzero⟩, fun m e _ _ _ _ => ⟨?_, fun _ _ _ => ⟨_, _, rfl, hzero⟩⟩⟩
    rw [sub_zero, abs_zero]
    exact abs_nonneg _
  · have hfin : ¬ F.Overflows x := fun h => by
      obtain ⟨neg, hinf⟩ := fl_of_overflows hx h
      cases hinf.symm.trans hfl
    obtain rfl := Fp.fin.inj ((fl_of_not_overflows hx hfin).symm.trans hfl)
    obtain ⟨m', e', hwrites, heven⟩ := F.exists_writes hx hp he hfin
    refine ⟨⟨m', e', hwrites⟩, fun m e hmlo hmup helo _ => ?_⟩
    obtain ⟨k, hk⟩ | hlt := F.multiple_or_nearer hx hp (abs_lt.mpr ⟨hmlo, hmup⟩) helo
    · rw [hk]
      exact ⟨roundEven_mul x _ k, fun hprec hne htie =>
        ⟨m', e', heven hprec (FloatFormat.significand_even_of_tie hne htie), hwrites⟩⟩
    · exact ⟨hlt.le, fun _ _ htie => absurd htie hlt.ne⟩

/-- Settles O27: both commands are refused exactly where the mode gives the operand no finite value, which is from the
overflow threshold of its format on (`finiteFloat_iff`). -/
theorem nonFiniteOperandIsRefused : Obligations.NonFiniteOperandIsRefused := by
  intro s f v T d p h hmode
  have hfin : ¬ operandFinite s.cfg.arith v = true ↔ v ≤ -T ∨ T ≤ v := by
    rw [← le_abs', ← not_lt]
    obtain ⟨hm, rfl⟩ | ⟨hm, rfl⟩ := hmode
    · rw [hm, operandFinite_of_binaryMode (.inl ⟨rfl, rfl⟩), finiteFloat_iff (by decide) (by decide),
        overflowThreshold_binary64]
    · rw [hm, operandFinite_of_binaryMode (.inr ⟨rfl, rfl⟩), finiteFloat_iff (by decide) (by decide),
        overflowThreshold_binary32]
  exact ⟨(exec_quant_refused_iff h v).trans hfin, (exec_setLin_refused_iff h v).trans hfin⟩

end Sys2Proof.Proofs
end

section
/-! What a command leaves of the registers, said of any two states whose registers agree; and the frame of every command. -/

namespace Sys2Proof.Machine

/-- Every command that goes on keeps the configuration and the coming requests, and advances the index (spec R20, R24). -/
theorem exec_commandFrame {i : Instr} {s t : State} (h : exec i s = .next t) : s.CommandFrame t := by
  obtain ⟨u, r, hu, -, rfl⟩ := exec_answersAfter h
  exact ⟨hu.cfg, hu.stream, congrArg (· + 1) hu.index⟩

theorem State.ifLinkOpen_of_open {s : State} (h : s.linkOpen = true) (t : State) : s.ifLinkOpen t = .next t := if_pos h

theorem State.ifLinkOpen_of_closed {s : State} (h : s.linkOpen = false) (t : State) :
    s.ifLinkOpen t = .refused .linkClosed := by
  simp [State.ifLinkOpen, h]

theorem State.SameRegs.symm {s t : State} (h : s.SameRegs t) : t.SameRegs s := fun k => (h k).symm

theorem State.SameRegs.regValue {s t : State} (h : s.SameRegs t) (a : Byte) (n : ByteWidth) :
    t.regValue a n = s.regValue a n := by
  cases n <;> simp only [State.regValue, h _]

theorem State.SameRegs.fieldRaw {s t : State} (h : s.SameRegs t) (d : Descriptor) : t.fieldRaw d = s.fieldRaw d := by
  rw [State.fieldRaw, h.regValue, State.fieldRaw]

/-- Whether a SET leaves a 1 in the reset bit depends on the configuration and the registers alone. -/
theorem State.SameRegs.setsResetBit_iff {s t : State} (h : s.SameRegs t) (hcfg : t.cfg = s.cfg) (d : Descriptor)
    (raw : Nat) : t.SetsResetBit d raw ↔ s.SetsResetBit d raw := by
  rw [State.SetsResetBit, hcfg, h.regValue, State.SetsResetBit]

theorem State.Wrote.congr {s s' t t' : State} {d : Descriptor} {raw : Nat} (h : s.Wrote t d raw) (hs : s.SameRegs s')
    (ht : t.SameRegs t') : s'.Wrote t' d raw where
  field := (ht.fieldRaw d).trans h.field
  beside k hk hout := by rw [ht.regValue, hs.regValue, h.beside k hk hout]
  others k hk := by rw [ht k, hs k, h.others k hk]

/-- A phase whose draw has only idle events before it finds the registers as they were. -/
theorem State.atPhase_sameRegs {s : State} (hr : s.resetting = false) (hd : IdleEvents s.nextDraw.before) :
    s.SameRegs s.atPhase := fun k => by
  rw [State.atPhase_idle hr hd, State.afterDraw_peek]

/-- The device at its power-on values meets what spec R144 and R171 say of them (`powerOnByte_spec`). -/
theorem State.toDefaults_atDefaults {s : State} (hb : s.cfg.resetBit ≤ 7) : s.toDefaults.AtDefaults := by
  obtain ⟨hspecified, hregister, hbit⟩ := powerOnByte_spec s.cfg (s.epoch + 1) hb
  exact ⟨hspecified, hregister, hbit, rfl⟩

end Sys2Proof.Machine
end

section
/-! GET (spec 42_field_access.md R121 to R123): what its one `ReadBits` answers and leaves. -/

namespace Sys2Proof.Machine

/-- Every GET is one `ReadBits` of its field's registers under an open link, on any configuration. -/
theorem exec_gets_eq_getField {s : State} {i : Instr} {d : Descriptor} {decoded : Nat → Value}
    (h : Gets s.cfg i d decoded) : ∃ w, exec i s = s.ifLinkOpen (s.getField d w decoded) := by
  cases i with
  | getLin f =>
    obtain ⟨p, hd, rfl⟩ := h
    exact ⟨d.w, by rw [exec, execGetLin, State.linearField_ok.mpr hd]⟩
  | getEnum f =>
    obtain ⟨m, hd, rfl⟩ := h
    exact ⟨d.w, by rw [exec, execGetEnum, State.enumField_ok.mpr hd]; rfl⟩
  | getBool f =>
    obtain ⟨inverted, hd, rfl⟩ := h
    exact ⟨1, by rw [exec, execGetBool, State.boolField_ok.mpr hd]; simp only [decBool_eq]⟩
  | _ => cases h

theorem State.getField_trace (s : State) (d : Descriptor) (w : Nat) (decoded : Nat → Value) :
    (s.getField d w decoded).trace =
      s.trace ++ [.readBits d.addr d.bw w d.off (s.readBits d.addr d.bw w d.off).1] := by
  rw [State.getField_eq, State.answer_trace, State.readBits_trace]

/-- `t` is what a command that only reads leaves of `s`: the registers are what the device makes of them. -/
structure State.AfterRead (s t : State) : Prop where
  frame     : s.CommandFrame t
  linkOpen  : t.linkOpen = s.linkOpen
  regs      : ∀ k, t.peek k = (s.atPhase.device s.nextDraw.after).peek k
  resetting : t.resetting = (s.atPhase.device s.nextDraw.after).resetting

theorem State.getField_afterRead (s : State) (d : Descriptor) (w : Nat) (decoded : Nat → Value) :
    s.AfterRead (s.getField d w decoded) := by
  rw [State.getField_eq]
  exact ⟨⟨by simp, by simp, by simp⟩, by simp, fun _ => rfl, rfl⟩

/-- Where the device is idle a command that only reads changes no register. -/
theorem State.AfterRead.of_idle {s t : State} (h : s.AfterRead t) (hr : s.resetting = false) (hd : Idle s.nextDraw) :
    s.SameRegs t ∧ t.resetting = false := by
  obtain ⟨hbefore, hafter⟩ := hd
  have hp := State.atPhase_resetting hr
  refine ⟨fun k => ?_, ?_⟩
  · rw [h.regs, State.device_idle hp hafter, State.atPhase_sameRegs hr hbefore k]
  · rw [h.resetting, State.device_idle hp hafter, hp]

/-- A GET whose read completes answers the decoded value of its field's bits (spec R121 to R123). -/
theorem exec_gets_completes {s : State} {i : Instr} {d : Descriptor} {decoded : Nat → Value} (hwf : s.cfg.wf = true)
    (h : Gets s.cfg i d decoded) (hl : s.linkOpen = true) (hok : s.nextDraw.ok = true) :
    ∃ t : State, exec i s = .next t ∧ t.response = some ⟨.ok, decoded (s.atPhase.fieldRaw d)⟩ ∧
      t.trace = s.trace ++ [.readBits d.addr d.bw d.w d.off (some (BitVec.ofNat 16 (s.atPhase.fieldRaw d)))] ∧
      s.AfterRead t := by
  obtain ⟨hexec, k, hd⟩ := exec_of_gets hwf h
  obtain ⟨ha, -, hslice⟩ := State.wf_field_holds hwf hd
  refine ⟨_, hexec.trans (State.ifLinkOpen_of_open hl _), ?_, ?_, s.getField_afterRead d d.w decoded⟩
  · rw [State.getField_of_ok ha hok, State.respond_response, State.extract_load hslice]
  · rw [State.getField_of_ok ha hok, State.respond_trace, State.record_trace, State.device_trace, State.atPhase_trace,
      State.extract_load_eq hslice]

end Sys2Proof.Machine
end

section
/-! SET (spec 42_field_access.md R124 to R126): what its one `WriteBits` answers and leaves, where it completes, where a phase
of it fails, and on the quiescent device. -/

namespace Sys2Proof.Machine

/-- Every SET of a valid value is one `WriteBits` of its field's registers under an open link, on any configuration. -/
theorem exec_sets_eq_setField {s : State} {i : Instr} {d : Descriptor} {raw : Nat} (h : Sets s.cfg i d raw) :
    ∃ w raw', exec i s = s.ifLinkOpen (s.setField d w raw') := by
  cases i with
  | setLin f v =>
    obtain ⟨p, hd, hfin, hvalid, -⟩ := h
    exact ⟨_, _, (exec_setLin_of_finite hd hfin).trans (if_pos hvalid)⟩
  | setEnum f n =>
    obtain ⟨m, hd, hn, -⟩ := h
    refine ⟨d.w, encEnum d.w n, ?_⟩
    rw [exec, execSetEnum, State.enumField_ok.mpr hd]
    exact if_pos (decide_eq_true hn)
  | setBool f b =>
    obtain ⟨inverted, hd, -⟩ := h
    exact ⟨_, _, by rw [exec, execSetBool, State.boolField_ok.mpr hd]⟩
  | _ => cases h

/-- SET.LIN of an operand outside the field's range answers ValidationFailure, whatever the link (spec R124, R155). -/
theorem exec_setLin_of_invalid {s : State} {f : Byte} {d : Descriptor} {p : LinearParams} (h : LinearAt s.cfg f d p)
    {v : Rat} (hfin : operandFinite s.cfg.arith v = true) (hinvalid : validLin s.cfg.arith p v = false) :
    exec (.setLin f v) s = .next (s.raise .validationFailure) := by
  rw [exec_setLin_of_finite h hfin, hinvalid]
  rfl

/-- SET.ENUM of an ordinal above the largest defined one answers ValidationFailure, whatever the link (spec R125, R155). -/
theorem exec_setEnum_of_invalid {s : State} {f : Byte} {d : Descriptor} {maxOrd n : Nat} (h : EnumAt s.cfg f d maxOrd)
    (hn : maxOrd < n) : exec (.setEnum f n) s = .next (s.raise .validationFailure) := by
  rw [exec, execSetEnum, State.enumField_ok.mpr h]
  simp [validEnum, hn]

theorem State.setField_trace (s : State) (d : Descriptor) (w raw : Nat) :
    (s.setField d w raw).trace = s.trace ++ [.writeBits d.addr d.bw w d.off (BitVec.ofNat 16 raw)
      (s.writeBits d.addr d.bw w d.off (BitVec.ofNat 16 raw)).1] := by
  rw [State.setField_eq, State.answer_trace, State.writeBits_trace]

theorem State.setField_peek (s : State) (d : Descriptor) (w raw k : Nat) :
    (s.setField d w raw).peek k = (s.writeBits d.addr d.bw w d.off (BitVec.ofNat 16 raw)).2.peek k := by
  rw [State.setField_eq, State.answer_peek]

theorem State.setField_resetting (s : State) (d : Descriptor) (w raw : Nat) :
    (s.setField d w raw).resetting = (s.writeBits d.addr d.bw w d.off (BitVec.ofNat 16 raw)).2.resetting := by
  rw [State.setField_eq, State.answer_resetting]

/-- A SET answers `OK` exactly where both its phases complete and its registers exist. -/
theorem State.setField_response_eq (s : State) (d : Descriptor) (w raw : Nat) :
    (s.setField d w raw).response =
      some ⟨if s.holds d.addr d.bw && (s.drawAt 0).ok && (s.drawAt 1).ok then .ok else .transportFailure, .none⟩ := by
  rw [State.setField_eq, State.answer_response, State.writeBits_fst]

/-! ## Both phases complete -/

/-- A raw value that fits a field's bits is the one a masked write puts there (spec R129). -/
theorem State.store_insert_wrote {s : State} {d : Descriptor} {raw : Nat} (hs : s.regsOk = true)
    (ha : s.holds d.addr d.bw = true) (hslice : d.off + d.w ≤ 8 * d.bw.bytes) (hraw : raw < 2 ^ d.w) :
    s.Wrote (s.store d.addr d.bw (insertBits (s.load d.addr d.bw) d.off d.w (BitVec.ofNat 16 raw))) d raw where
  field := by
    have hw : d.w ≤ 16 := by cases hbw : d.bw <;> simp only [hbw, ByteWidth.bytes] at hslice <;> omega
    rw [State.fieldRaw, State.store_insert_sliceOf hs ha hslice, BitVec.toNat_ofNat,
      Nat.mod_eq_of_lt (hraw.trans_le (Nat.pow_le_pow_right (by decide) hw)), Nat.mod_eq_of_lt hraw]
  beside k hk hout := by
    rw [State.store_insert_testBit hs ha _ _ hk, if_neg (by omega), State.load_toNat]
  others k hk := State.store_peek_outside hs _ _ _ hk

/-- A masked write on a device that changes nothing between its phases stores the read phase's value with the slice
replaced into the registers as that phase found them (spec R55). -/
theorem State.writeBits_snd_of_undisturbed {s : State} {a : Byte} {n : ByteWidth} (ha : s.holds a n = true)
    (hr : s.resetting = false) (i0 : IdleEvents (s.drawAt 0).after) (i1 : IdleEvents (s.drawAt 1).before)
    (h0 : (s.drawAt 0).ok = true) (h1 : (s.drawAt 1).ok = true) (w off : Nat) (raw : Word) :
    (s.writeBits a n w off raw).2 =
      (((s.atPhase.afterDraw.store a n (insertBits (s.atPhase.load a n) off w raw)).startReset
        (writesReset s.cfg a n (insertBits (s.atPhase.load a n) off w raw))).device (s.drawAt 1).after).record
          (.writeBits a n w off raw true) := by
  have hp := State.atPhase_resetting hr
  have hread : (s.memRead a n).2 = s.atPhase := State.device_idle hp i0
  have hdraw : s.atPhase.nextDraw = s.drawAt 1 := State.nextDraw_congr s.atPhase_script s.atPhase_env
  rw [State.writeBits_snd_of_ok ha h0 h1, hread, State.atPhase_idle hp (hdraw ▸ i1)]

section
variable {s : State} {d : Descriptor} {raw : Nat} (hwf : s.cfg.wf = true) (hs : s.regsOk = true)
  {i : Instr} (hset : Sets s.cfg i d raw) (hr : s.resetting = false)
include hwf hs hset hr

/-- A SET whose phases complete, on a device that changes nothing between them or after, writes its raw value into the
field and nothing else, and a reset runs exactly where it left a 1 in the reset bit (spec R129; log entry 4). -/
theorem State.setField_wrote (i0 : IdleEvents (s.drawAt 0).after) (i1 : Idle (s.drawAt 1))
    (h0 : (s.drawAt 0).ok = true) (h1 : (s.drawAt 1).ok = true)
    (hreact : ¬ s.atPhase.SetsResetBit d raw ∨ (s.drawAt 1).after = []) :
    s.atPhase.Wrote (s.setField d d.w raw) d raw ∧
      ((s.setField d d.w raw).resetting = true ↔ s.atPhase.SetsResetBit d raw) := by
  obtain ⟨-, hraw, k, hd⟩ := exec_of_sets hwf hset
  obtain ⟨ha, -, hslice⟩ := State.wf_field_holds hwf hd
  obtain ⟨-, -, -, -, hb⟩ := State.wf_constants hwf
  have hp : s.atPhase.afterDraw.resetting = false := s.atPhase.afterDraw_resetting.trans (State.atPhase_resetting hr)
  have hreset := writesReset_insert (s := s.atPhase) (by rwa [State.atPhase_cfg]) hslice hraw
  have hstore := State.store_insert_wrote (s := s.atPhase.afterDraw) (d := d)
    (by rw [State.afterDraw_regsOk]; exact State.atPhase_regsOk hs)
    (by rw [State.afterDraw_holds, State.atPhase_holds, ha]) hslice hraw
  have hsnd := State.writeBits_snd_of_undisturbed ha hr i0 i1.1 h0 h1 d.w d.off (BitVec.ofNat 16 raw)
  rw [State.atPhase_cfg] at hreset
  rw [State.afterDraw_load] at hstore
  rw [State.startReset_device (by rw [State.store_resetting, hp]) i1.2
    (hreact.imp_left fun hn => Bool.eq_false_iff.mpr fun h => hn (hreset.mp h))] at hsnd
  refine ⟨hstore.congr (fun k => (s.atPhase.afterDraw_peek k).symm) fun k => ?_, ?_⟩
  · rw [State.setField_peek, hsnd, State.record_peek, State.startReset_peek]
  · rw [State.setField_resetting, hsnd, State.record_resetting, State.startReset_resetting, State.store_resetting, hp,
      Bool.false_or, hreset]

/-- Where the device does nothing before the SET either, all this is said of the state the SET runs in. -/
theorem State.setField_wrote_of_idle (i0 : Idle (s.drawAt 0)) (i1 : Idle (s.drawAt 1)) (h0 : (s.drawAt 0).ok = true)
    (h1 : (s.drawAt 1).ok = true) (hreact : ¬ s.SetsResetBit d raw ∨ (s.drawAt 1).after = []) :
    s.Wrote (s.setField d d.w raw) d raw ∧ ((s.setField d d.w raw).resetting = true ↔ s.SetsResetBit d raw) := by
  have hsame := State.atPhase_sameRegs hr i0.1
  have hiff := hsame.setsResetBit_iff s.atPhase_cfg d raw
  obtain ⟨hwrote, hresetting⟩ :=
    State.setField_wrote hwf hs hset hr i0.2 i1 h0 h1 (hreact.imp_left fun hn h => hn (hiff.mp h))
  exact ⟨hwrote.congr hsame.symm fun _ => rfl, hresetting.trans hiff⟩

end

/-! ## A phase fails -/

/-- A SET whose read phase fails leaves the registers to the device (spec R132). -/
theorem State.setField_sameRegs_of_read_failed {s : State} (hr : s.resetting = false) (i0 : Idle (s.drawAt 0))
    (h0 : (s.drawAt 0).ok = false) (d : Descriptor) (w raw : Nat) : s.SameRegs (s.setField d w raw) := fun k => by
  rw [State.setField_peek, State.writeBits_snd_of_read_failed h0, State.record_peek, State.memRead_idle hr i0,
    State.afterDraw_peek]

/-- A SET whose write phase fails changes at most the bytes it addressed (spec R132, R53). -/
theorem State.setField_sameOutside_of_write_failed {s : State} {d : Descriptor} (hs : s.regsOk = true)
    (ha : s.holds d.addr d.bw = true) (hr : s.resetting = false) (i0 : Idle (s.drawAt 0)) (i1 : Idle (s.drawAt 1))
    (h0 : (s.drawAt 0).ok = true) (h1 : (s.drawAt 1).ok = false) (w raw : Nat) :
    s.SameOutside (s.setField d w raw) d.addr d.bw := fun k hk => by
  have hr' : s.afterDraw.resetting = false := s.afterDraw_resetting.trans hr
  rw [State.setField_peek, State.writeBits_snd_of_write_failed ha h0 h1, State.record_peek, State.memRead_idle hr i0,
    State.atPhase_idle hr' i1.1, State.device_idle (by simpa using hr) i1.2,
    State.store_peek_outside (by simpa using hs) _ _ _ hk, State.afterDraw_peek, State.afterDraw_peek]

/-! ## The quiescent device -/

theorem State.Quiescent.drawAt_ok {s : State} (hq : s.Quiescent) (k : Nat) : (s.drawAt k).ok = true := by
  rw [hq.drawAt]
  rfl

theorem State.Quiescent.drawAt_idle {s : State} (hq : s.Quiescent) (k : Nat) : Idle (s.drawAt k) := by
  rw [hq.drawAt]
  exact idle_quiet

/-- The quiescent device ends a running reset at once, and otherwise does nothing. -/
theorem State.device_quiet (s : State) : s.device Draw.quiet.after = if s.resetting then s.toDefaults else s := rfl

/-- On the quiescent device a SET stores its value, and the device ends at once a reset that this starts. -/
theorem State.Quiescent.setField_eq {s : State} (hq : s.Quiescent) {d : Descriptor} (ha : s.holds d.addr d.bw = true)
    (w raw : Nat) :
    s.setField d w raw =
      ((((s.store d.addr d.bw (insertBits (s.load d.addr d.bw) d.off w (BitVec.ofNat 16 raw))).startReset
        (writesReset s.cfg d.addr d.bw (insertBits (s.load d.addr d.bw) d.off w (BitVec.ofNat 16 raw)))).device
          Draw.quiet.after).record (.writeBits d.addr d.bw w d.off (BitVec.ofNat 16 raw) true)).respond .none := by
  rw [State.setField_eq, State.writeBits_fst, State.writeBits_idle ha hq.resetting (hq.drawAt_idle 0)
    (hq.drawAt_idle 1).1 (hq.drawAt_ok 0) (hq.drawAt_ok 1), ha, hq.drawAt_ok, hq.drawAt_ok, hq.draw.2, hq.draw.2, hq.drawAt]
  rfl

/-- After a SET the quiescent device is quiescent still. -/
theorem State.Quiescent.setField {s : State} (hq : s.Quiescent) {d : Descriptor} (ha : s.holds d.addr d.bw = true)
    (w raw : Nat) : (s.setField d w raw).Quiescent := by
  rw [hq.setField_eq ha]
  refine ⟨by simp [hq.script], by simp [hq.env], ?_⟩
  rw [State.respond_resetting, State.record_resetting, State.device_quiet]
  split
  · rfl
  · next h => exact Bool.eq_false_iff.mpr h

/-- A SET that leaves a 1 in the reset bit leaves the quiescent device at its power-on values (log entry 4). -/
theorem State.Quiescent.setField_atDefaults {s : State} (hq : s.Quiescent) (hwf : s.cfg.wf = true) {i : Instr}
    {d : Descriptor} {raw : Nat} (hset : Sets s.cfg i d raw) (hreset : s.SetsResetBit d raw) :
    (s.setField d d.w raw).AtDefaults := by
  obtain ⟨-, hraw, k, hd⟩ := exec_of_sets hwf hset
  obtain ⟨ha, -, hslice⟩ := State.wf_field_holds hwf hd
  obtain ⟨-, -, -, -, hb⟩ := State.wf_constants hwf
  rw [hq.setField_eq ha, (writesReset_insert hb hslice hraw).mpr hreset, State.device_quiet_after_reset rfl]
  obtain ⟨hspecified, hregister, hbit, hended⟩ := State.toDefaults_atDefaults (s := State.startReset
    (s.store d.addr d.bw (insertBits (s.load d.addr d.bw) d.off d.w (BitVec.ofNat 16 raw))) true)
    (by rwa [State.startReset_cfg, State.store_cfg])
  exact ⟨hspecified, hregister, hbit, hended⟩

/-! ## The SETs of a valid value as one command -/

/-- `t` is what a SET of `raw` into the field `d` leaves of `s` where both its phases complete (spec R124 to R126, R129). -/
structure State.SetCompleted (s t : State) (d : Descriptor) (raw : Nat) : Prop where
  response  : t.response = some ⟨.ok, .none⟩
  trace     : t.trace = s.trace ++ [.writeBits d.addr d.bw d.w d.off (BitVec.ofNat 16 raw) true]
  frame     : s.CommandFrame t
  linkOpen  : t.linkOpen = s.linkOpen
  wrote     : s.resetting = false → Idle (s.drawAt 0) → Idle (s.drawAt 1) →
    ¬ s.SetsResetBit d raw ∨ (s.drawAt 1).after = [] →
    s.Wrote t d raw ∧ (t.resetting = true ↔ s.SetsResetBit d raw)
  defaults  : s.Quiescent → s.SetsResetBit d raw → t.AtDefaults
  quiescent : s.Quiescent → t.Quiescent

theorem exec_sets_completes {s : State} {i : Instr} {d : Descriptor} {raw : Nat} (hwf : s.cfg.wf = true)
    (hs : s.regsOk = true) (hset : Sets s.cfg i d raw) (hl : s.linkOpen = true) (h0 : (s.drawAt 0).ok = true)
    (h1 : (s.drawAt 1).ok = true) : ∃ t, exec i s = .next t ∧ s.SetCompleted t d raw := by
  obtain ⟨hexec, hraw, k, hd⟩ := exec_of_sets hwf hset
  obtain ⟨ha, -, -⟩ := State.wf_field_holds hwf hd
  have hnext := hexec.trans (State.ifLinkOpen_of_open hl _)
  refine ⟨_, hnext, ?_, ?_, exec_commandFrame hnext, s.setField_linkOpen d d.w raw, fun hr i0 i1 hreact => ?_,
    fun hq hreset => hq.setField_atDefaults hwf hset hreset, fun hq => hq.setField ha d.w raw⟩
  · rw [State.setField_response_eq, ha, h0, h1]
    rfl
  · rw [State.setField_trace, State.writeBits_fst, ha, h0, h1]
    rfl
  · exact State.setField_wrote_of_idle hwf hs hset hr i0 i1 h0 h1 hreact

/-- The polarity that a SET applies to a flag (spec R108) is the one a GET takes away again (spec R109). -/
theorem flag_of_polarity (inverted b : Bool) : (decide ((if b = inverted then 0 else 1) = 1) != inverted) = b := by
  cases inverted <;> cases b <;> rfl

/-- On the quiescent device a GET after a SET of the same field answers what the field holds, which is the raw value set
where the SET started no reset (spec R131; log entry 4). -/
theorem exec_gets_after_sets {s : State} {i j : Instr} {d : Descriptor} {raw : Nat} {decoded : Nat → Value}
    (hwf : s.cfg.wf = true) (hs : s.regsOk = true) (hset : Sets s.cfg i d raw) (hget : Gets s.cfg j d decoded)
    (hl : s.linkOpen = true) (hq : s.Quiescent) :
    ∃ t u, exec i s = .next t ∧ exec j t = .next u ∧ u.response = some ⟨.ok, decoded (t.fieldRaw d)⟩ ∧
      (¬ s.SetsResetBit d raw → t.fieldRaw d = raw) ∧ (s.SetsResetBit d raw → t.AtDefaults) := by
  obtain ⟨t, hexec, ht⟩ := exec_sets_completes hwf hs hset hl (hq.drawAt_ok 0) (hq.drawAt_ok 1)
  have hqt := ht.quiescent hq
  rw [← ht.frame.cfg] at hwf hget
  obtain ⟨u, hexec', hu, -, -⟩ := exec_gets_completes hwf hget (ht.linkOpen.trans hl) (hqt.drawAt_ok 0)
  rw [hqt.atPhase] at hu
  exact ⟨t, u, hexec, hexec', hu,
    fun hn => (ht.wrote hq.resetting (hq.drawAt_idle 0) (hq.drawAt_idle 1) (.inl hn)).1.field, ht.defaults hq⟩

end Sys2Proof.Machine
end

section
namespace Sys2Proof.Proofs
open Sys2Proof.Machine

/-- Settles O32, as the GET of a LINEAR field (`exec_gets_completes`). -/
theorem getLinCompletes : Obligations.GetLinCompletes := by
  intro s f d p hwf h hl hok
  have hget : Gets s.cfg (.getLin f) d fun raw => .phys (deq s.cfg.arith p raw) := ⟨p, h, rfl⟩
  obtain ⟨t, hexec, hresponse, htrace, hread⟩ := exec_gets_completes hwf hget hl hok
  refine ⟨t, _, hexec, hresponse, rfl, fun he => ?_, htrace, hread.frame, hread.linkOpen.trans hl, hread.regs,
    hread.of_idle⟩
  rw [he]
  rfl

/-- Settles O33, as the GET of an ENUM field (`exec_gets_completes`). -/
theorem getEnumCompletes : Obligations.GetEnumCompletes := by
  intro s f d maxOrd hwf h hl hok
  have hget : Gets s.cfg (.getEnum f) d .ord := ⟨maxOrd, h, rfl⟩
  obtain ⟨t, hexec, hresponse, htrace, hread⟩ := exec_gets_completes hwf hget hl hok
  exact ⟨t, hexec, hresponse, htrace, hread.frame, hread.linkOpen.trans hl, hread.regs, hread.of_idle⟩

/-- Settles O34, as the GET of a BOOL field, which has one bit (`exec_gets_completes`). -/
theorem getBoolCompletes : Obligations.GetBoolCompletes := by
  intro s f d inverted hwf h hl hok
  have hget : Gets s.cfg (.getBool f) d fun raw => .flag (decide (raw = 1) != inverted) := ⟨inverted, h, rfl⟩
  obtain ⟨t, hexec, hresponse, htrace, hread⟩ := exec_gets_completes hwf hget hl hok
  rw [Config.wf_bool hwf h] at htrace
  exact ⟨t, hexec, hresponse, htrace, hread.frame, hread.linkOpen.trans hl, hread.regs, hread.of_idle⟩

/-- Settles O35: every GET is one `ReadBits` (`exec_gets_eq_getField`), here a failed one. -/
theorem getReportsTransportFailure : Obligations.GetReportsTransportFailure := by
  intro s i d decoded hget hl hfail
  obtain ⟨w, hexec⟩ := exec_gets_eq_getField hget
  have hread := s.getField_afterRead d w decoded
  refine ⟨_, hexec.trans (State.ifLinkOpen_of_open hl _), ?_, ⟨w, ?_⟩, hread.frame, hread.linkOpen.trans hl,
    hread.regs⟩
  · rw [State.getField_of_failed hfail, State.raise_response]
  · rw [State.getField_trace, State.readBits_fst, hfail, Bool.and_false]
    rfl

/-- Settles O36, as the SET of a LINEAR field (`exec_sets_completes`). -/
theorem setLinCompletes : Obligations.SetLinCompletes := by
  intro s f v d p hwf hs h hfin hvalid hl h0 h1
  have hset : Sets s.cfg (.setLin f v) d (qnt s.cfg.arith p d.w v) := ⟨p, h, hfin, hvalid, rfl⟩
  obtain ⟨t, hexec, ht⟩ := exec_sets_completes hwf hs hset hl h0 h1
  refine ⟨t, _, hexec, ht.response, rfl, fun he => ?_, ht.trace, ht.frame, ht.linkOpen.trans hl, ht.wrote, ht.defaults⟩
  rw [he]
  exact quantized_qntExact (Config.wf_linear hwf h).1 d.w v

/-- Settles O37, as the SET of an ENUM field (`exec_sets_completes`). -/
theorem setEnumCompletes : Obligations.SetEnumCompletes := by
  intro s f n d maxOrd hwf hs h hn hl h0 h1
  have hset : Sets s.cfg (.setEnum f n) d n := ⟨maxOrd, h, hn, rfl⟩
  obtain ⟨t, hexec, ht⟩ := exec_sets_completes hwf hs hset hl h0 h1
  exact ⟨t, hexec, ht.response, ht.trace, ht.frame, ht.linkOpen.trans hl, ht.wrote, ht.defaults⟩

/-- Settles O38, as the SET of a BOOL field, which has one bit (`exec_sets_completes`). -/
theorem setBoolCompletes : Obligations.SetBoolCompletes := by
  intro s f b d inverted hwf hs h hl h0 h1
  have hset : Sets s.cfg (.setBool f b) d (if b = inverted then 0 else 1) := ⟨inverted, h, rfl⟩
  obtain ⟨t, hexec, ht⟩ := exec_sets_completes hwf hs hset hl h0 h1
  have htrace := ht.trace
  rw [Config.wf_bool hwf h] at htrace
  exact ⟨t, _, hexec, ht.response, rfl, htrace, ht.frame, ht.linkOpen.trans hl, ht.wrote, ht.defaults⟩

/-- Settles O39: validation comes before the link and the transport, and a failure there only answers. -/
theorem invalidSetChangesNothing : Obligations.InvalidSetChangesNothing := by
  intro s f d
  refine ⟨fun p v h hfin => ⟨fun he => ?_, fun hinvalid => ?_⟩, fun maxOrd n h hn => ?_⟩
  · rw [he, ← Bool.not_eq_true, validLin, validExact, Bool.and_eq_true, decide_eq_true_eq, decide_eq_true_eq,
      not_and_or, not_le, not_le]
  · exact exec_setLin_of_invalid h hfin hinvalid
  · exact exec_setEnum_of_invalid h hn

/-- Settles O40: GETs, valid SETs and RESET run under the link check, which an invalid SET does not reach. -/
theorem closedLinkIsRefused : Obligations.ClosedLinkIsRefused := by
  intro s i f d hl
  refine ⟨?_, fun p v h hfin hinvalid => ?_, fun maxOrd n h hn => ?_⟩
  · rintro (⟨decoded, hget⟩ | ⟨raw, hset⟩ | rfl)
    · obtain ⟨w, hexec⟩ := exec_gets_eq_getField hget
      exact hexec.trans (State.ifLinkOpen_of_closed hl _)
    · obtain ⟨w, raw', hexec⟩ := exec_sets_eq_setField hset
      exact hexec.trans (State.ifLinkOpen_of_closed hl _)
    · exact State.ifLinkOpen_of_closed hl _
  · exact ⟨_, exec_setLin_of_invalid h hfin hinvalid, State.raise_response _ _⟩
  · exact ⟨_, exec_setEnum_of_invalid h hn, State.raise_response _ _⟩

/-- Settles O41: a SET that answers `OK` had both phases complete, and then writes its field alone into the registers its
read phase found (`State.setField_wrote`). -/
theorem setIsolatesItsBits : Obligations.SetIsolatesItsBits := by
  intro s t i d raw hwf hs hr hset i0 i1 hreact hnext hresponse
  obtain ⟨hexec, -, k, hd⟩ := exec_of_sets hwf hset
  obtain ⟨-, rfl⟩ := State.ifLinkOpen_next.mp (hexec.symm.trans hnext)
  rw [State.setField_response_eq] at hresponse
  have hok : (s.holds d.addr d.bw && (s.drawAt 0).ok && (s.drawAt 1).ok) = true := by
    by_contra hfail
    rw [if_neg hfail] at hresponse
    cases hresponse
  simp only [Bool.and_eq_true] at hok
  obtain ⟨⟨-, h0⟩, h1⟩ := hok
  obtain ⟨hwrote, -⟩ := State.setField_wrote hwf hs hset hr i0 i1 h0 h1 hreact
  refine ⟨fun k hk hmask => hwrote.beside k hk ?_, hwrote.others⟩
  have h16 : k < 16 := hk.trans_le (by cases d.bw <;> decide)
  rw [fmask_getLsbD d h16, decide_eq_false_iff_not] at hmask
  omega

/-- Settles O42, shape by shape (`exec_gets_after_sets`); a GET undoes the polarity of its SET (`flag_of_polarity`). -/
theorem getAfterSetGivesTheValueSet : Obligations.GetAfterSetGivesTheValueSet := by
  intro s f d hwf hs hl hq
  refine ⟨fun p v h hfin hvalid => ?_, fun maxOrd n h hn => ?_, fun inverted b h => ?_⟩
  · have hset : Sets s.cfg (.setLin f v) d (qnt s.cfg.arith p d.w v) := ⟨p, h, hfin, hvalid, rfl⟩
    have hget : Gets s.cfg (.getLin f) d fun raw => .phys (deq s.cfg.arith p raw) := ⟨p, h, rfl⟩
    exact exec_gets_after_sets hwf hs hset hget hl hq
  · have hset : Sets s.cfg (.setEnum f n) d n := ⟨maxOrd, h, hn, rfl⟩
    have hget : Gets s.cfg (.getEnum f) d .ord := ⟨maxOrd, h, rfl⟩
    exact exec_gets_after_sets hwf hs hset hget hl hq
  · have hset : Sets s.cfg (.setBool f b) d (if b = inverted then 0 else 1) := ⟨inverted, h, rfl⟩
    have hget : Gets s.cfg (.getBool f) d fun raw => .flag (decide (raw = 1) != inverted) := ⟨inverted, h, rfl⟩
    obtain ⟨t, u, hexec, hexec', hu, hraw, hdefaults⟩ := exec_gets_after_sets hwf hs hset hget hl hq
    refine ⟨t, u, hexec, hexec', hu, fun hn => ⟨?_, fun hi hb => ?_⟩, hdefaults⟩
    · rw [hu, hraw hn, flag_of_polarity]
    · exact (hraw hn).trans (if_pos (hb.trans hi.symm))

/-- Settles O43: the device is idle, so what a phase leaves is the codec's doing alone. -/
theorem failedSetTouchesOnlyItsBytes : Obligations.FailedSetTouchesOnlyItsBytes := by
  intro s i d raw hwf hs hr hl hset i0
  obtain ⟨hexec, -, k, hd⟩ := exec_of_sets hwf hset
  obtain ⟨ha, -, -⟩ := State.wf_field_holds hwf hd
  have hnext := hexec.trans (State.ifLinkOpen_of_open hl _)
  have hframe := exec_commandFrame hnext
  have hlink := (s.setField_linkOpen d d.w raw).trans hl
  refine ⟨fun h0 => ⟨_, hnext, ?_, State.setField_sameRegs_of_read_failed hr i0 h0 d d.w raw, hframe, hlink⟩,
    fun h0 h1 i1 => ⟨_, hnext, ?_, State.setField_sameOutside_of_write_failed hs ha hr i0 i1 h0 h1 d.w raw, hframe,
      hlink⟩⟩
  · rw [State.setField_response_eq, h0, Bool.and_false, Bool.false_and]
    rfl
  · rw [State.setField_response_eq, h1, Bool.and_false]
    rfl

/-- Settles O44: a GET is one `ReadBits` and a valid SET one `WriteBits` of its raw value, each with its one entry. -/
theorem accessorsIssueOneOperation : Obligations.AccessorsIssueOneOperation := by
  intro s t i d hwf hnext
  refine ⟨?_, fun raw hset => ?_⟩
  · rintro ⟨decoded, hget⟩
    obtain ⟨-, rfl⟩ := State.ifLinkOpen_next.mp ((exec_of_gets hwf hget).1.symm.trans hnext)
    exact ⟨_, _, State.getField_trace ..⟩
  · obtain ⟨-, rfl⟩ := State.ifLinkOpen_next.mp ((exec_of_sets hwf hset).1.symm.trans hnext)
    exact ⟨_, _, State.setField_trace ..⟩

end Sys2Proof.Proofs
end

section
/-! The reset write (spec R142): what RESET and step 4 of bring-up answer and leave, where it completes and where a phase of it
fails. -/

namespace Sys2Proof.Machine

theorem State.triggerReset_trace (s : State) :
    s.triggerReset.trace = s.trace ++ [.writeBits s.cfg.resetAddr .one 1 s.cfg.resetBit 1 s.resetWrite.1] := by
  rw [State.triggerReset_eq, State.answer_trace, State.resetWrite_trace]

theorem State.triggerReset_response_eq (s : State) :
    s.triggerReset.response = if s.resetWrite.1 then some ⟨.ok, .none⟩ else some ⟨.transportFailure, .none⟩ := by
  rw [State.triggerReset_eq, State.answer_response]
  split <;> rfl

theorem State.triggerReset_peek (s : State) (k : Nat) : s.triggerReset.peek k = s.resetWrite.2.peek k := by
  rw [State.triggerReset_eq, State.answer_peek]

theorem State.triggerReset_resetting (s : State) : s.triggerReset.resetting = s.resetWrite.2.resetting := by
  rw [State.triggerReset_eq, State.answer_resetting]

/-- The reset write completes exactly where both its phases do and the reset register exists. -/
theorem State.resetWrite_fst (s : State) :
    s.resetWrite.1 = (s.holds s.cfg.resetAddr .one && (s.drawAt 0).ok && (s.drawAt 1).ok) :=
  State.writeBits_fst ..

/-- RESET on an open link is the reset write, answered. -/
theorem exec_reset_of_open {s : State} (hl : s.linkOpen = true) : exec .reset s = .next s.triggerReset :=
  State.ifLinkOpen_of_open hl _

/-! ## Both phases complete -/

/-- The byte that a one-byte masked write leaves at its address: the slice is the raw value, and every other bit is as the
read phase found it. -/
theorem State.store_one_insert_getLsbD {s : State} (h : s.regsOk = true) {a : Byte} (ha : s.holds a .one = true)
    (x raw : Word) (off w : Nat) {k : Nat} (hk : k < 8) :
    ((s.store a .one (insertBits x off w raw)).peek a.toNat).getLsbD k =
      if off ≤ k ∧ k < off + w then raw.getLsbD (k - off) else x.getLsbD k :=
  State.store_insert_testBit h ha x raw hk

/-- On a device that does nothing between the two phases or after them, the reset write stores a 1 into the reset bit of the
registers its read phase found, and the reset runs (spec R142, R143). -/
theorem State.resetWrite_snd_of_undisturbed {s : State} (hwf : s.cfg.wf = true) (h0 : (s.drawAt 0).ok = true)
    (h1 : (s.drawAt 1).ok = true) (ha0 : (s.drawAt 0).after = []) (hb1 : (s.drawAt 1).before = [])
    (ha1 : (s.drawAt 1).after = []) :
    s.resetWrite.2 =
      ((s.atPhase.afterDraw.store s.cfg.resetAddr .one
        (insertBits (s.atPhase.load s.cfg.resetAddr .one) s.cfg.resetBit 1 1)).startReset true).record
          (.writeBits s.cfg.resetAddr .one 1 s.cfg.resetBit 1 true) := by
  obtain ⟨-, -, -, ha, hb⟩ := State.wf_constants hwf
  have hread : (s.memRead s.cfg.resetAddr .one).2 = s.atPhase := by
    rw [State.memRead_snd, ← State.drawAt_zero, ha0, State.device_nil]
  have hdraw : s.atPhase.nextDraw = s.drawAt 1 := State.nextDraw_congr s.atPhase_script s.atPhase_env
  have hfound : s.atPhase.atPhase = s.atPhase.afterDraw := by
    rw [State.atPhase, hdraw, hb1, State.device_nil]
  rw [State.resetWrite, State.writeBits_snd_of_ok ha h0 h1, hread, hfound, writesReset_resetWrite hb, ha1,
    State.device_nil]

/-- The registers after a RESET that the device has not yet reacted to: the reset bit is 1, and every other bit and register
is as the read phase found it. -/
theorem State.triggerReset_regs_of_undisturbed {s : State} (hwf : s.cfg.wf = true) (hs : s.regsOk = true)
    (h0 : (s.drawAt 0).ok = true) (h1 : (s.drawAt 1).ok = true) (ha0 : (s.drawAt 0).after = [])
    (hb1 : (s.drawAt 1).before = []) (ha1 : (s.drawAt 1).after = []) :
    (s.triggerReset.peek s.cfg.resetAddr.toNat).getLsbD s.cfg.resetBit = true ∧
      (∀ k, k < 8 → k ≠ s.cfg.resetBit → (s.triggerReset.peek s.cfg.resetAddr.toNat).getLsbD k =
        (s.atPhase.peek s.cfg.resetAddr.toNat).getLsbD k) ∧
      ∀ a, a ≠ s.cfg.resetAddr.toNat → s.triggerReset.peek a = s.atPhase.peek a := by
  obtain ⟨-, -, -, ha, hb⟩ := State.wf_constants hwf
  have hfound : s.atPhase.afterDraw.regsOk = true := s.atPhase.afterDraw_regsOk.trans (State.atPhase_regsOk hs)
  have hholds : s.atPhase.afterDraw.holds s.cfg.resetAddr .one = true := by
    rw [State.afterDraw_holds, State.atPhase_holds, ha]
  simp only [State.triggerReset_peek, State.resetWrite_snd_of_undisturbed hwf h0 h1 ha0 hb1 ha1, State.record_peek,
    State.startReset_peek]
  refine ⟨?_, fun k hk hne => ?_, fun a hne => ?_⟩
  · rw [State.store_one_insert_getLsbD hfound hholds _ _ _ _ (by omega), if_pos (by omega), Nat.sub_self]
    rfl
  · rw [State.store_one_insert_getLsbD hfound hholds _ _ _ _ hk, if_neg (by omega)]
    simp [State.load, hk.trans_le (by decide : 8 ≤ 16)]
  · rw [State.store_one_peek hfound hholds, if_neg hne, State.afterDraw_peek]

/-- The reset write leaves the quiescent device at its power-on values (spec R144). -/
theorem State.Quiescent.triggerReset_atDefaults {s : State} (hq : s.Quiescent) (hwf : s.cfg.wf = true) :
    s.triggerReset.AtDefaults := by
  obtain ⟨-, -, -, -, hb⟩ := State.wf_constants hwf
  rw [State.triggerReset_eq, hq.resetWrite hwf]
  obtain ⟨hspecified, hregister, hbit, hended⟩ := State.toDefaults_atDefaults (s := State.startReset
    (s.store s.cfg.resetAddr .one (insertBits (s.load s.cfg.resetAddr .one) s.cfg.resetBit 1 1)) true)
    (by rwa [State.startReset_cfg, State.store_cfg])
  exact ⟨hspecified, hregister, hbit, hended⟩

/-! ## A phase fails -/

section
variable {s : State} {a : Byte} {n : ByteWidth} (hfail : (s.drawAt 0).ok = false ∨ (s.drawAt 1).ok = false)
include hfail

/-- A masked write with a failing phase leaves what its read left, or its write's residue in the bytes it addressed. -/
theorem State.writeBits_snd_of_failed (w off : Nat) (raw : Word) :
    (s.writeBits a n w off raw).2 = (s.memRead a n).2.record (.writeBits a n w off raw false) ∨
      (s.writeBits a n w off raw).2 =
        (((s.memRead a n).2.atPhase.store a n (s.drawAt 1).residue).device (s.drawAt 1).after).record
          (.writeBits a n w off raw false) := by
  cases hread : s.holds a n && (s.drawAt 0).ok with
  | false =>
    have hnone : (s.memRead a n).1 = none := by rw [State.memRead_fst, ← State.drawAt_zero, hread]; rfl
    exact .inl (by rw [State.writeBits_of_read_failed hnone])
  | true =>
    obtain ⟨ha, h0⟩ := Bool.and_eq_true_iff.mp hread
    have h1 : (s.drawAt 1).ok = false := hfail.resolve_left (Bool.not_eq_false _ |>.mpr h0)
    exact .inr (State.writeBits_snd_of_write_failed ha h0 h1 w off raw)

/-- A masked write that fails starts no reset (spec R144; log entry 4). -/
theorem State.writeBits_resetting_of_failed (hr : s.resetting = false) (w off : Nat) (raw : Word) :
    (s.writeBits a n w off raw).2.resetting = false := by
  have hread : (s.memRead a n).2.resetting = false := State.device_resetting (State.atPhase_resetting hr) _
  obtain he | he := State.writeBits_snd_of_failed hfail w off raw <;> rw [he, State.record_resetting]
  · exact hread
  · exact State.device_resetting ((State.store_resetting ..).trans (State.atPhase_resetting hread)) _

/-- On an idle device a masked write that fails changes at most the bytes it addressed (spec R53, R58). -/
theorem State.writeBits_sameOutside_of_failed (hs : s.regsOk = true) (hr : s.resetting = false) (i0 : Idle (s.drawAt 0))
    (i1 : Idle (s.drawAt 1)) (w off : Nat) (raw : Word) : s.SameOutside (s.writeBits a n w off raw).2 a n := fun k hk => by
  have hr' : s.afterDraw.resetting = false := s.afterDraw_resetting.trans hr
  obtain he | he := State.writeBits_snd_of_failed hfail w off raw <;>
    rw [he, State.record_peek, State.memRead_idle hr i0]
  · rw [State.afterDraw_peek]
  · rw [State.atPhase_idle hr' i1.1, State.device_idle (by simpa using hr) i1.2,
      State.store_peek_outside (by simpa using hs) _ _ _ hk, State.afterDraw_peek, State.afterDraw_peek]

/-- A reset write with a failing phase reports the failure. -/
theorem State.resetWrite_fst_of_failed : s.resetWrite.1 = false := by
  rw [State.resetWrite_fst]
  obtain h0 | h1 := hfail
  · rw [h0, Bool.and_false, Bool.false_and]
  · rw [h1, Bool.and_false]

end

/-- `t` is what a failed reset write and its answer leave of `s` (spec R142, R53; log entry 4). -/
structure State.ResetFailed (s t : State) : Prop where
  response   : t.response = some ⟨.transportFailure, .none⟩
  trace      : t.trace = s.trace ++ [.writeBits s.cfg.resetAddr .one 1 s.cfg.resetBit 1 false]
  resetting  : s.resetting = false → t.resetting = false
  readFailed : (s.drawAt 0).ok = false → ∀ k, t.peek k = (s.atPhase.device s.nextDraw.after).peek k
  outside    : s.regsOk = true → s.resetting = false → Idle (s.drawAt 0) → Idle (s.drawAt 1) →
    s.SameOutside t s.cfg.resetAddr .one

theorem State.triggerReset_resetFailed {s : State} (hfail : (s.drawAt 0).ok = false ∨ (s.drawAt 1).ok = false) :
    s.ResetFailed s.triggerReset where
  response := by rw [State.triggerReset_response_eq, State.resetWrite_fst_of_failed hfail]; rfl
  trace := by rw [State.triggerReset_trace, State.resetWrite_fst_of_failed hfail]
  resetting hr := by
    rw [State.triggerReset_resetting]
    exact State.writeBits_resetting_of_failed hfail hr _ _ _
  readFailed h0 k := by
    rw [State.triggerReset_peek, State.resetWrite, State.writeBits_snd_of_read_failed h0, State.record_peek,
      State.memRead_snd]
  outside hs hr i0 i1 k hk := by
    rw [State.triggerReset_peek]
    exact State.writeBits_sameOutside_of_failed hfail hs hr i0 i1 _ _ _ k hk

/-- On an idle device a reset write whose read phase fails changes no register. -/
theorem State.ResetFailed.sameRegs {s t : State} (h : s.ResetFailed t) (hr : s.resetting = false) (i0 : Idle (s.drawAt 0))
    (h0 : (s.drawAt 0).ok = false) : s.SameRegs t := fun k => by
  rw [State.drawAt_zero] at i0
  rw [h.readFailed h0, State.device_idle (State.atPhase_resetting hr) i0.2, State.atPhase_sameRegs hr i0.1 k]

end Sys2Proof.Machine
end

section
/-! Bring-up (spec R140), and how it goes on an idle device whose Open and part read complete. -/

namespace Sys2Proof.Machine

/-- BRINGUP goes on from every state (spec R140). -/
theorem exec_bringup (s : State) (busAddr : Byte) (h : Handle) :
    exec (.bringup busAddr h) s = .next (s.bringUp busAddr h) := rfl

/-- What `Open` leaves of an idle device where it completes (tied to the model by `State.openLink_snd_of_idle`). -/
def State.opened (s : State) (busAddr : Byte) (h : Handle) : State :=
  (s.afterDraw.setLink true).record (.opened busAddr h true)

theorem State.openLink_snd_of_idle {s : State} (hr : s.resetting = false) (i0 : Idle (s.drawAt 0))
    (h0 : (s.drawAt 0).ok = true) (busAddr : Byte) (h : Handle) : (s.openLink busAddr h).2 = s.opened busAddr h := by
  rw [State.drawAt_zero] at i0 h0
  rw [State.openLink, State.atPhase_idle hr i0.1, h0, State.device_idle (by simpa using hr) i0.2, State.opened]

/-- `Open` takes one draw. -/
theorem State.opened_drawAt (s : State) (busAddr : Byte) (h : Handle) (k : Nat) :
    (s.opened busAddr h).drawAt k = s.drawAt (k + 1) := by
  rw [State.drawAt_succ]
  exact State.drawAt_congr (by rfl) (by rfl) k

theorem State.opened_load (s : State) (busAddr : Byte) (h : Handle) (a : Byte) (n : ByteWidth) :
    (s.opened busAddr h).load a n = s.load a n :=
  s.afterDraw_load a n

/-- A read of an idle device's registers takes its draw and answers their slice. -/
theorem State.readBits_of_idle {s : State} {a : Byte} {n : ByteWidth} (ha : s.holds a n = true) (hr : s.resetting = false)
    (i0 : Idle (s.drawAt 0)) (h0 : (s.drawAt 0).ok = true) (w off : Nat) :
    s.readBits a n w off = (some (extractBits (s.load a n) off w),
      s.afterDraw.record (.readBits a n w off (some (extractBits (s.load a n) off w)))) := by
  rw [State.drawAt_zero] at h0
  have hvalue : (s.memRead a n).1 = some (s.load a n) := by
    rw [State.memRead_fst, ha, h0, State.atPhase_idle hr i0.1, State.afterDraw_load]
    rfl
  rw [State.readBits, hvalue, State.memRead_idle hr i0]
  rfl

/-- The sub-field of the part-identification register, as a read answers it (spec R140). -/
def State.partNumber (s : State) : Word :=
  extractBits (s.load s.cfg.partIdAddr .one) s.cfg.partIdOffset s.cfg.partIdWidth

theorem State.partNumber_toNat {s : State} (hwf : s.cfg.wf = true) :
    s.partNumber.toNat = sliceOf (s.peek s.cfg.partIdAddr.toNat).toNat s.cfg.partIdOffset s.cfg.partIdWidth := by
  obtain ⟨-, hslice, -⟩ := State.wf_constants hwf
  rw [State.partNumber, extractBits_toNat _ _ (by omega), State.load_toNat, State.regValue, sliceOf]

/-- The part is the right one exactly where the part number read is the expected one. -/
theorem State.rightPart_iff {s : State} (hwf : s.cfg.wf = true) :
    s.rightPart = true ↔ s.partNumber.toNat = s.cfg.partIdExpected := by
  rw [State.partNumber_toNat hwf, State.rightPart, decide_eq_true_eq, sliceOf]

/-- On the right part the read answers the expected part number. -/
theorem State.partNumber_eq {s : State} (hwf : s.cfg.wf = true) (hpart : s.rightPart = true) :
    s.partNumber = BitVec.ofNat 16 s.cfg.partIdExpected := by
  rw [← (State.rightPart_iff hwf).mp hpart, BitVec.ofNat_toNat, BitVec.setWidth_eq]

/-- What Open and the part read leave of an idle device where both complete (spec R140, steps 1 and 2; tied to the model by
`State.bringUp_of_idle`). -/
def State.partRead (s : State) (busAddr : Byte) (h : Handle) : State :=
  (s.opened busAddr h).afterDraw.record
    (.readBits s.cfg.partIdAddr .one s.cfg.partIdWidth s.cfg.partIdOffset (some s.partNumber))

section
variable (s : State) (busAddr : Byte) (h : Handle)

@[simp] theorem State.partRead_cfg : (s.partRead busAddr h).cfg = s.cfg := by
  simp [State.partRead, State.opened]

@[simp] theorem State.partRead_linkOpen : (s.partRead busAddr h).linkOpen = true := by
  simp [State.partRead, State.opened]

@[simp] theorem State.partRead_resetting : (s.partRead busAddr h).resetting = s.resetting := by
  simp [State.partRead, State.opened]

@[simp] theorem State.partRead_regsOk : (s.partRead busAddr h).regsOk = s.regsOk := by
  simp [State.partRead, State.opened]

theorem State.partRead_trace : (s.partRead busAddr h).trace = s.trace ++ [.opened busAddr h true,
    .readBits s.cfg.partIdAddr .one s.cfg.partIdWidth s.cfg.partIdOffset (some s.partNumber)] := by
  simp [State.partRead, State.opened]

theorem State.partRead_sameRegs : s.SameRegs (s.partRead busAddr h) := fun k => by simp [State.partRead, State.opened]

/-- Open and the part read have taken two draws. -/
theorem State.partRead_drawAt (k : Nat) : (s.partRead busAddr h).drawAt k = s.drawAt (k + 2) := by
  rw [← State.opened_drawAt s busAddr h, State.drawAt_succ]
  exact State.drawAt_congr (by rfl) (by rfl) k

end

theorem State.Quiescent.partRead {s : State} (hq : s.Quiescent) (busAddr : Byte) (h : Handle) :
    (s.partRead busAddr h).Quiescent := by
  have hopened : (s.opened busAddr h).Quiescent := by
    rw [State.opened, hq.draw.2]
    exact ⟨hq.script, hq.env, hq.resetting⟩
  rw [State.partRead, hopened.draw.2]
  exact ⟨hopened.script, hopened.env, hopened.resetting⟩

/-- Bring-up of an idle device, once Open and the part read complete: the part number decides between the reset write and
the mismatch (spec R140). -/
theorem State.bringUp_of_idle {s : State} (hwf : s.cfg.wf = true) (hr : s.resetting = false) (i0 : Idle (s.drawAt 0))
    (i1 : Idle (s.drawAt 1)) (h0 : (s.drawAt 0).ok = true) (h1 : (s.drawAt 1).ok = true) (busAddr : Byte) (h : Handle) :
    s.bringUp busAddr h =
      if s.rightPart then (s.partRead busAddr h).triggerReset
      else (s.partRead busAddr h).raise .identificationMismatch := by
  obtain ⟨ha, -⟩ := State.wf_constants hwf
  have hread : (s.opened busAddr h).readBits s.cfg.partIdAddr .one s.cfg.partIdWidth s.cfg.partIdOffset =
      (some s.partNumber, s.partRead busAddr h) := by
    rw [← State.opened_drawAt s busAddr h] at i1 h1
    rw [State.readBits_of_idle (by simpa [State.opened] using ha) (by simpa [State.opened] using hr) i1 h1,
      State.opened_load]
    rfl
  obtain ⟨hfail, -⟩ | ⟨-, hnone, -⟩ | ⟨p, -, hp, hend⟩ := s.bringUp_cases busAddr h
  · cases h0.symm.trans hfail
  · rw [State.openLink_snd_of_idle hr i0 h0, hread] at hnone
    cases hnone
  · rw [State.openLink_snd_of_idle hr i0 h0, hread] at hp hend
    cases hp
    obtain ⟨hne, he⟩ | ⟨heq, he⟩ := hend
    · rw [he, if_neg fun hpart => hne ((State.rightPart_iff hwf).mp hpart)]
    · rw [he, if_pos ((State.rightPart_iff hwf).mpr heq)]

theorem State.Quiescent.bringUp {s : State} (hq : s.Quiescent) (hwf : s.cfg.wf = true) (busAddr : Byte) (h : Handle) :
    s.bringUp busAddr h =
      if s.rightPart then (s.partRead busAddr h).triggerReset
      else (s.partRead busAddr h).raise .identificationMismatch :=
  State.bringUp_of_idle hwf hq.resetting (hq.drawAt_idle 0) (hq.drawAt_idle 1) (hq.drawAt_ok 0) (hq.drawAt_ok 1) busAddr h

end Sys2Proof.Machine
end

section
namespace Sys2Proof.Proofs
open Sys2Proof.Machine

/-- Settles O45, end by end (`State.bringUp_cases`): each end's trace is the entries of the operations before it. -/
theorem bringupTakesOneOfFivePaths : Obligations.BringupTakesOneOfFivePaths := by
  intro s busAddr h
  have hnext := exec_bringup s busAddr h
  have hframe := exec_commandFrame hnext
  obtain ⟨h0, he⟩ | ⟨h0, hnone, he⟩ | ⟨p, h0, hp, ⟨hne, he⟩ | ⟨heq, he⟩⟩ := s.bringUp_cases busAddr h
  · refine ⟨_, _, hnext, ?_, hframe, .inl ⟨rfl, ?_, ?_⟩⟩ <;> simp [he, h0]
  · refine ⟨_, _, hnext, ?_, hframe, .inr ⟨?_, none, .inl ⟨rfl, rfl, ?_⟩⟩⟩ <;> simp [he, h0, hnone]
  · refine ⟨_, _, hnext, ?_, hframe, .inr ⟨?_, some p, .inr ⟨p, rfl, .inl ⟨hne, rfl, ?_⟩⟩⟩⟩ <;> simp [he, h0, hp]
  · have hresponse := (congrArg State.response he).trans (State.triggerReset_response_eq _)
    refine ⟨_, _, hnext, ?_, hframe, .inr ⟨?_, some p, .inr ⟨p, rfl, .inr ⟨heq, _, rfl, hresponse⟩⟩⟩⟩
    · simp [he, h0, hp, State.triggerReset_trace]
    · simp [he, h0, State.triggerReset_linkOpen]

/-- Settles O46: on the quiescent device bring-up is the reset write after Open and the part read, which change nothing. -/
theorem bringupCompletesOnTheRightPart : Obligations.BringupCompletesOnTheRightPart := by
  intro s busAddr h hwf hq hpart
  have hnext := exec_bringup s busAddr h
  have hend := hq.bringUp hwf busAddr h
  have hq' := hq.partRead busAddr h
  have hwf' : (s.partRead busAddr h).cfg.wf = true := (congrArg _ (s.partRead_cfg busAddr h)).trans hwf
  have hfst : (s.partRead busAddr h).resetWrite.1 = true := by rw [hq'.resetWrite hwf']
  rw [if_pos hpart] at hend
  refine ⟨_, hnext, ?_, ?_, ?_, exec_commandFrame hnext, ?_⟩ <;> rw [hend]
  · rw [State.triggerReset_response_eq, hfst]
    rfl
  · rw [State.triggerReset_linkOpen, State.partRead_linkOpen]
  · rw [State.triggerReset_trace, hfst, State.partRead_trace, State.partNumber_eq hwf hpart]
    simp
  · exact hq'.triggerReset_atDefaults hwf'

/-- Settles O47: on the quiescent device Open and the part read change no register, and a wrong part number ends bring-up
there. -/
theorem bringupRejectsTheWrongPart : Obligations.BringupRejectsTheWrongPart := by
  intro s busAddr h hwf hq hpart
  have hnext := exec_bringup s busAddr h
  have hend := hq.bringUp hwf busAddr h
  rw [if_neg (by simp [hpart])] at hend
  refine ⟨_, s.partNumber, hnext, ?_, ?_, State.partNumber_toNat hwf, ?_, ?_, exec_commandFrame hnext, ?_⟩ <;> rw [hend]
  · rw [State.raise_response]
  · rw [State.raise_linkOpen, State.partRead_linkOpen]
  · rw [State.raise_trace, State.partRead_trace]
  · exact s.partRead_sameRegs busAddr h
  · rw [State.raise_resetting, State.partRead_resetting, hq.resetting]

/-- Settles O48, as the reset write answered: undisturbed it leaves the reset running, and the quiescent device ends it. -/
theorem resetCompletes : Obligations.ResetCompletes := by
  intro s hwf hs hl h0 h1
  obtain ⟨-, -, -, ha, -⟩ := State.wf_constants hwf
  have hnext := exec_reset_of_open hl
  have hfst : s.resetWrite.1 = true := by rw [State.resetWrite_fst, ha, h0, h1]; rfl
  refine ⟨_, hnext, ?_, ?_, exec_commandFrame hnext, s.triggerReset_linkOpen.trans hl, fun ha0 hb1 ha1 => ⟨?_, ?_⟩,
    fun hq => hq.triggerReset_atDefaults hwf⟩
  · rw [State.triggerReset_response_eq, hfst]
    rfl
  · rw [State.triggerReset_trace, hfst]
  · rw [State.triggerReset_resetting, State.resetWrite_snd_of_undisturbed hwf h0 h1 ha0 hb1 ha1, State.record_resetting,
      State.startReset_resetting, Bool.or_true]
  · exact State.triggerReset_regs_of_undisturbed hwf hs h0 h1 ha0 hb1 ha1

/-- Settles O49, by what a failed reset write leaves (`State.triggerReset_resetFailed`) of the state it runs in: RESET's own,
or what bring-up's Open and part read leave of an idle device. -/
theorem resetReportsTransportFailure : Obligations.ResetReportsTransportFailure := by
  refine ⟨fun s hs hl hfail => ?_, fun s busAddr h hwf hs hr hpart hidle h0 h1 hfail => ?_⟩
  · have hnext := exec_reset_of_open hl
    have ht := State.triggerReset_resetFailed hfail
    exact ⟨_, hnext, ht.response, ht.trace, exec_commandFrame hnext, s.triggerReset_linkOpen.trans hl, ht.resetting,
      ht.readFailed, ht.outside hs⟩
  · have hnext := exec_bringup s busAddr h
    have hframe := exec_commandFrame hnext
    rw [State.bringUp_of_idle hwf hr (hidle 0 (by decide)) (hidle 1 (by decide)) h0 h1, if_pos hpart] at hnext hframe
    have hdraw := s.partRead_drawAt busAddr h
    have hcfg := s.partRead_cfg busAddr h
    have hsame := s.partRead_sameRegs busAddr h
    have hr' := (s.partRead_resetting busAddr h).trans hr
    have hs' := (s.partRead_regsOk busAddr h).trans hs
    have i0 : Idle ((s.partRead busAddr h).drawAt 0) := hdraw 0 ▸ hidle 2 (by decide)
    have i1 : Idle ((s.partRead busAddr h).drawAt 1) := hdraw 1 ▸ hidle 3 (by decide)
    have ht := State.triggerReset_resetFailed (s := s.partRead busAddr h) (by rwa [hdraw, hdraw])
    have htrace := ht.trace
    have houtside := ht.outside hs' hr' i0 i1
    rw [State.partRead_trace, hcfg, State.partNumber_eq hwf hpart, List.append_assoc] at htrace
    rw [hcfg] at houtside
    exact ⟨_, hnext, ht.response, htrace, hframe,
      (State.triggerReset_linkOpen _).trans (s.partRead_linkOpen busAddr h), ht.resetting hr',
      fun h2 k => (ht.sameRegs hr' i0 ((hdraw 0).symm ▸ h2) k).trans (hsame k),
      fun k hk => (houtside k hk).trans (hsame k)⟩

/-- Settles O50: a power loss and the end of a running reset both put the device at its power-on state
(`State.toDefaults_atDefaults`). -/
theorem deviceResetRestoresDefaults : Obligations.DeviceResetRestoresDefaults := by
  intro s e hb
  refine ⟨fun h => ?_, fun he hr => ?_⟩
  · have he : s.applyEvent e = s.toDefaults := by
      obtain ⟨rfl, hr⟩ | rfl := h
      · exact if_pos hr
      · rfl
    rw [he]
    exact ⟨State.toDefaults_atDefaults hb, s.toDefaults_cfg, s.toDefaults_linkOpen⟩
  · rw [he]
    exact if_neg (by simp [hr])

end Sys2Proof.Proofs
end

section
/-! The opcode of a request that decodes to a given instruction (spec R72, R82). -/

namespace Sys2Proof

/-- A request that decodes has the opcode of its instruction's encoding. -/
theorem opcode_of_decode {cfg : Config} {r : Request} {i : Instr} (h : decode cfg r = .ok i) :
    r.cmd.toNat / 4096 = (encode i).op.toNat := by
  rw [← r.op_toNat, op_encode_of_decode h]

/-- Only words of opcode 0x2 decode to SET.LIN and SET.ENUM (spec R72). -/
theorem opcode_of_decode_validated_set {cfg : Config} {r : Request} {i : Instr} (h : decode cfg r = .ok i)
    (hi : (∃ f v, i = .setLin f v) ∨ ∃ f n, i = .setEnum f n) : r.cmd.toNat / 4096 = 2 := by
  rw [opcode_of_decode h]
  obtain ⟨f, v, rfl⟩ | ⟨f, n, rfl⟩ := hi
  · exact congrArg BitVec.toNat (op_commandWord 0x2 f (.phys v) .none)
  · exact congrArg BitVec.toNat (op_commandWord 0x2 f (.ord n) .none)

end Sys2Proof
end

section
/-! How the status of a response goes with the trace of its command (spec R151 to R154). -/

namespace Sys2Proof

/-- The instruction issues transport operations (spec R57): all but the four that only compute do. -/
def Instr.usesTransport : Instr → Bool
  | .extract _ _ _ | .insert _ _ _ _ | .dequant _ _ | .quant _ _ => false
  | _ => true

end Sys2Proof

namespace Sys2Proof.Machine

/-- `t` answers its last transport operation: `OK` where that completed, TransportFailure where it failed (spec R151). -/
def State.AnswersLastEntry (t : State) : Prop :=
  ∃ e v, t.trace.getLast? = some e ∧ t.response = some ⟨if e.failed then .transportFailure else .ok, v⟩

theorem State.getField_answersLastEntry (s : State) (d : Descriptor) (w : Nat) (decoded : Nat → Value) :
    (s.getField d w decoded).AnswersLastEntry := by
  rw [State.AnswersLastEntry, State.getField_trace, List.getLast?_concat, State.getField_eq, State.answer_response]
  cases (s.readBits d.addr d.bw w d.off).1 with
  | none => exact ⟨_, _, rfl, rfl⟩
  | some raw => exact ⟨_, _, rfl, rfl⟩

theorem State.setField_answersLastEntry (s : State) (d : Descriptor) (w raw : Nat) :
    (s.setField d w raw).AnswersLastEntry := by
  rw [State.AnswersLastEntry, State.setField_trace, List.getLast?_concat, State.setField_eq, State.answer_response]
  cases (s.writeBits d.addr d.bw w d.off (BitVec.ofNat 16 raw)).1 with
  | false => exact ⟨_, _, rfl, rfl⟩
  | true => exact ⟨_, _, rfl, rfl⟩

theorem State.triggerReset_answersLastEntry (s : State) : s.triggerReset.AnswersLastEntry := by
  rw [State.AnswersLastEntry, State.triggerReset_trace, List.getLast?_concat, State.triggerReset_response_eq]
  cases s.resetWrite.1 with
  | false => exact ⟨_, _, rfl, rfl⟩
  | true => exact ⟨_, _, rfl, rfl⟩

/-- Bring-up answers its last operation, but for the mismatch, which it answers after a read that completed (spec R140). -/
theorem State.bringUp_answersLastEntry (s : State) (busAddr : Byte) (h : Handle) :
    (s.bringUp busAddr h).AnswersLastEntry ∨
      ((s.bringUp busAddr h).response = some ⟨.identificationMismatch, .none⟩ ∧
        ∃ a n w off p, (s.bringUp busAddr h).trace.getLast? = some (.readBits a n w off (some p))) := by
  obtain ⟨h0, he⟩ | ⟨-, hnone, he⟩ | ⟨p, -, hp, ⟨-, he⟩ | ⟨-, he⟩⟩ := s.bringUp_cases busAddr h <;> rw [he]
  · refine .inl ⟨.opened busAddr h false, .none, ?_, State.raise_response ..⟩
    rw [State.raise_trace, State.openLink_trace, List.getLast?_concat, h0]
  · refine .inl ?_
    rw [State.AnswersLastEntry, State.raise_trace, State.readBits_trace, List.getLast?_concat, hnone]
    exact ⟨_, _, rfl, State.raise_response ..⟩
  · refine .inr ⟨State.raise_response .., ?_⟩
    rw [State.raise_trace, State.readBits_trace, List.getLast?_concat, hp]
    exact ⟨_, _, _, _, p, rfl⟩
  · exact .inl (State.triggerReset_answersLastEntry _)

/-- How an instruction that ran from `s` to `t` comes by its status (spec R150 to R153; tied to the model by
`exec_ending`). -/
inductive Ending (i : Instr) (s t : State) : Status → Prop
  | computed (htrace : t.trace = s.trace) : Ending i s t .ok
  | invalid (hi : (∃ f v, i = .setLin f v) ∨ ∃ f n, i = .setEnum f n) (htrace : t.trace = s.trace) :
      Ending i s t .validationFailure
  | completed (e : TraceEntry) (hlast : t.trace.getLast? = some e) (hdone : e.failed = false) : Ending i s t .ok
  | failed (e : TraceEntry) (hi : i.usesTransport = true) (hlast : t.trace.getLast? = some e)
      (hfailed : e.failed = true) : Ending i s t .transportFailure
  | mismatch (hi : ∃ busAddr h, i = .bringup busAddr h)
      (hlast : ∃ a n w off p, t.trace.getLast? = some (.readBits a n w off (some p))) :
      Ending i s t .identificationMismatch

theorem State.AnswersLastEntry.ending {i : Instr} {s t : State} (h : t.AnswersLastEntry) (hi : i.usesTransport = true) :
    ∃ resp, t.response = some resp ∧ Ending i s t resp.status := by
  obtain ⟨e, v, hlast, hresponse⟩ := h
  refine ⟨_, hresponse, ?_⟩
  cases hfailed : e.failed with
  | false => exact .completed e hlast hfailed
  | true => exact .failed e hi hlast hfailed

/-- Every instruction that goes on answers in one of those ways. -/
theorem exec_ending {i : Instr} {s t : State} (h : exec i s = .next t) :
    ∃ resp, t.response = some resp ∧ Ending i s t resp.status := by
  obtain ⟨v, rfl, -⟩ | ⟨rfl, hi⟩ | ⟨d, w, decoded, -, rfl, hi⟩ | ⟨d, w, raw, -, rfl, hi⟩ | ⟨-, rfl, rfl⟩ |
    ⟨busAddr, hd, rfl, rfl⟩ := exec_cases h
  · exact ⟨_, s.respond_response v, .computed (s.respond_trace v)⟩
  · exact ⟨_, s.raise_response _, .invalid hi (s.raise_trace _)⟩
  · refine (s.getField_answersLastEntry d w decoded).ending ?_
    obtain ⟨⟨f, rfl⟩, -⟩ | ⟨⟨f, rfl⟩, -⟩ | ⟨⟨f, rfl⟩, -⟩ := hi <;> rfl
  · refine (s.setField_answersLastEntry d w raw).ending ?_
    obtain ⟨f, v, rfl⟩ | ⟨f, n, rfl⟩ | ⟨f, b, rfl⟩ := hi <;> rfl
  · exact s.triggerReset_answersLastEntry.ending rfl
  · obtain hlast | ⟨hresponse, hread⟩ := s.bringUp_answersLastEntry busAddr hd
    · exact hlast.ending rfl
    · exact ⟨_, hresponse, .mismatch ⟨busAddr, hd, rfl⟩ hread⟩

end Sys2Proof.Machine
end

section
namespace Sys2Proof.Proofs
open Sys2Proof.Machine

/-- Settles O56, ending by ending (`exec_ending`): a request starts with an empty trace, and decodes to an instruction of
its own opcode. -/
theorem statusIsAFunctionOfTheTrace : Obligations.StatusIsAFunctionOfTheTrace := by
  intro s t r rest hstep hs
  obtain ⟨hnil, -⟩ | ⟨r', rest', i, hs', hdec, hexec⟩ := step_cases hstep
  · cases hs.symm.trans hnil
  obtain ⟨rfl, rfl⟩ := List.cons.inj (hs.symm.trans hs')
  obtain ⟨⟨status, v⟩, hresponse, hending⟩ := exec_ending hexec
  refine ⟨_, hresponse, ?_⟩
  cases hending with
  | computed htrace => simp [htrace]
  | invalid hi htrace => simp [htrace, opcode_of_decode_validated_set hdec hi]
  | completed e hlast hdone => simp [hlast, hdone]
  | failed e _ hlast hfailed =>
    have hread : ∀ a n w off p, e ≠ .readBits a n w off (some p) := by
      rintro a n w off p rfl
      cases hfailed
    simp [hlast, hfailed, List.ne_nil_of_mem (List.mem_of_getLast? hlast), hread]
  | mismatch hi hlast =>
    obtain ⟨busAddr, hd, rfl⟩ := hi
    obtain ⟨a, n, w, off, p, hlast⟩ := hlast
    simp [hlast, List.ne_nil_of_mem (List.mem_of_getLast? hlast), opcode_of_decode_bringup hdec, TraceEntry.failed]

/-- Settles O57, by the way each status comes about (`exec_ending`). -/
theorem statusesAreRaisedAsTabled : Obligations.StatusesAreRaisedAsTabled := by
  refine ⟨⟨rfl, rfl, rfl, rfl⟩, fun s t i h => ?_⟩
  obtain ⟨⟨status, v⟩, hresponse, hending⟩ := exec_ending h
  refine ⟨_, hresponse, ?_⟩
  cases hending with
  | computed => simp
  | invalid hi => simp [hi]
  | completed => simp
  | failed e hi =>
    refine ⟨fun _ off w x r f raw v => ⟨?_, ?_, ?_, ?_⟩, by simp, by simp⟩ <;> rintro rfl <;> cases hi
  | mismatch hi => simp [hi]

end Sys2Proof.Proofs
end

section
/-! The state in which the model starts (spec R170, R171). -/

namespace Sys2Proof.Machine

/-- The device starts at its power-on state (`powerOnByte_spec`; spec R171). -/
theorem State.powerOn_atDefaults {cfg : Config} (hb : cfg.resetBit ≤ 7) : (State.powerOn cfg).AtDefaults := by
  obtain ⟨hspecified, hregister, hbit⟩ := powerOnByte_spec cfg 0 hb
  exact ⟨hspecified, hregister, hbit, rfl⟩

/-- Well-formedness is all that the invariant asks of a configuration at the start. -/
theorem State.powerOn_inv {cfg : Config} (hwf : cfg.wf = true) : (State.powerOn cfg).Inv where
  config := hwf
  regs := State.powerOn_regsOk cfg
  response _ hr := nomatch hr
  trace := Nat.zero_le 3

end Sys2Proof.Machine
end

section
namespace Sys2Proof.Proofs
open Sys2Proof.Machine

/-- Settles O51: link, index, requests and response are fields of the start, its registers hold the power-on values
(`State.powerOn_atDefaults`). -/
theorem powerOnStateIsAsStated : Obligations.PowerOnStateIsAsStated := fun _ hb =>
  ⟨rfl, rfl, rfl, rfl, rfl, State.powerOn_atDefaults hb⟩

/-- Settles O53: the invariant holds at the start on every well-formed configuration (`State.powerOn_inv`), and the
fixture is one. -/
theorem resetHasInvariant : Obligations.ResetHasInvariant :=
  State.powerOn_inv (cfg := .fixture) (by decide)

end Sys2Proof.Proofs
end

section
namespace Sys2Proof.Proofs

/-- Settles O3: each word is the command word of a well-formed instruction of the fixture, with the operands that instruction
encodes, so the round trip (`decodeOfEncodeIsTheInstruction`) reads it back. -/
theorem specWordsDecodeOnFixture : Obligations.SpecWordsDecodeOnFixture := by
  have reads := decodeOfEncodeIsTheInstruction .fixture
  exact ⟨reads (.getLin 0) (by decide), reads (.getEnum 3) (by decide), reads (.getBool 4) (by decide),
    reads (.setLin 0 5) (by decide), reads (.setEnum 3 2) (by decide), reads (.setBool 4 true) (by decide),
    reads (.bringup 0x6B 1) rfl, reads .reset rfl,
    reads (.extract 4 12 0xABCD) (by decide), reads (.insert 2 3 0x00FF 0) (by decide),
    reads (.dequant 0 10) (by decide), reads (.quant 1 3) (by decide)⟩

end Sys2Proof.Proofs
end
